-- ==== Sys2Proof/Word.lean ====
section
/-! DEFINITION. The word types of the DEC64 core: the 64-bit word of 00_scope.md R8, R15 and the
byte of 20_memory.md R63. -/

namespace Sys2Proof

/-- A 64-bit pattern held in a register or on the bus (00_scope.md R8, R15). -/
abbrev Word := BitVec 64

/-- One byte of the string buffer (10_state.md R42). -/
abbrev Byte := BitVec 8

end Sys2Proof
end

