-- ==== Sys2Proof/Config.lean ====
section
/-! DEFINITION. What is fixed for one machine: the parameters of 00_scope.md R7 that the rules do not
write as literal numbers in their pseudocode. -/

namespace Sys2Proof.Config

/-- The number of the 256-byte page on which the platform places the window. R7 and 20_memory.md R60
leave BASE open, so no value of it can be proved (log entry 1). -/
opaque baseIndex : Nat

/-- BASE, the base address of the host window: a multiple of 256 (20_memory.md R60). -/
def base : Nat := 256 * baseIndex

/-- EMAX_ARITH, the largest exponent renormalisation lets through: 253 by 00_scope.md R7 and
90_conflicts.md C1 (log entry 7). -/
def emaxArith : Int := 253

end Sys2Proof.Config
end

