-- ==== Sys2Proof/Syntax.lean ====
section
/-! DEFINITION. The commands of the DEC64 core (30_encoding.md R95): one constructor per row of
spec/opcode_table.json. -/

namespace Sys2Proof

/-- The number of a decimal register D0 .. D7 (30_encoding.md R92). -/
abbrev DReg := Fin 8

/-- The six rounding rules of 30_encoding.md R94, in the order of their RM codes. -/
inductive RoundingRule where
  /-- TZ, toward zero (RM = 0). -/
  | towardZero
  /-- AZ, away from zero (RM = 1). -/
  | awayFromZero
  /-- NA, to nearest, ties away from zero (RM = 2). -/
  | nearestAway
  /-- NE, to nearest, ties to even (RM = 3). -/
  | nearestEven
  /-- DN, floor (RM = 4). -/
  | down
  /-- UP, ceiling (RM = 5). -/
  | up
  deriving DecidableEq, Repr

/-- A command. Register operands are named as in the fields RD, RA, RB of 30_encoding.md R91;
an immediate is the integer `sext_14(IMM)` of R93. -/
inductive Instr where
  /-- `POW10 #n` (40_digit_shift.md R121). -/
  | pow10 (n : Int)
  /-- `SCALE #sh` (R122). -/
  | scale (sh : Int)
  /-- `SHUP16` (R123). -/
  | shup16
  /-- `SHUP17` (R124). -/
  | shup17
  /-- `SHUP18` (R125). -/
  | shup18
  /-- `SHUPC #limit` (R126). -/
  | shupc (limit : Int)
  /-- `ENC Drd, #e` (41_word_codec.md R158). -/
  | enc (rd : DReg) (e : Int)
  /-- `SIG Dra` (R160). -/
  | sig (ra : DReg)
  /-- `EXP Dra` (R161). -/
  | exp (ra : DReg)
  /-- `SGN Dra` (R162). -/
  | sgn (ra : DReg)
  /-- `NORM Drd, Dra` (R163). -/
  | norm (rd ra : DReg)
  /-- `ADD Drd, Dra, Drb` (42_arith.md R186). -/
  | add (rd ra rb : DReg)
  /-- `SUB Drd, Dra, Drb` (R187). -/
  | sub (rd ra rb : DReg)
  /-- `MUL Drd, Dra, Drb` (R190). -/
  | mul (rd ra rb : DReg)
  /-- `DIV Drd, Dra, Drb` (R193). -/
  | div (rd ra rb : DReg)
  /-- `NEG Drd, Dra` (R196). -/
  | neg (rd ra : DReg)
  /-- `SHL Drd, Dra, #N` (R198). -/
  | shl (rd ra : DReg) (n : Int)
  /-- `SHR Drd, Dra, #N` (R199). -/
  | shr (rd ra : DReg) (n : Int)
  /-- `RND Drd, Dra, rule, #scale` (43_round.md R232). -/
  | rnd (rd ra : DReg) (rule : RoundingRule) (scale : Int)
  /-- `DECOMP Dint, Dfrac, Dsrc`: integral part to `rd`, fraction to `rb`, source `ra` (R236). -/
  | decomp (rd ra rb : DReg)
  /-- `CMPEQ Dra, Drb` (44_compare.md R261). -/
  | cmpeq (ra rb : DReg)
  /-- `CMP Dra, Drb` (R264). -/
  | cmp (ra rb : DReg)
  /-- `PARSE Drd` (45_string.md R285). -/
  | parse (rd : DReg)
  /-- `FMT Dra` (R295). -/
  | fmt (ra : DReg)
  deriving DecidableEq, Repr

/-- The mnemonic of a command, as spec/opcode_table.json and 30_encoding.md R95 spell it. -/
def Instr.mnemonic : Instr → String
  | .pow10 _ => "POW10"
  | .scale _ => "SCALE"
  | .shup16 => "SHUP16"
  | .shup17 => "SHUP17"
  | .shup18 => "SHUP18"
  | .shupc _ => "SHUPC"
  | .enc _ _ => "ENC"
  | .sig _ => "SIG"
  | .exp _ => "EXP"
  | .sgn _ => "SGN"
  | .norm _ _ => "NORM"
  | .add _ _ _ => "ADD"
  | .sub _ _ _ => "SUB"
  | .mul _ _ _ => "MUL"
  | .div _ _ _ => "DIV"
  | .neg _ _ => "NEG"
  | .shl _ _ _ => "SHL"
  | .shr _ _ _ => "SHR"
  | .rnd _ _ _ _ => "RND"
  | .decomp _ _ _ => "DECOMP"
  | .cmpeq _ _ => "CMPEQ"
  | .cmp _ _ => "CMP"
  | .parse _ => "PARSE"
  | .fmt _ => "FMT"

end Sys2Proof
end

