-- ==== Sys2Proof/WellFormed.lean ====
section
/-! DEFINITION. Which commands a command word can spell: an immediate fits its 14 bits
(30_encoding.md R93) and DECOMP names two different destinations (R98 item 5). -/

namespace Sys2Proof

/-- `imm = sext_14(IMM)` is an integer in [−8192, 8191] (30_encoding.md R93). -/
def immInRange (imm : Int) : Bool := decide (-8192 ≤ imm ∧ imm ≤ 8191)

/-- The command has an encoding (30_encoding.md R91, R93, R98). -/
def Instr.wellFormed : Instr → Bool
  | .pow10 n => immInRange n
  | .scale sh => immInRange sh
  | .shup16 => true
  | .shup17 => true
  | .shup18 => true
  | .shupc limit => immInRange limit
  | .enc _ e => immInRange e
  | .sig _ => true
  | .exp _ => true
  | .sgn _ => true
  | .norm _ _ => true
  | .add _ _ _ => true
  | .sub _ _ _ => true
  | .mul _ _ _ => true
  | .div _ _ _ => true
  | .neg _ _ => true
  | .shl _ _ n => immInRange n
  | .shr _ _ n => immInRange n
  | .rnd _ _ _ places => immInRange places
  | .decomp rd _ rb => decide (rd ≠ rb)
  | .cmpeq _ _ => true
  | .cmp _ _ => true
  | .parse _ => true
  | .fmt _ => true

end Sys2Proof
end

