-- ==== Sys2Proof/Decode.lean ====
section
/-! DEFINITION. The command decoder and encoder (30_encoding.md R90 to R100). Decoding is total on every
64-bit value written to CMD and names why a value is no command. -/

namespace Sys2Proof

/-- Why a value written to CMD is not a legal command: the five cases of 30_encoding.md R98. All of
them complete with E_ILLEGAL. -/
inductive DecodeError where
  /-- A nonzero bit in `v[63:32]` (R98 item 1). -/
  | upperBits
  /-- An undefined opcode (R98 item 2). -/
  | undefinedOpcode (op : BitVec 6)
  /-- A nonzero field that the command does not use (R98 item 3). -/
  | unusedField (op : BitVec 6)
  /-- RND with RM = 6 or 7 (R98 item 4). -/
  | reservedRounding (rm : BitVec 3)
  /-- DECOMP with RD = RB (R98 item 5). -/
  | sameDestination (rd : BitVec 3)
  deriving DecidableEq, Repr

/-- The six fields of the one command format (30_encoding.md R91). -/
structure CmdFields where
  op : BitVec 6
  rd : BitVec 3
  ra : BitVec 3
  rb : BitVec 3
  rm : BitVec 3
  imm : BitVec 14
  deriving DecidableEq, Repr

/-- The fields of a command word, at the bits of 30_encoding.md R91. -/
def CmdFields.ofWord (w : BitVec 32) : CmdFields :=
  { op := w.extractLsb' 26 6
    rd := w.extractLsb' 23 3
    ra := w.extractLsb' 20 3
    rb := w.extractLsb' 17 3
    rm := w.extractLsb' 14 3
    imm := w.extractLsb' 0 14 }

/-- The command word with the given fields: `OP ‖ RD ‖ RA ‖ RB ‖ RM ‖ IMM` (30_encoding.md R91). -/
def CmdFields.toWord (f : CmdFields) : BitVec 32 :=
  f.op ++ f.rd ++ f.ra ++ f.rb ++ f.rm ++ f.imm

/-- The register a 3-bit field names (30_encoding.md R92). -/
def regOfBits (b : BitVec 3) : DReg := ⟨b.toNat, b.isLt⟩

/-- The 3-bit field that names a register (30_encoding.md R92). -/
def regToBits (r : DReg) : BitVec 3 := BitVec.ofNat 3 r.val

/-- `imm = sext_14(IMM)` (30_encoding.md R93). -/
def immOfBits (b : BitVec 14) : Int := b.toInt

/-- The IMM field of an immediate (30_encoding.md R93). -/
def immToBits (imm : Int) : BitVec 14 := BitVec.ofInt 14 imm

/-- The rounding rule of an RM code; 6 and 7 are reserved (30_encoding.md R94). -/
def RoundingRule.ofCode (rm : BitVec 3) : Option RoundingRule :=
  match rm.toNat with
  | 0 => some .towardZero
  | 1 => some .awayFromZero
  | 2 => some .nearestAway
  | 3 => some .nearestEven
  | 4 => some .down
  | 5 => some .up
  | _ => none

/-- The RM code of a rounding rule (30_encoding.md R94). -/
def RoundingRule.code : RoundingRule → BitVec 3
  | .towardZero => 0
  | .awayFromZero => 1
  | .nearestAway => 2
  | .nearestEven => 3
  | .down => 4
  | .up => 5

/-- The command `i` when the fields it does not use are zero, else E_ILLEGAL (30_encoding.md R96). -/
def ifUnusedZero (f : CmdFields) (unusedZero : Bool) (i : Instr) : Except DecodeError Instr :=
  if unusedZero then .ok i else .error (.unusedField f.op)

/-- The command that a set of fields spells: the opcode map of 30_encoding.md R95, with the unused
fields of R96, the reserved rounding codes of R94 and the two destinations of DECOMP (R98). -/
def decodeFields (f : CmdFields) : Except DecodeError Instr :=
  let rd := regOfBits f.rd
  let ra := regOfBits f.ra
  let rb := regOfBits f.rb
  let imm := immOfBits f.imm
  let noRd := f.rd == 0
  let noRa := f.ra == 0
  let noRb := f.rb == 0
  let noRm := f.rm == 0
  let noImm := f.imm == 0
  match f.op.toNat with
  | 0x01 => ifUnusedZero f (noRd && noRa && noRb && noRm) (.pow10 imm)
  | 0x02 => ifUnusedZero f (noRd && noRa && noRb && noRm) (.scale imm)
  | 0x03 => ifUnusedZero f (noRd && noRa && noRb && noRm && noImm) .shup16
  | 0x04 => ifUnusedZero f (noRd && noRa && noRb && noRm && noImm) .shup17
  | 0x05 => ifUnusedZero f (noRd && noRa && noRb && noRm && noImm) .shup18
  | 0x06 => ifUnusedZero f (noRd && noRa && noRb && noRm) (.shupc imm)
  | 0x08 => ifUnusedZero f (noRa && noRb && noRm) (.enc rd imm)
  | 0x09 => ifUnusedZero f (noRd && noRb && noRm && noImm) (.sig ra)
  | 0x0A => ifUnusedZero f (noRd && noRb && noRm && noImm) (.exp ra)
  | 0x0B => ifUnusedZero f (noRd && noRb && noRm && noImm) (.sgn ra)
  | 0x0C => ifUnusedZero f (noRb && noRm && noImm) (.norm rd ra)
  | 0x10 => ifUnusedZero f (noRm && noImm) (.add rd ra rb)
  | 0x11 => ifUnusedZero f (noRm && noImm) (.sub rd ra rb)
  | 0x12 => ifUnusedZero f (noRm && noImm) (.mul rd ra rb)
  | 0x13 => ifUnusedZero f (noRm && noImm) (.div rd ra rb)
  | 0x14 => ifUnusedZero f (noRb && noRm && noImm) (.neg rd ra)
  | 0x15 => ifUnusedZero f (noRb && noRm) (.shl rd ra imm)
  | 0x16 => ifUnusedZero f (noRb && noRm) (.shr rd ra imm)
  | 0x17 =>
    match RoundingRule.ofCode f.rm with
    | some rule => ifUnusedZero f noRb (.rnd rd ra rule imm)
    | none => .error (.reservedRounding f.rm)
  | 0x18 =>
    if f.rd = f.rb then .error (.sameDestination f.rd)
    else ifUnusedZero f (noRm && noImm) (.decomp rd ra rb)
  | 0x20 => ifUnusedZero f (noRd && noRm && noImm) (.cmpeq ra rb)
  | 0x21 => ifUnusedZero f (noRd && noRm && noImm) (.cmp ra rb)
  | 0x28 => ifUnusedZero f (noRa && noRb && noRm && noImm) (.parse rd)
  | 0x29 => ifUnusedZero f (noRd && noRb && noRm && noImm) (.fmt ra)
  | _ => .error (.undefinedOpcode f.op)

/-- The command that a 32-bit command word spells (30_encoding.md R91, R95 to R98). -/
def decodeWord (w : BitVec 32) : Except DecodeError Instr := decodeFields (CmdFields.ofWord w)

/-- The decoder of 30_encoding.md R100, on the value written to CMD: `v[63:32]` must be zero and
`v[31:0]` is the command word (R90). -/
def decodeCmd (v : Word) : Except DecodeError Instr :=
  if v.extractLsb' 32 32 ≠ 0 then .error .upperBits else decodeWord (v.extractLsb' 0 32)

/-- The fields of a command (30_encoding.md R95): every field it does not use is zero. -/
def Instr.fields : Instr → CmdFields
  | .pow10 n => ⟨0x01, 0, 0, 0, 0, immToBits n⟩
  | .scale sh => ⟨0x02, 0, 0, 0, 0, immToBits sh⟩
  | .shup16 => ⟨0x03, 0, 0, 0, 0, 0⟩
  | .shup17 => ⟨0x04, 0, 0, 0, 0, 0⟩
  | .shup18 => ⟨0x05, 0, 0, 0, 0, 0⟩
  | .shupc limit => ⟨0x06, 0, 0, 0, 0, immToBits limit⟩
  | .enc rd e => ⟨0x08, regToBits rd, 0, 0, 0, immToBits e⟩
  | .sig ra => ⟨0x09, 0, regToBits ra, 0, 0, 0⟩
  | .exp ra => ⟨0x0A, 0, regToBits ra, 0, 0, 0⟩
  | .sgn ra => ⟨0x0B, 0, regToBits ra, 0, 0, 0⟩
  | .norm rd ra => ⟨0x0C, regToBits rd, regToBits ra, 0, 0, 0⟩
  | .add rd ra rb => ⟨0x10, regToBits rd, regToBits ra, regToBits rb, 0, 0⟩
  | .sub rd ra rb => ⟨0x11, regToBits rd, regToBits ra, regToBits rb, 0, 0⟩
  | .mul rd ra rb => ⟨0x12, regToBits rd, regToBits ra, regToBits rb, 0, 0⟩
  | .div rd ra rb => ⟨0x13, regToBits rd, regToBits ra, regToBits rb, 0, 0⟩
  | .neg rd ra => ⟨0x14, regToBits rd, regToBits ra, 0, 0, 0⟩
  | .shl rd ra n => ⟨0x15, regToBits rd, regToBits ra, 0, 0, immToBits n⟩
  | .shr rd ra n => ⟨0x16, regToBits rd, regToBits ra, 0, 0, immToBits n⟩
  | .rnd rd ra rule places => ⟨0x17, regToBits rd, regToBits ra, 0, rule.code, immToBits places⟩
  | .decomp rd ra rb => ⟨0x18, regToBits rd, regToBits ra, regToBits rb, 0, 0⟩
  | .cmpeq ra rb => ⟨0x20, 0, regToBits ra, regToBits rb, 0, 0⟩
  | .cmp ra rb => ⟨0x21, 0, regToBits ra, regToBits rb, 0, 0⟩
  | .parse rd => ⟨0x28, regToBits rd, 0, 0, 0, 0⟩
  | .fmt ra => ⟨0x29, 0, regToBits ra, 0, 0, 0⟩

/-- The command word of a command (30_encoding.md R91, R95). -/
def encodeWord (i : Instr) : BitVec 32 := i.fields.toWord

/-- The value a host writes to CMD to issue a command: the command word in `v[31:0]`, zero above
(30_encoding.md R90). -/
def encode (i : Instr) : Word := (encodeWord i).setWidth 64

/-- One row of the opcode table of 30_encoding.md R95: the mnemonic, and the match and mask with which
a command word spells the row. -/
structure OpcodeRow where
  mnemonic : String
  pattern : BitVec 32
  mask : BitVec 32
  deriving DecidableEq, Repr

/-- A command word spells a row exactly when `(w & mask) = match` (30_encoding.md R95). -/
def OpcodeRow.spells (row : OpcodeRow) (w : BitVec 32) : Bool := (w &&& row.mask) == row.pattern

/-- The 24 rows of spec/opcode_table.json (30_encoding.md R95), as 32-bit values. The decoder does not
use them; statements and tests hold it against them. -/
def opcodeRows : List OpcodeRow :=
  [ ⟨"POW10", 0x04000000, 0xFFFFC000⟩, ⟨"SCALE", 0x08000000, 0xFFFFC000⟩,
    ⟨"SHUP16", 0x0C000000, 0xFFFFFFFF⟩, ⟨"SHUP17", 0x10000000, 0xFFFFFFFF⟩,
    ⟨"SHUP18", 0x14000000, 0xFFFFFFFF⟩, ⟨"SHUPC", 0x18000000, 0xFFFFC000⟩,
    ⟨"ENC", 0x20000000, 0xFC7FC000⟩, ⟨"SIG", 0x24000000, 0xFF8FFFFF⟩,
    ⟨"EXP", 0x28000000, 0xFF8FFFFF⟩, ⟨"SGN", 0x2C000000, 0xFF8FFFFF⟩,
    ⟨"NORM", 0x30000000, 0xFC0FFFFF⟩, ⟨"ADD", 0x40000000, 0xFC01FFFF⟩,
    ⟨"SUB", 0x44000000, 0xFC01FFFF⟩, ⟨"MUL", 0x48000000, 0xFC01FFFF⟩,
    ⟨"DIV", 0x4C000000, 0xFC01FFFF⟩, ⟨"NEG", 0x50000000, 0xFC0FFFFF⟩,
    ⟨"SHL", 0x54000000, 0xFC0FC000⟩, ⟨"SHR", 0x58000000, 0xFC0FC000⟩,
    ⟨"RND", 0x5C000000, 0xFC0E0000⟩, ⟨"DECOMP", 0x60000000, 0xFC01FFFF⟩,
    ⟨"CMPEQ", 0x80000000, 0xFF81FFFF⟩, ⟨"CMP", 0x84000000, 0xFF81FFFF⟩,
    ⟨"PARSE", 0xA0000000, 0xFC7FFFFF⟩, ⟨"FMT", 0xA4000000, 0xFF8FFFFF⟩ ]

/-- The 64-bit value written to CMD whose bits below `nbits` are those of `w` and whose other bits are
zero: bit 0 of `w` is bit 0 of CMD (30_encoding.md R91, 20_memory.md R63). -/
def cmdValue (nbits w : Nat) : Word := BitVec.ofNat 64 (w % 2 ^ nbits)

/-- The command the decoder reads from an instruction whose bits, numbered as spec/opcode_table.json
numbers them, are `w`. -/
def decodeTableWord (nbits w : Nat) : Option Instr :=
  match decodeCmd (cmdValue nbits w) with
  | .ok i => some i
  | .error _ => none

end Sys2Proof
end

