-- ==== Sys2Proof/Machine/State.lean ====
section
/-! DEFINITION. The state of the DEC64 core as plain data (10_state.md R30 to R48), the reasons a step can
stop, and the state after reset. -/

namespace Sys2Proof.Machine

open Sys2Proof

/-- The error codes of 60_exceptions.md R331 other than NONE. An error is a command's outcome, reported
in STATUS; it never stops the machine (R330). -/
inductive ErrorCode where
  /-- E_ILLEGAL, code 1: not a legal command (30_encoding.md R98). -/
  | illegal
  /-- E_OPERAND, code 2: an invalid decimal operand (41_word_codec.md R157). -/
  | operand
  /-- E_RANGE, code 3: an integer operand, immediate or result outside its domain. -/
  | range
  /-- E_DIVZERO, code 4: DIV with a zero divisor. -/
  | divZero
  /-- E_OVERFLOW, code 5: an exponent above EMAX_ARITH after maximal denormalisation. -/
  | overflow
  /-- E_PARSE, code 6: PARSE of a bad length or malformed input. -/
  | parse
  /-- E_UNIMPL, code 7: RND with a negative scale. -/
  | unimpl
  deriving DecidableEq, Repr

/-- The fields of STATUS (10_state.md R37). No other bits of the register exist: they read 0 and ignore
writes, so they are not held (log entry 9). -/
structure Status where
  /-- Bit 0: a command is in flight (R38). -/
  busy : Bool
  /-- Bit 1: the last completed command raised an error. -/
  err : Bool
  /-- Bit 2: sticky error, write-1-to-clear (R40). -/
  serr : Bool
  /-- Bits 7:4: the error code of the last completed command, 0 when ERR = 0. -/
  ecode : BitVec 4
  deriving DecidableEq, Repr

/-- The bytes of the string buffer as (index, byte) pairs in the canonical form of `Memory.wf`: indices
strictly rising and below 64, no byte 0x00, which is what an unlisted index reads as (log entry 17). -/
abbrev Memory := List Host.Cell

/-- What can happen at the window or to the block, in arrival order (10_state.md R30,
70_reset_and_hazards.md R366). The agenda of State is a list of these (log entry 3). -/
inductive Event where
  /-- A host read of `size` bytes at byte address `addr`: `MemRead(addr, size)` (00_scope.md R10). -/
  | read (addr size : Nat)
  /-- A host write of `size` bytes at byte address `addr`: `MemWrite(addr, size, v)`. -/
  | write (addr size : Nat) (v : Word)
  /-- The platform asserts and releases reset (70_reset_and_hazards.md R360). -/
  | reset
  /-- The unit's turn: it completes the command in flight, if there is one (R365). -/
  | unitTurn
  deriving DecidableEq, Repr

/-- What the host gets back from an access (20_memory.md R66, 60_exceptions.md R341; log entry 4). -/
inductive Response where
  /-- No host access since reset. -/
  | none
  /-- An accepted read returned this data. -/
  | readData (v : Word)
  /-- An accepted write. -/
  | writeAccepted
  /-- A bus error on a read, with the data returned (0 by R66). -/
  | readError (v : Word)
  /-- A bus error on a write. -/
  | writeError
  deriving DecidableEq, Repr

/-- The state of the block, and the model's own two fields `agenda` and `response`. -/
structure State where
  /-- D0 .. D7 (10_state.md R31). -/
  d : Vector Word 8
  /-- DATA (R33). -/
  data : Word
  /-- RESULT (R34). -/
  result : Word
  /-- AUX (R35). -/
  aux : Word
  /-- CMD (R36). -/
  cmd : Word
  /-- STATUS (R37). -/
  status : Status
  /-- STRLEN.LEN, the stored bits [6:0] of STRLEN (R41). -/
  strlen : BitVec 7
  /-- STR[0] .. STR[63] (R42). -/
  str : Memory
  /-- The latch `inflight` (R44): the accepted command word, or none. -/
  inflight : Option Word
  /-- The model's own: what happens next, oldest first (log entry 3). -/
  agenda : List Event
  /-- The model's own: the response to the latest host access (log entry 4). -/
  response : Response
  deriving DecidableEq, Repr

/-- Why a step stops the model. -/
inductive Fault where
  /-- Raised by the step when the agenda holds an access whose address lies outside the window. No such
  access reaches the block (20_memory.md R60, R62); safe, since the model stops (log entry 2). -/
  | outsideWindow (addr : Nat)
  deriving DecidableEq, Repr

/-- Why a step has no meaning. -/
inductive Refusal where
  /-- Raised by the dispatcher for an instruction that has no meaning yet; safe, since the model stops.
  Every instruction of the opcode table has its meaning, so no step answers it. -/
  | notModelled (mnemonic : String)
  deriving DecidableEq, Repr

/-- The block right after reset (10_state.md R48, 70_reset_and_hazards.md R360): every register 0, STR
all zero bytes, nothing in flight. The model's own fields are empty (log entry 14). -/
def State.reset : State :=
  { d := Vector.replicate 8 0
    data := 0
    result := 0
    aux := 0
    cmd := 0
    status := { busy := false, err := false, serr := false, ecode := 0 }
    strlen := 0
    str := []
    inflight := none
    agenda := []
    response := .none }

end Sys2Proof.Machine
end

