-- ==== Sys2Proof/Machine/Decimal.lean ====
section
/-! DEFINITION. Numbers and words: the integer notation of 00_scope.md R8, R9, the digit-shift primitives
of 40_digit_shift.md R120, R127 to R129, and the decimal word encoding of 41_word_codec.md R150 to R153.
All arithmetic is on mathematical integers (R9, 93_implementation_defined.md U15). -/

namespace Sys2Proof.Machine

open Sys2Proof

/-- A decimal value `sig × 10^exp` as the pair the rules decode it to (00_scope.md R12). -/
structure Decimal where
  sig : Int
  exp : Int
  deriving DecidableEq, Repr

/-- `value(s, e)`, the exact rational `s × 10^e` (00_scope.md R9). -/
def Decimal.value (a : Decimal) : ℚ := a.sig * 10 ^ a.exp

/-- `word64(v)`: the 64-bit pattern of `v mod 2^64` (00_scope.md R8). -/
def word64 (v : Int) : Word := BitVec.ofInt 64 v

/-- `sint(w)`: the two's-complement value of a word (00_scope.md R8). -/
def sint (w : Word) : Int := w.toInt

/-- Decimal digits of `m`, counted on at most `fuel` digits. -/
def ndigitsFrom : Nat → Nat → Nat
  | 0, _ => 0
  | fuel + 1, m => if m = 0 then 0 else ndigitsFrom fuel (m / 10) + 1

/-- `ndigits(m)`, the least n with `m < 10^n`, for `m ≥ 1` (00_scope.md R9). A number has at most as many
decimal digits as bits. Every rule guards `m ≠ 0`; the value at 0 is never used (log entry 13). -/
def ndigits (m : Nat) : Nat := ndigitsFrom (m.log2 + 1) m

/-- The power-of-ten table for n in 0..18; no entry exists for any other n (40_digit_shift.md R120). -/
def powerOfTen (n : Int) : Option Nat :=
  if n < 0 ∨ n > 18 then none else some (10 ^ n.toNat)

/-- `scaleByDigits(v, sh)` (40_digit_shift.md R127). -/
def scaleByDigits (v sh : Int) : Int :=
  if sh < -17 then 0
  else if sh < 0 then Int.tdiv v (10 ^ (-sh).toNat)
  else v * 10 ^ sh.toNat

/-- `shiftUpToDigits(v, t)` for `v ≠ 0` of at most `t` digits: the shifted value and the count of digits
shifted (40_digit_shift.md R128). -/
def shiftUpToDigits (v : Int) (t : Nat) : Int × Nat :=
  (v * 10 ^ (t - ndigits v.natAbs), t - ndigits v.natAbs)

/-- `shiftUpToDigitsCapped(v, limit)` for `v = 0` or `v` of at most 17 digits (40_digit_shift.md R129). -/
def shiftUpToDigitsCapped (v : Int) (limit : Nat) : Int × Nat :=
  if v = 0 then (0, limit)
  else (v * 10 ^ min (17 - ndigits v.natAbs) limit, min (17 - ndigits v.natAbs) limit)

/-- The magnitude word `M = |s| · 512 + (e + 256)` (41_word_codec.md R150). -/
def magnitudeWord (s e : Int) : Int := (s.natAbs : Int) * 512 + (e + 256)

/-- `encode(s, e)`: the word of a pair, or E_RANGE when the pair is out of range
(41_word_codec.md R152). -/
def encodeDecimal (s e : Int) : Except ErrorCode Word :=
  if s.natAbs ≥ 10 ^ 16 ∨ e < -256 ∨ e > 255 then .error .range
  else if s = 0 then .ok 0
  else if s > 0 then .ok (word64 (magnitudeWord s e))
  else .ok (word64 (-magnitudeWord s e))

/-- `decode(w)`: the pair of a canonical word, none for an invalid one (41_word_codec.md R153). MAG is the
bits `M[62:9]`, so `M / 512`, and EB the bits `M[8:0]`, so `M mod 512` (R150). -/
def decodeDecimal (w : Word) : Option Decimal :=
  if w = 0 then some ⟨0, 0⟩
  else if sint w = -2 ^ 63 then none
  else if (sint w).natAbs / 512 = 0 then none
  else if (sint w).natAbs / 512 ≥ 10 ^ 16 then none
  else some
    ⟨(sint w).sign * ((sint w).natAbs / 512 : Nat), ((sint w).natAbs % 512 : Nat) - 256⟩

/-- A word that `decode` accepts (00_scope.md R15). -/
def canonical (w : Word) : Bool := (decodeDecimal w).isSome

/-- The raw sign bit of a word, `w[63]` (41_word_codec.md R154, R162). -/
def signBit (w : Word) : Bool := w.getLsbD 63

end Sys2Proof.Machine
end

