-- ==== Sys2Proof/Machine/Flags.lean ====
section
/-! DEFINITION. The fields of STATUS: how a command's issue, its completion and a host write change them,
and the 64-bit word they read as (10_state.md R37 to R40, 60_exceptions.md R331). -/

namespace Sys2Proof.Machine

open Sys2Proof

/-- The ECODE value of an error (60_exceptions.md R331). -/
def ErrorCode.code : ErrorCode → BitVec 4
  | .illegal => 1
  | .operand => 2
  | .range => 3
  | .divZero => 4
  | .overflow => 5
  | .parse => 6
  | .unimpl => 7

/-- STATUS when a CMD write is accepted: BUSY becomes 1, ERR, ECODE and SERR keep their values
(70_reset_and_hazards.md R364). -/
def Status.issued (st : Status) : Status := { st with busy := true }

/-- STATUS when a command completes without error: `ERR <- 0; ECODE <- 0; SERR <- SERR or ERR;
BUSY <- 0` (10_state.md R39). -/
def Status.succeeded (st : Status) : Status :=
  { busy := false, err := false, serr := st.serr, ecode := 0 }

/-- STATUS when a command completes with an error: `ERR <- 1; ECODE <- code; SERR <- SERR or ERR;
BUSY <- 0` (10_state.md R39, 60_exceptions.md R333). -/
def Status.failed (st : Status) (c : ErrorCode) : Status :=
  { busy := false, err := true, serr := st.serr || true, ecode := c.code }

/-- STATUS after a host write of `v`: SERR is cleared when bit 2 of `v` is 1; every other bit of `v` is
ignored (10_state.md R40). -/
def Status.hostWrite (st : Status) (v : Word) : Status :=
  { st with serr := st.serr && !v.getLsbD 2 }

/-- The 64-bit value STATUS reads as: BUSY at bit 0, ERR at bit 1, SERR at bit 2, ECODE at bits 7:4, every
other bit 0 (10_state.md R37). -/
def Status.toWord (st : Status) : Word :=
  BitVec.ofNat 64
    (st.busy.toNat + 2 * st.err.toNat + 4 * st.serr.toNat + 16 * st.ecode.toNat)

end Sys2Proof.Machine
end

