-- ==== Sys2Proof/Machine/Ops.lean ====
section
/-! DEFINITION. The named operations over the string buffer, the registers and the command life cycle.
Every meaning and every bus access changes the state only through these. -/

namespace Sys2Proof.Machine

open Sys2Proof

/-- What an index of STR that is not listed reads as: 0x00, the reset contents (10_state.md R48). -/
def strDefault : Byte := 0

/-- The byte `STR[j]` (10_state.md R42). -/
def Memory.read : Memory → Nat → Byte
  | [], _ => strDefault
  | (a, b) :: rest, j => if a = j then b else Memory.read rest j

/-- `STR[j] <- v`, keeping the canonical form: writing the default removes the entry. -/
def Memory.write : Memory → Nat → Byte → Memory
  | [], j, v => if v = strDefault then [] else [(j, v)]
  | (a, b) :: rest, j, v =>
    if j < a then (if v = strDefault then (a, b) :: rest else (j, v) :: (a, b) :: rest)
    else if j = a then (if v = strDefault then rest else (j, v) :: rest)
    else (a, b) :: Memory.write rest j v

/-- The canonical form from an index on: indices strictly rising, none below `lo`, all below 64, no
entry equal to the default. -/
def Memory.wfFrom : Nat → Memory → Bool
  | _, [] => true
  | lo, (a, b) :: rest =>
    decide (lo ≤ a) && decide (a < 64) && decide (b ≠ strDefault) && Memory.wfFrom (a + 1) rest

/-- The string buffer is in its one canonical form (10_state.md R42: 64 bytes). -/
def Memory.wf (m : Memory) : Bool := Memory.wfFrom 0 m

/-- Write the bytes of a list at consecutive indices. -/
def Memory.writeBytes : Memory → Nat → List Byte → Memory
  | m, _, [] => m
  | m, j, v :: vs => Memory.writeBytes (Memory.write m j v) (j + 1) vs

/-- The `n` bytes from an index on. -/
def Memory.readBytes (m : Memory) : Nat → Nat → List Byte
  | _, 0 => []
  | j, n + 1 => Memory.read m j :: Memory.readBytes m (j + 1) n

/-- The bytes of a word, least significant first: byte j is bits `[8j+7 : 8j]` (20_memory.md R63). -/
def wordBytes (v : Word) : List Byte :=
  (List.range 8).map fun j => v.extractLsb' (8 * j) 8

/-- The word whose byte j, least significant first, is the j-th of the list (20_memory.md R63). -/
def bytesWord : List Byte → Word
  | [] => 0
  | b :: bs => (bytesWord bs <<< 8) ||| b.setWidth 64

/-- STR word k: `STR[8k + j]` in bits `[8j+7 : 8j]` (20_memory.md R63). -/
def Memory.readWord (m : Memory) (k : Nat) : Word := bytesWord (Memory.readBytes m (8 * k) 8)

/-- A host write of STR word k (20_memory.md R63, R67). -/
def Memory.writeWord (m : Memory) (k : Nat) (v : Word) : Memory :=
  Memory.writeBytes m (8 * k) (wordBytes v)

/-- The buffer FMT leaves: its output, then 0x00 up to STR[63] (10_state.md R42). -/
def Memory.fill (m : Memory) (bs : List Byte) : Memory :=
  Memory.writeBytes m 0 (bs ++ List.replicate (64 - bs.length) strDefault)

/-- `D[i]` (10_state.md R31). -/
def State.readD (s : State) (i : Fin 8) : Word := s.d.get i

/-- `D[i] <- v` (10_state.md R31). -/
def State.writeD (s : State) (i : Fin 8) (v : Word) : State := { s with d := s.d.set i.val v i.isLt }

/-- `RESULT <- v` (10_state.md R34). -/
def State.writeResult (s : State) (v : Word) : State := { s with result := v }

/-- `AUX <- v` (10_state.md R35). -/
def State.writeAux (s : State) (v : Word) : State := { s with aux := v }

/-- `DATA <- v`, by the host only (10_state.md R33). -/
def State.writeData (s : State) (v : Word) : State := { s with data := v }

/-- The 64-bit value STRLEN reads as: bits 63:7 read 0 (10_state.md R41). -/
def State.strlenWord (s : State) : Word := s.strlen.setWidth 64

/-- A write to STRLEN stores bits [6:0] and ignores the rest (10_state.md R41). -/
def State.writeStrlen (s : State) (v : Word) : State := { s with strlen := v.setWidth 7 }

/-- The string buffer replaced (10_state.md R42). -/
def State.writeStr (s : State) (m : Memory) : State := { s with str := m }

/-- A host write to STATUS (10_state.md R40). -/
def State.writeStatus (s : State) (v : Word) : State := { s with status := s.status.hostWrite v }

/-- Command issue: `CMD <- v; inflight <- v; STATUS.BUSY <- 1` in one step
(70_reset_and_hazards.md R364). -/
def State.issue (s : State) (v : Word) : State :=
  { s with cmd := v, inflight := some v, status := s.status.issued }

/-- Completion without error: STATUS as 10_state.md R39 says, `inflight <- none`
(70_reset_and_hazards.md R365). The command's other effects are already in `s`. -/
def State.succeed (s : State) : State := { s with status := s.status.succeeded, inflight := none }

/-- Completion with an error, what `raise E_X` does: STATUS alone changes, `inflight <- none`
(60_exceptions.md R333). This is the whole of error handling: the block has no trap entry and no
return from one (R338, R339). -/
def State.fail (s : State) (c : ErrorCode) : State :=
  { s with status := s.status.failed c, inflight := none }

/-- The completion of a command whose rule, run on `s`, gives the state `r` with its effects or raises:
an error discards every effect (60_exceptions.md R333, R335). -/
def State.complete (s : State) (r : Except ErrorCode State) : Host.Outcome State Fault Refusal :=
  match r with
  | .ok s' => .next s'.succeed
  | .error c => .next (s.fail c)

/-- The events still to come replaced (log entry 3). -/
def State.withAgenda (s : State) (events : List Event) : State := { s with agenda := events }

/-- Reset: every piece of state takes its reset value and a command in flight is discarded
(70_reset_and_hazards.md R360). What the environment does next is not the block's and stays
(log entry 5). -/
def State.afterReset (s : State) : State := State.reset.withAgenda s.agenda

/-- The bus response to the latest access (log entry 4). -/
def State.respond (s : State) (r : Response) : State := { s with response := r }

/-- The state an outcome holds, if it is a next state. -/
def nextState : Host.Outcome State Fault Refusal → Option State
  | .next s => some s
  | .fault _ => none
  | .refused _ => none

end Sys2Proof.Machine
end

