-- ==== Sys2Proof/Machine/Operands.lean ====
section
/-! DEFINITION. Every operand form of a command: a decimal register, the raw word of a register, the
integer in DATA, and the input bytes of PARSE. The immediate is already an integer in the instruction
(30_encoding.md R93). -/

namespace Sys2Proof.Machine

open Sys2Proof

/-- A decimal register read as an operand: decoded, E_OPERAND when its word is invalid
(10_state.md R32). -/
def State.decimal (s : State) (r : Fin 8) : Except ErrorCode Decimal :=
  match decodeDecimal (s.readD r) with
  | some a => .ok a
  | none => .error .operand

/-- The integer operand `sint(DATA)` (10_state.md R33). -/
def State.integer (s : State) : Int := sint s.data

/-- The input of PARSE: `STR[0 .. LEN−1]`, E_PARSE when `LEN = 0` or `LEN > 64`, before STR is read
(45_string.md R282). -/
def State.inputBytes (s : State) : Except ErrorCode (List Byte) :=
  if s.strlen.toNat = 0 ∨ s.strlen.toNat > 64 then .error .parse
  else .ok (Memory.readBytes s.str 0 s.strlen.toNat)

end Sys2Proof.Machine
end

