-- ==== Sys2Proof/Machine/Bus.lean ====
section
/-! DEFINITION. The host window (20_memory.md R60 to R74), the events of the transition system of
70_reset_and_hazards.md R366, and which command, if any, the next step runs. -/

namespace Sys2Proof.Machine

open Sys2Proof

/-- The registers of the window (20_memory.md R61). -/
inductive BusReg where
  | cmd
  | data
  | result
  | aux
  | status
  | strlen
  | d (i : Fin 8)
  | str (k : Fin 8)
  deriving DecidableEq, Repr

/-- The offset of a register in the window (20_memory.md R61). -/
def BusReg.offset : BusReg → Nat
  | .cmd => 0x00
  | .data => 0x08
  | .result => 0x10
  | .aux => 0x18
  | .status => 0x20
  | .strlen => 0x28
  | .d i => 0x40 + 8 * i.val
  | .str k => 0x80 + 8 * k.val

/-- The register at an offset that is a multiple of 8; none at a reserved offset
(20_memory.md R61, R62). -/
def regAt (off : Nat) : Option BusReg :=
  if off = 0x00 then some .cmd
  else if off = 0x08 then some .data
  else if off = 0x10 then some .result
  else if off = 0x18 then some .aux
  else if off = 0x20 then some .status
  else if off = 0x28 then some .strlen
  else if off < 0x40 then none
  else if off < 0x80 then some (.d (Fin.ofNat 8 ((off - 0x40) / 8)))
  else if off < 0xC0 then some (.str (Fin.ofNat 8 ((off - 0x80) / 8)))
  else none

/-- The offset in the window of a byte address, none outside `BASE .. BASE+0xFF` (20_memory.md R60). -/
def windowOffset (addr : Nat) : Option Nat :=
  if Config.base ≤ addr ∧ addr < Config.base + 256 then some (addr - Config.base) else none

/-- The register an access of `size` bytes at an offset selects: only an 8-byte access at a multiple of
8, at an offset that is not reserved (20_memory.md R62, R64, R65). BASE is a multiple of 256, so the
address is a multiple of 8 exactly when the offset is. -/
def selectReg (off size : Nat) : Option BusReg :=
  if size = 8 ∧ off % 8 = 0 then regAt off else none

/-- While BUSY = 1 only a read of STATUS is accepted (10_state.md R38, 20_memory.md R66 item 4). -/
def readAllowed (s : State) (r : BusReg) : Bool := !s.status.busy || decide (r = .status)

/-- A write is accepted while BUSY = 0, but never one to RESULT or AUX (20_memory.md R66 items 3
and 4). -/
def writeAllowed (s : State) (r : BusReg) : Bool :=
  !s.status.busy && decide (r ≠ .result) && decide (r ≠ .aux)

/-- The 64 bits a register reads as (20_memory.md R61, R63; 10_state.md R36, R37, R41). -/
def readReg (s : State) : BusReg → Word
  | .cmd => s.cmd
  | .data => s.data
  | .result => s.result
  | .aux => s.aux
  | .status => s.status.toWord
  | .strlen => s.strlenWord
  | .d i => s.readD i
  | .str k => s.str.readWord k.val

/-- The effect of an accepted write (20_memory.md R67): a CMD write issues a command, a STATUS write may
clear SERR, the others store. RESULT and AUX are never written (R66). -/
def writeReg (s : State) (v : Word) : BusReg → State
  | .cmd => s.issue v
  | .data => s.writeData v
  | .result => s
  | .aux => s
  | .status => s.writeStatus v
  | .strlen => s.writeStrlen v
  | .d i => s.writeD i v
  | .str k => s.writeStr (s.str.writeWord k.val v)

/-- A host read at an offset of the window: the register's value, or a bus error with data 0 and no
change of state (20_memory.md R66, R67). -/
def busRead (s : State) (off size : Nat) : State :=
  match selectReg off size with
  | some r =>
    if readAllowed s r then s.respond (.readData (readReg s r)) else s.respond (.readError 0)
  | none => s.respond (.readError 0)

/-- A host write at an offset of the window, or a bus error with no change of state
(20_memory.md R66, R67). -/
def busWrite (s : State) (off size : Nat) (v : Word) : State :=
  match selectReg off size with
  | some r =>
    if writeAllowed s r then (writeReg s v r).respond .writeAccepted else s.respond .writeError
  | none => s.respond .writeError

/-- What the next step does: run a command, or end with an outcome that runs none. -/
inductive Move where
  | command (i : Instr) (s : State)
  | outcome (o : Host.Outcome State Fault Refusal)

/-- The unit's turn (70_reset_and_hazards.md R365): it decodes `inflight`; a legal command is run, an
illegal one completes with E_ILLEGAL (30_encoding.md R98), and an idle unit does nothing. -/
def unitMove (s : State) : Move :=
  match s.inflight with
  | none => .outcome (.next s)
  | some v =>
    match decodeCmd v with
    | .ok i => .command i s
    | .error _ => .outcome (.next (s.fail .illegal))

/-- One event of the agenda (70_reset_and_hazards.md R366). -/
def eventMove (s : State) : Event → Move
  | .read addr size =>
    match windowOffset addr with
    | some off => .outcome (.next (busRead s off size))
    | none => .outcome (.fault (.outsideWindow addr))
  | .write addr size v =>
    match windowOffset addr with
    | some off => .outcome (.next (busWrite s off size v))
    | none => .outcome (.fault (.outsideWindow addr))
  | .reset => .outcome (.next s.afterReset)
  | .unitTurn => unitMove s

/-- What the next step does: the first event of the agenda, taken off it; with nothing on the agenda, the
unit's turn, so that a busy unit completes (weak fairness, 70_reset_and_hazards.md R366). -/
def nextMove (s : State) : Move :=
  match s.agenda with
  | [] => unitMove s
  | e :: rest => eventMove (s.withAgenda rest) e

/-- The state right after the host issued the command value `v`, with the unit's turn next
(70_reset_and_hazards.md R364, R365; log entry 6). -/
def State.afterIssue (s : State) (v : Word) : State :=
  (s.issue v).withAgenda (.unitTurn :: s.agenda)

end Sys2Proof.Machine
end

