-- ==== Sys2Proof/Machine/Compare.lean ====
section
/-! DEFINITION. 44_compare.md: equality and ordering, the commands CMPEQ and CMP. -/

namespace Sys2Proof.Machine

open Sys2Proof

/-- The aligned part of eqCore (44_compare.md R262) for two nonzero operands with `a.exp ≥ b.exp`. -/
def eqAligned (a b : Decimal) : Bool :=
  let gap := (a.exp - b.exp).toNat
  if gap > 17 then false
  else
    let shifted := shiftUpToDigitsCapped a.sig gap
    decide (shifted.2 = gap) && decide (shifted.1 = b.sig)

/-- `eqCore(wa, sa, ea, wb, sb, eb)` (44_compare.md R262). -/
def eqCore (wa : Word) (a : Decimal) (wb : Word) (b : Decimal) : Bool :=
  if wa = wb then true
  else if a.sig = 0 ∨ b.sig = 0 then decide (a.sig = 0) && decide (b.sig = 0)
  else if a.exp < b.exp then eqAligned b a
  else eqAligned a b

/-- The key that ordering compares: sign, normalised exponent, 16-digit significand. -/
structure CmpKey where
  sign : Int
  exp : Int
  sig : Int
  deriving DecidableEq, Repr

/-- `cmpKey(s, e)` (44_compare.md R265); the exponent is not bounded below. -/
def cmpKey (a : Decimal) : CmpKey :=
  if a.sig = 0 then ⟨0, 0, 0⟩
  else
    let k := 16 - ndigits a.sig.natAbs
    ⟨a.sig.sign, a.exp - k, a.sig * 10 ^ k⟩

/-- `ordCore(sa, ea, sb, eb)`: −1, 0 or 1 (44_compare.md R266). -/
def ordCore (a b : Decimal) : Int :=
  let ka := cmpKey a
  let kb := cmpKey b
  if ka.sign ≠ kb.sign then (ka.sign - kb.sign).sign
  else if ka.sign = 0 then 0
  else if ka.exp ≠ kb.exp then
    if ka.sign > 0 then (ka.exp - kb.exp).sign else -(ka.exp - kb.exp).sign
  else (ka.sig - kb.sig).sign

/-- `CMPEQ Dra, Drb` (44_compare.md R261): both operands are decoded before the bit-identical test. -/
def execCmpeq (ra rb : Fin 8) (s : State) : Host.Outcome State Fault Refusal :=
  s.complete do
    let a ← s.decimal ra
    let b ← s.decimal rb
    return s.writeResult (if eqCore (s.readD ra) a (s.readD rb) b then 1 else 0)

/-- `CMP Dra, Drb` (44_compare.md R264). -/
def execCmp (ra rb : Fin 8) (s : State) : Host.Outcome State Fault Refusal :=
  s.complete do
    let a ← s.decimal ra
    let b ← s.decimal rb
    return s.writeResult (word64 (ordCore a b))

end Sys2Proof.Machine
end

