-- ==== Sys2Proof/Machine/DigitShift.lean ====
section
/-! DEFINITION. The commands of 40_digit_shift.md: POW10, SCALE, SHUP16, SHUP17, SHUP18, SHUPC. -/

namespace Sys2Proof.Machine

open Sys2Proof

/-- The result of a shift command: the shifted value to RESULT, the count of digits to AUX
(10_state.md R34, R35). -/
def State.writeShift (s : State) (r : Int × Nat) : State :=
  (s.writeResult (word64 r.1)).writeAux (word64 r.2)

/-- `POW10 #n` (40_digit_shift.md R121). -/
def execPow10 (n : Int) (s : State) : Host.Outcome State Fault Refusal :=
  s.complete <|
    match powerOfTen n with
    | some p => .ok (s.writeResult (word64 p))
    | none => .error .range

/-- `SCALE #sh` (40_digit_shift.md R122). -/
def execScale (sh : Int) (s : State) : Host.Outcome State Fault Refusal :=
  s.complete <|
    if scaleByDigits s.integer sh < -2 ^ 63 ∨ scaleByDigits s.integer sh > 2 ^ 63 - 1 then
      .error .range
    else .ok (s.writeResult (word64 (scaleByDigits s.integer sh)))

/-- The rule of SHUP16, SHUP17 and SHUP18 for their target `t` (40_digit_shift.md R123 to R125): E_RANGE
for 0, for more than 18 digits and for more than `t` digits. For t = 18 the last test adds nothing. -/
def shiftUpEffect (t : Nat) (s : State) : Except ErrorCode State :=
  if s.integer = 0 ∨ s.integer.natAbs ≥ 10 ^ 18 ∨ ndigits s.integer.natAbs > t then .error .range
  else .ok (s.writeShift (shiftUpToDigits s.integer t))

/-- `SHUP16` (40_digit_shift.md R123). -/
def execShup16 (s : State) : Host.Outcome State Fault Refusal := s.complete (shiftUpEffect 16 s)

/-- `SHUP17` (40_digit_shift.md R124). -/
def execShup17 (s : State) : Host.Outcome State Fault Refusal := s.complete (shiftUpEffect 17 s)

/-- `SHUP18` (40_digit_shift.md R125). -/
def execShup18 (s : State) : Host.Outcome State Fault Refusal := s.complete (shiftUpEffect 18 s)

/-- `SHUPC #limit` (40_digit_shift.md R126). -/
def execShupc (limit : Int) (s : State) : Host.Outcome State Fault Refusal :=
  s.complete <|
    if limit < 0 then .error .range
    else if s.integer ≠ 0 ∧ (s.integer.natAbs ≥ 10 ^ 18 ∨ ndigits s.integer.natAbs > 17) then
      .error .range
    else .ok (s.writeShift (shiftUpToDigitsCapped s.integer limit.toNat))

end Sys2Proof.Machine
end

