-- ==== Sys2Proof/Machine/Arith.lean ====
section
/-! DEFINITION. 42_arith.md: renormalisation, the cores of addition, multiplication and division, and the
commands ADD, SUB, MUL, DIV, NEG, SHL, SHR. -/

namespace Sys2Proof.Machine

open Sys2Proof

/-- renorm step 2, precision (42_arith.md R180): round a magnitude to 16 digits, half away from zero; the
pair of the new magnitude and exponent. -/
def roundToSixteen (m : Nat) (e : Int) : Nat × Int :=
  if ndigits m > 16 then
    let p := ndigits m - 16
    let q := if 2 * (m % 10 ^ p) ≥ 10 ^ p then m / 10 ^ p + 1 else m / 10 ^ p
    if q = 10 ^ 16 then (10 ^ 15, e + 1 + p) else (q, e + p)
  else (m, e)

/-- renorm step 3, overflow (42_arith.md R180): denormalise to 16 digits when the exponent is above
EMAX_ARITH; E_OVERFLOW when that does not help. -/
def denormalise (m : Nat) (e : Int) : Except ErrorCode (Nat × Int) :=
  if e > Config.emaxArith then
    let shifted := shiftUpToDigits m 16
    if e - shifted.2 > Config.emaxArith then .error .overflow
    else .ok (shifted.1.natAbs, e - shifted.2)
  else .ok (m, e)

/-- renorm step 4, underflow (42_arith.md R180): shift digits out, truncating, when the exponent is below
EMIN. -/
def shiftOut (m : Nat) (e : Int) : Nat × Int :=
  if e < -256 then ((scaleByDigits m (e + 256)).natAbs, -256) else (m, e)

/-- `renorm(s, e)` (42_arith.md R180). -/
def renorm (s e : Int) : Except ErrorCode Word :=
  if s = 0 then .ok 0
  else do
    let rounded := roundToSixteen s.natAbs e
    let fitted ← denormalise rounded.1 rounded.2
    let final := shiftOut fitted.1 fitted.2
    if final.1 = 0 then .ok 0 else encodeDecimal (s.sign * final.1) final.2

/-- The aligned part of addCore (42_arith.md R184) for two nonzero operands with `hi.exp > lo.exp`. -/
def addAligned (hi lo : Decimal) : Except ErrorCode Word :=
  let gap := (hi.exp - lo.exp).toNat
  if gap > 32 then encodeDecimal hi.sig hi.exp
  else
    let shifted := shiftUpToDigitsCapped hi.sig gap
    let r := gap - shifted.2
    if r > 16 then encodeDecimal hi.sig hi.exp
    else renorm (shifted.1 + Int.tdiv lo.sig (10 ^ r)) (hi.exp - shifted.2)

/-- `addCore(sa, ea, sb, eb)` (42_arith.md R184). -/
def addCore (a b : Decimal) : Except ErrorCode Word :=
  if a.sig = 0 then encodeDecimal b.sig b.exp
  else if b.sig = 0 then encodeDecimal a.sig a.exp
  else if a.exp = b.exp then renorm (a.sig + b.sig) a.exp
  else if a.exp > b.exp then addAligned a b
  else addAligned b a

/-- The operand with its significand negated, as SUB and DECOMP pass it (42_arith.md R187). -/
def Decimal.negated (a : Decimal) : Decimal := ⟨-a.sig, a.exp⟩

/-- `mulCore(sa, ea, sb, eb)` (42_arith.md R189). -/
def mulCore (a b : Decimal) : Except ErrorCode Word :=
  if a.sig = 0 ∨ b.sig = 0 then .ok 0 else renorm (a.sig * b.sig) (a.exp + b.exp)

/-- The smallest `t` from a start on with `A · 10^t ≥ 10^15 · B`, searched on at most `fuel` steps. -/
def divShiftFrom : Nat → Nat → Nat → Nat → Nat
  | 0, t, _, _ => t
  | fuel + 1, t, a, b =>
    if a * 10 ^ t ≥ 10 ^ 15 * b then t else divShiftFrom fuel (t + 1) a b

/-- divCore's `t`, the smallest `t ≥ 0` with `A · 10^t ≥ 10^15 · B` (42_arith.md R192, which says
`t ≤ 31`). -/
def divShift (a b : Nat) : Nat := divShiftFrom 31 0 a b

/-- The 16-digit quotient of two positive magnitudes, rounded half away from zero (42_arith.md R192). -/
def divQuotient (a b : Nat) : Nat :=
  let t := divShift a b
  if 2 * (a * 10 ^ t % b) ≥ b then a * 10 ^ t / b + 1 else a * 10 ^ t / b

/-- `divCore(sa, ea, sb, eb)` (42_arith.md R192). -/
def divCore (a b : Decimal) : Except ErrorCode Word :=
  if b.sig = 0 then .error .divZero
  else if a.sig = 0 then .ok 0
  else
    let t := divShift a.sig.natAbs b.sig.natAbs
    let q := divQuotient a.sig.natAbs b.sig.natAbs
    let sign := a.sig.sign * b.sig.sign
    if q = 10 ^ 16 then renorm (sign * 10 ^ 15) (a.exp - b.exp - t + 1)
    else renorm (sign * q) (a.exp - b.exp - t)

/-- `absCore(s, e)` (42_arith.md R197). -/
def absCore (a : Decimal) : Except ErrorCode Word := encodeDecimal a.sig.natAbs a.exp

/-- The core of SHL by N and, with −N, of SHR (42_arith.md R198, R199). -/
def shiftCore (a : Decimal) (n : Int) : Except ErrorCode Word :=
  if a.sig = 0 then .ok 0 else renorm a.sig (a.exp + n)

/-- `ADD Drd, Dra, Drb` (42_arith.md R186). -/
def execAdd (rd ra rb : Fin 8) (s : State) : Host.Outcome State Fault Refusal :=
  s.complete do
    let a ← s.decimal ra
    let b ← s.decimal rb
    let w ← addCore a b
    return s.writeD rd w

/-- `SUB Drd, Dra, Drb` (42_arith.md R187). -/
def execSub (rd ra rb : Fin 8) (s : State) : Host.Outcome State Fault Refusal :=
  s.complete do
    let a ← s.decimal ra
    let b ← s.decimal rb
    let w ← addCore a b.negated
    return s.writeD rd w

/-- `MUL Drd, Dra, Drb` (42_arith.md R190). -/
def execMul (rd ra rb : Fin 8) (s : State) : Host.Outcome State Fault Refusal :=
  s.complete do
    let a ← s.decimal ra
    let b ← s.decimal rb
    let w ← mulCore a b
    return s.writeD rd w

/-- `DIV Drd, Dra, Drb` (42_arith.md R193). -/
def execDiv (rd ra rb : Fin 8) (s : State) : Host.Outcome State Fault Refusal :=
  s.complete do
    let a ← s.decimal ra
    let b ← s.decimal rb
    let w ← divCore a b
    return s.writeD rd w

/-- `NEG Drd, Dra` (42_arith.md R196): the operand is validated, then its word is negated. -/
def execNeg (rd ra : Fin 8) (s : State) : Host.Outcome State Fault Refusal :=
  s.complete do
    let _ ← s.decimal ra
    return s.writeD rd (word64 (-sint (s.readD ra)))

/-- `SHL Drd, Dra, #N` (42_arith.md R198). -/
def execShl (rd ra : Fin 8) (n : Int) (s : State) : Host.Outcome State Fault Refusal :=
  s.complete do
    let a ← s.decimal ra
    let w ← shiftCore a n
    return s.writeD rd w

/-- `SHR Drd, Dra, #N` (42_arith.md R199). -/
def execShr (rd ra : Fin 8) (n : Int) (s : State) : Host.Outcome State Fault Refusal :=
  s.complete do
    let a ← s.decimal ra
    let w ← shiftCore a (-n)
    return s.writeD rd w

end Sys2Proof.Machine
end

