-- ==== Sys2Proof/Machine/Rounding.lean ====
section
/-! DEFINITION. 43_round.md: rounding to a scale and decomposition, the commands RND and DECOMP. -/

namespace Sys2Proof.Machine

open Sys2Proof

/-- `increment(rule, s, q, r, half)` (43_round.md R231). -/
def increment (rule : RoundingRule) (s : Int) (q r half : Nat) : Bool :=
  match rule with
  | .towardZero => false
  | .awayFromZero => decide (r ≠ 0)
  | .nearestAway => decide (r ≥ half)
  | .nearestEven => decide (r > half) || (decide (r = half) && decide (q % 2 = 1))
  | .down => decide (s < 0) && decide (r ≠ 0)
  | .up => decide (s ≥ 0) && decide (r ≠ 0)

/-- The kept magnitude after dropping `shift` digits by a rule (43_round.md R230, R231). -/
def roundMagnitude (rule : RoundingRule) (s : Int) (shift : Nat) : Nat :=
  let q := s.natAbs / 10 ^ shift
  let r := s.natAbs % 10 ^ shift
  if increment rule s q r (10 ^ shift / 2) then q + 1 else q

/-- `roundCore(s, e, rule, scale)` for `scale ≥ 0` (43_round.md R230). -/
def roundCore (a : Decimal) (rule : RoundingRule) (scale : Int) : Except ErrorCode Word :=
  let shift := -(a.exp + scale)
  if shift ≤ 0 then encodeDecimal a.sig a.exp
  else
    let q := roundMagnitude rule a.sig shift.toNat
    if q = 0 then .ok 0 else encodeDecimal (a.sig.sign * q) (-scale)

/-- A word that an earlier part of the same command computed, decoded again (43_round.md R236). -/
def decodeResult (w : Word) : Except ErrorCode Decimal :=
  match decodeDecimal w with
  | some a => .ok a
  | none => .error .operand

/-- The two words DECOMP writes, integral then fractional (43_round.md R236). -/
def decompCore (x : Decimal) : Except ErrorCode (Word × Word) := do
  let iw ← roundCore x .towardZero 0
  let i ← decodeResult iw
  let dw ← addCore x i.negated
  let diff ← decodeResult dw
  let fw ← absCore diff
  return (iw, fw)

/-- `RND Drd, Dra, rule, #scale` (43_round.md R232, R233). -/
def execRnd (rd ra : Fin 8) (rule : RoundingRule) (scale : Int) (s : State) :
    Host.Outcome State Fault Refusal :=
  s.complete do
    let a ← s.decimal ra
    if scale < 0 then .error .unimpl
    else
      let w ← roundCore a rule scale
      return s.writeD rd w

/-- `DECOMP Dint, Dfrac, Dsrc`: D[RD] the integral part, D[RB] the fraction (43_round.md R236). The
decoder refuses RD = RB; the meaning keeps the rule's own test. -/
def execDecomp (rd ra rb : Fin 8) (s : State) : Host.Outcome State Fault Refusal :=
  s.complete <|
    if rd = rb then .error .illegal
    else do
      let x ← s.decimal ra
      let parts ← decompCore x
      return (s.writeD rd parts.1).writeD rb parts.2

end Sys2Proof.Machine
end

