-- ==== Sys2Proof/Machine/Strings.lean ====
section
/-! DEFINITION. 45_string.md: the parser and the formatter, the commands PARSE and FMT. -/

namespace Sys2Proof.Machine

open Sys2Proof

/-- A decimal digit, 0x30 .. 0x39 (45_string.md R280). -/
def isDigit (b : Byte) : Bool := decide (0x30 ≤ b.toNat ∧ b.toNat ≤ 0x39)

/-- The value of a digit character, `byte − 0x30` (45_string.md R280). -/
def digitValue (b : Byte) : Nat := b.toNat - 0x30

/-- The six whitespace bytes (45_string.md R280). -/
def isWhitespace (b : Byte) : Bool :=
  b == 0x20 || b == 0x09 || b == 0x0A || b == 0x0B || b == 0x0C || b == 0x0D

/-- `+` or `-` (45_string.md R280). -/
def isSign (b : Byte) : Bool := b == 0x2B || b == 0x2D

/-- `E` or `e` (45_string.md R280). -/
def isExponentMark (b : Byte) : Bool := b == 0x45 || b == 0x65

/-- What is left after leading whitespace (45_string.md R283). -/
def skipWhitespace : List Byte → List Byte
  | [] => []
  | b :: bs => if isWhitespace b then skipWhitespace bs else b :: bs

/-- An optional sign: whether it is `-`, and what is left (45_string.md R283). -/
def takeSign : List Byte → Bool × List Byte
  | [] => (false, [])
  | b :: bs => if isSign b then (b == 0x2D, bs) else (false, b :: bs)

/-- The scanner's registers: `sig`, `cnt` significant digits taken, `exp`, and `ndig` mantissa digits seen
(45_string.md R283). -/
structure Scan where
  sig : Nat
  cnt : Nat
  exp : Int
  ndig : Nat
  deriving DecidableEq, Repr

/-- One digit of the integer part (45_string.md R283). -/
def Scan.integerDigit (a : Scan) (v : Nat) : Scan :=
  if a.sig = 0 ∧ v = 0 then { a with ndig := a.ndig + 1 }
  else if a.cnt < 18 then { a with sig := a.sig * 10 + v, cnt := a.cnt + 1, ndig := a.ndig + 1 }
  else { a with exp := a.exp + 1, ndig := a.ndig + 1 }

/-- One digit of the fraction (45_string.md R283). -/
def Scan.fractionDigit (a : Scan) (v : Nat) : Scan :=
  if a.sig = 0 ∧ v = 0 then { a with exp := a.exp - 1, ndig := a.ndig + 1 }
  else if a.cnt < 18 then
    { sig := a.sig * 10 + v, cnt := a.cnt + 1, exp := a.exp - 1, ndig := a.ndig + 1 }
  else { a with ndig := a.ndig + 1 }

/-- The integer part of the mantissa. -/
def scanInteger : List Byte → Scan → Scan × List Byte
  | [], a => (a, [])
  | b :: bs, a =>
    if isDigit b then scanInteger bs (a.integerDigit (digitValue b)) else (a, b :: bs)

/-- The digits of the fraction. -/
def scanFraction : List Byte → Scan → Scan × List Byte
  | [], a => (a, [])
  | b :: bs, a =>
    if isDigit b then scanFraction bs (a.fractionDigit (digitValue b)) else (a, b :: bs)

/-- The mantissa `digit* ('.' digit*)?` (45_string.md R281, R283). -/
def scanMantissa (bs : List Byte) : Scan × List Byte :=
  let int := scanInteger bs ⟨0, 0, 0, 0⟩
  match int.2 with
  | b :: rest => if b = 0x2E then scanFraction rest int.1 else int
  | [] => int

/-- The digits of an exponent, from value `ev` with `ed` digits seen: a fourth digit is E_PARSE, and so is
none at all (45_string.md R283). -/
def scanExponentDigits : List Byte → Nat → Nat → Except ErrorCode (Nat × List Byte)
  | [], ev, ed => if ed = 0 then .error .parse else .ok (ev, [])
  | b :: bs, ev, ed =>
    if isDigit b then
      if ed = 3 then .error .parse else scanExponentDigits bs (ev * 10 + digitValue b) (ed + 1)
    else if ed = 0 then .error .parse
    else .ok (ev, b :: bs)

/-- The optional exponent: its value, 0 when absent, and what is left (45_string.md R283). -/
def scanExponent : List Byte → Except ErrorCode (Int × List Byte)
  | [] => .ok (0, [])
  | b :: bs =>
    if isExponentMark b then do
      let r ← scanExponentDigits (takeSign bs).2 0 0
      return (if (takeSign bs).1 then -(r.1 : Int) else r.1, r.2)
    else .ok (0, b :: bs)

/-- `parseCore(b, n)` up to the final renorm: the signed significand and the exponent
(45_string.md R283). -/
def parseLiteral (bs : List Byte) : Except ErrorCode Decimal := do
  let sign := takeSign (skipWhitespace bs)
  let mant := scanMantissa sign.2
  if mant.1.ndig = 0 then .error .parse
  else
    let e ← scanExponent mant.2
    if e.2 ≠ [] then .error .parse
    else return ⟨if sign.1 then -(mant.1.sig : Int) else mant.1.sig, mant.1.exp + e.1⟩

/-- `parseCore(b, n)` (45_string.md R283). -/
def parseCore (bs : List Byte) : Except ErrorCode Word := do
  let a ← parseLiteral bs
  renorm a.sig a.exp

/-- The character of a digit (45_string.md R280). -/
def digitChar (n : Nat) : Byte := BitVec.ofNat 8 (0x30 + n)

/-- The decimal digits of a number in front of a string, on at most `fuel` digits. -/
def digitsFrom : Nat → Nat → List Byte → List Byte
  | 0, _, acc => acc
  | fuel + 1, m, acc =>
    if m = 0 then acc else digitsFrom fuel (m / 10) (digitChar (m % 10) :: acc)

/-- `digits(m)`, for `m ≥ 1`: the shortest decimal string of `m` (45_string.md R290). -/
def digits (m : Nat) : List Byte := digitsFrom (m.log2 + 1) m []

/-- `"0" × z` (45_string.md R291). -/
def zeros (z : Nat) : List Byte := List.replicate z 0x30

/-- fmtCore's loop on the reversed string: while `e < 0`, drop a last `0` and raise `e`
(45_string.md R291). -/
def stripFraction : List Byte → Int → List Byte × Int
  | [], e => ([], e)
  | b :: bs, e => if e < 0 ∧ b = 0x30 then stripFraction bs (e + 1) else (b :: bs, e)

/-- sci's loop on the reversed string: drop a last `0` and raise `e` (45_string.md R292). -/
def stripZeros : List Byte → Int → List Byte × Int
  | [], e => ([], e)
  | b :: bs, e => if b = 0x30 then stripZeros bs (e + 1) else (b :: bs, e)

/-- `sci(ds, e)` (45_string.md R292). -/
def sci (ds : List Byte) (e : Int) : List Byte :=
  let stripped := stripZeros ds.reverse e
  let ms := stripped.1.reverse
  let adj := stripped.2 + ms.length - 1
  ms.take 1 ++ (if ms.length > 1 then 0x2E :: ms.drop 1 else []) ++
    [0x45, if adj ≥ 0 then 0x2B else 0x2D] ++ digits adj.natAbs

/-- The body of fmtCore, without the sign: `ds` the stripped digits, `e` the exponent
(45_string.md R291). -/
def fmtBody (ds : List Byte) (e : Int) : List Byte :=
  let n : Int := ds.length
  if e < 0 then
    if -e - n ≤ 6 then
      if n + e > 0 then ds.take (n + e).toNat ++ 0x2E :: ds.drop (n + e).toNat
      else [0x30, 0x2E] ++ zeros (-e - n).toNat ++ ds
    else sci ds e
  else if n + e > 16 then sci ds e
  else ds ++ zeros e.toNat

/-- `fmtCore(s, e)` (45_string.md R291). -/
def fmtCore (a : Decimal) : List Byte :=
  if a.sig = 0 then [0x30]
  else
    let stripped := stripFraction (digits a.sig.natAbs).reverse a.exp
    (if a.sig < 0 then [0x2D] else []) ++ fmtBody stripped.1.reverse stripped.2

/-- FMT's effect: STR gets the bytes and zeros after them, STRLEN.LEN the length (45_string.md R295). -/
def State.writeString (s : State) (bs : List Byte) : State :=
  (s.writeStr (s.str.fill bs)).writeStrlen (BitVec.ofNat 64 bs.length)

/-- `PARSE Drd` (45_string.md R285). -/
def execParse (rd : Fin 8) (s : State) : Host.Outcome State Fault Refusal :=
  s.complete do
    let bs ← s.inputBytes
    let w ← parseCore bs
    return s.writeD rd w

/-- `FMT Dra` (45_string.md R295). -/
def execFmt (ra : Fin 8) (s : State) : Host.Outcome State Fault Refusal :=
  s.complete do
    let a ← s.decimal ra
    return s.writeString (fmtCore a)

end Sys2Proof.Machine
end

