-- ==== Sys2Proof/Machine/WordCodec.lean ====
section
/-! DEFINITION. The commands of 41_word_codec.md: ENC, SIG, EXP, SGN, NORM. -/

namespace Sys2Proof.Machine

open Sys2Proof

/-- `ENC Drd, #e` (41_word_codec.md R158): the pair is never renormalised. -/
def execEnc (rd : Fin 8) (e : Int) (s : State) : Host.Outcome State Fault Refusal :=
  s.complete do
    let w ← encodeDecimal s.integer e
    return s.writeD rd w

/-- `SIG Dra` (41_word_codec.md R160). -/
def execSig (ra : Fin 8) (s : State) : Host.Outcome State Fault Refusal :=
  s.complete do
    let a ← s.decimal ra
    return s.writeResult (word64 a.sig)

/-- `EXP Dra` (41_word_codec.md R161). -/
def execExp (ra : Fin 8) (s : State) : Host.Outcome State Fault Refusal :=
  s.complete do
    let a ← s.decimal ra
    return s.writeResult (word64 a.exp)

/-- `SGN Dra` (41_word_codec.md R162): bit 63 of the raw word, with no decoding. -/
def execSgn (ra : Fin 8) (s : State) : Host.Outcome State Fault Refusal :=
  s.complete (.ok (s.writeResult (if signBit (s.readD ra) then 1 else 0)))

/-- NORM's shift count for a nonzero pair: as many digits as possible, not below EMIN
(41_word_codec.md R163). -/
def normShift (a : Decimal) : Nat :=
  (min ((16 : Int) - ndigits a.sig.natAbs) (a.exp + 256)).toNat

/-- The word NORM writes (41_word_codec.md R163). -/
def normCore (a : Decimal) : Except ErrorCode Word :=
  if a.sig = 0 then .ok 0
  else encodeDecimal (a.sig * 10 ^ normShift a) (a.exp - normShift a)

/-- `NORM Drd, Dra` (41_word_codec.md R163). -/
def execNorm (rd ra : Fin 8) (s : State) : Host.Outcome State Fault Refusal :=
  s.complete do
    let a ← s.decimal ra
    let w ← normCore a
    return s.writeD rd w

end Sys2Proof.Machine
end

