-- ==== Sys2Proof/Machine/Dispatch.lean ====
section
/-! DEFINITION. The meaning of every command: one arm per constructor of Instr. -/

namespace Sys2Proof.Machine

open Sys2Proof

-- The command's rule run on the state and its completion, one atomic step (70_reset_and_hazards.md R365).
def exec (i : Instr) (s : State) : Host.Outcome State Fault Refusal :=
  match i with
  | .pow10 n => Sys2Proof.Machine.execPow10 n s
  | .scale sh => Sys2Proof.Machine.execScale sh s
  | .shup16 => Sys2Proof.Machine.execShup16 s
  | .shup17 => Sys2Proof.Machine.execShup17 s
  | .shup18 => Sys2Proof.Machine.execShup18 s
  | .shupc limit => Sys2Proof.Machine.execShupc limit s
  | .enc rd e => Sys2Proof.Machine.execEnc rd e s
  | .sig ra => Sys2Proof.Machine.execSig ra s
  | .exp ra => Sys2Proof.Machine.execExp ra s
  | .sgn ra => Sys2Proof.Machine.execSgn ra s
  | .norm rd ra => Sys2Proof.Machine.execNorm rd ra s
  | .add rd ra rb => Sys2Proof.Machine.execAdd rd ra rb s
  | .sub rd ra rb => Sys2Proof.Machine.execSub rd ra rb s
  | .mul rd ra rb => Sys2Proof.Machine.execMul rd ra rb s
  | .div rd ra rb => Sys2Proof.Machine.execDiv rd ra rb s
  | .neg rd ra => Sys2Proof.Machine.execNeg rd ra s
  | .shl rd ra n => Sys2Proof.Machine.execShl rd ra n s
  | .shr rd ra n => Sys2Proof.Machine.execShr rd ra n s
  | .rnd rd ra rule scale => Sys2Proof.Machine.execRnd rd ra rule scale s
  | .decomp rd ra rb => Sys2Proof.Machine.execDecomp rd ra rb s
  | .cmpeq ra rb => Sys2Proof.Machine.execCmpeq ra rb s
  | .cmp ra rb => Sys2Proof.Machine.execCmp ra rb s
  | .parse rd => Sys2Proof.Machine.execParse rd s
  | .fmt ra => Sys2Proof.Machine.execFmt ra s

end Sys2Proof.Machine
end

