-- ==== Sys2Proof/Machine/Step.lean ====
section
/-! DEFINITION. One step of the block and its environment, and the state from which the next step runs a
given command. -/

namespace Sys2Proof.Machine

open Sys2Proof

/-- Carry out a move: run its command, or end with its outcome. -/
def runMove : Move → Host.Outcome State Fault Refusal
  | .command i s => exec i s
  | .outcome o => o

/-- One step: one event of the agenda, or the unit's turn (70_reset_and_hazards.md R366). -/
def step (s : State) : Host.Outcome State Fault Refusal := runMove (nextMove s)

/-- `s` with the command word `w` just issued and the unit's turn next, so that the next step runs exactly
that command (log entry 6). -/
def State.withFetchWord (s : State) (nbits w : Nat) : State := s.afterIssue (cmdValue nbits w)

end Sys2Proof.Machine
end

