-- ==== Sys2Proof/Machine/DigitRom.lean ====
section
/-! DEFINITION. The digit ROM DIGIT4 (10_state.md R43, 70_reset_and_hazards.md R361) and the digit emission
from it that 45_string.md R290 describes. The ROM is fixed content that no command writes and reset does
not touch, so it is a constant and no field of State (log entry 8). -/

namespace Sys2Proof.Machine

open Sys2Proof

/-- `DIGIT4[i]`: the four ASCII characters of `i` with leading zeros, most significant first
(10_state.md R43). -/
def digit4 (i : Fin 10000) : List Byte :=
  [digitChar (i.val / 1000), digitChar (i.val / 100 % 10), digitChar (i.val / 10 % 10),
    digitChar (i.val % 10)]

/-- The digits of `m` four at a time from the ROM, with leading zeros, in `chunks` chunks
(45_string.md R290). -/
def romDigits : Nat → Nat → List Byte
  | 0, _ => []
  | chunks + 1, m => romDigits chunks (m / 10000) ++ digit4 (Fin.ofNat 10000 m)

/-- A digit string without its leading zeros. -/
def dropLeadingZeros : List Byte → List Byte
  | [] => []
  | b :: bs => if b = 0x30 then dropLeadingZeros bs else b :: bs

end Sys2Proof.Machine
end

