-- ==== Sys2Proof/Machine/HostProgram.lean ====
section
/-! DEFINITION. The notation of host programs (30_encoding.md R101 to R103): what the host puts on the
agenda, how it reads the answers, and the assembler text of a command. -/

namespace Sys2Proof.Machine

open Sys2Proof

/-- `WR <reg>, <value>`: `MemWrite(BASE + offset(reg), 8, value)` (30_encoding.md R102). -/
def hostWr (r : BusReg) (v : Word) : Event := .write (Config.base + r.offset) 8 v

/-- `RD <reg>`: `MemRead(BASE + offset(reg), 8)` (30_encoding.md R102). -/
def hostRd (r : BusReg) : Event := .read (Config.base + r.offset) 8

/-- `POLL` (30_encoding.md R103) when the command completes after `n` reads that return BUSY = 1: those
reads, the completion, and the read that returns BUSY = 0 and ends the loop (log entry 16). -/
def hostPoll (n : Nat) : List Event :=
  List.replicate n (hostRd .status) ++ [.unitTurn, hostRd .status]

/-- `ISSUE <command>`: `WR CMD, <encoding>` then POLL (30_encoding.md R103). -/
def hostIssue (i : Instr) (n : Nat) : List Event := hostWr .cmd (encode i) :: hostPoll n

/-- The bytes 8k .. 8k+7 of a text, zero-padded, as a little-endian word (30_encoding.md R103). -/
def textWord (text : List Byte) (k : Nat) : Word :=
  bytesWord ((List.range 8).map fun j => text.getD (8 * k + j) 0)

/-- `WRSTR "<text>"`: the eight STR words, then STRLEN (30_encoding.md R103). -/
def hostWrstr (text : List Byte) : List Event :=
  ((List.finRange 8).map fun k => hostWr (.str k) (textWord text k.val)) ++
    [hostWr .strlen (BitVec.ofNat 64 text.length)]

/-- `RDSTR`: STRLEN, then the eight STR words (30_encoding.md R103). -/
def hostRdstr : List Event := hostRd .strlen :: (List.finRange 8).map fun k => hostRd (.str k)

/-- What the host gets back when the step from `s` to `t` performed a read: the data, 0 on a bus error
(20_memory.md R66). Any other step gives it none. -/
def readAnswer (s t : State) : List Word :=
  match s.agenda, t.response with
  | .read _ _ :: _, .readData v => [v]
  | .read _ _ :: _, .readError v => [v]
  | _, _ => []

/-- The answers to the reads among the next `n` steps, oldest first. -/
def hostReads : Nat → State → List Word
  | 0, _ => []
  | n + 1, s =>
    match step s with
    | .next t => readAnswer s t ++ hostReads n t
    | .fault _ => []
    | .refused _ => []

/-- The string of RDSTR, from the answers to its nine reads: the first LEN bytes of the eight words
(30_encoding.md R103). DESIGN CHOICE, unsafe (log entry 18): with a held LEN of 65 to 127 (10_state.md R41) it
is the 64 bytes that there are. Without answers it is empty. -/
def rdstrText : List Word → List Byte
  | [] => []
  | len :: words => (words.flatMap wordBytes).take len.toNat

/-- `CHKERR`: read STATUS; the command failed iff bit 1 is 1 (30_encoding.md R103). -/
def hostChkerr : Event := hostRd .status

/-- Whether a STATUS value says that the command failed (30_encoding.md R103). -/
def statusFailed (v : Word) : Bool := v.getLsbD 1

/-- The error code in bits [7:4] of a STATUS value (30_encoding.md R103). -/
def statusCode (v : Word) : BitVec 4 := v.extractLsb' 4 4

/-- The relations the host reads from RESULT after CMP (30_encoding.md R103). -/
inductive Relation where
  | lt
  | le
  | gt
  | ge
  | eq
  | ne
  deriving DecidableEq, Repr

/-- Whether a relation holds, from the RESULT of CMP (30_encoding.md R103). -/
def Relation.holds (rel : Relation) (result : Word) : Bool :=
  match rel with
  | .lt => result == word64 (-1)
  | .le => result != word64 1
  | .gt => result == word64 1
  | .ge => result != word64 (-1)
  | .eq => result == 0
  | .ne => result != 0

/-- The pseudo-instruction of a relation: `ISSUE CMP Da, Db`, then `RD RESULT`
(30_encoding.md R103). -/
def hostCompare (ra rb : DReg) (n : Nat) : List Event :=
  hostIssue (.cmp ra rb) n ++ [hostRd .result]

/-- The assembler name of a register (30_encoding.md R101). -/
def asmReg (r : DReg) : String := "D" ++ toString r.val

/-- The assembler form of an immediate (30_encoding.md R101). -/
def asmImm (n : Int) : String := "#" ++ toString n

/-- The assembler name of a rounding rule (30_encoding.md R94). -/
def asmRule : RoundingRule → String
  | .towardZero => "TZ"
  | .awayFromZero => "AZ"
  | .nearestAway => "NA"
  | .nearestEven => "NE"
  | .down => "DN"
  | .up => "UP"

/-- The operands of a command in assembler order (30_encoding.md R101). -/
def asmOperands : Instr → List String
  | .pow10 n => [asmImm n]
  | .scale sh => [asmImm sh]
  | .shup16 => []
  | .shup17 => []
  | .shup18 => []
  | .shupc limit => [asmImm limit]
  | .enc rd e => [asmReg rd, asmImm e]
  | .sig ra => [asmReg ra]
  | .exp ra => [asmReg ra]
  | .sgn ra => [asmReg ra]
  | .norm rd ra => [asmReg rd, asmReg ra]
  | .add rd ra rb => [asmReg rd, asmReg ra, asmReg rb]
  | .sub rd ra rb => [asmReg rd, asmReg ra, asmReg rb]
  | .mul rd ra rb => [asmReg rd, asmReg ra, asmReg rb]
  | .div rd ra rb => [asmReg rd, asmReg ra, asmReg rb]
  | .neg rd ra => [asmReg rd, asmReg ra]
  | .shl rd ra n => [asmReg rd, asmReg ra, asmImm n]
  | .shr rd ra n => [asmReg rd, asmReg ra, asmImm n]
  | .rnd rd ra rule scale => [asmReg rd, asmReg ra, asmRule rule, asmImm scale]
  | .decomp rd ra rb => [asmReg rd, asmReg rb, asmReg ra]
  | .cmpeq ra rb => [asmReg ra, asmReg rb]
  | .cmp ra rb => [asmReg ra, asmReg rb]
  | .parse rd => [asmReg rd]
  | .fmt ra => [asmReg ra]

/-- The assembler text of a command (30_encoding.md R101). -/
def assembly (i : Instr) : String :=
  match asmOperands i with
  | [] => i.mnemonic
  | ops => i.mnemonic ++ " " ++ String.intercalate ", " ops

end Sys2Proof.Machine
end

