-- ==== Sys2Proof/Safety.lean ====
section
/-! DEFINITION. What counts as a legal state and a safe run, and the words the statements use: the
invariant that every step keeps, the errors and destinations of each command, the grammar of PARSE. -/

namespace Sys2Proof.Machine

open Sys2Proof

/-- STATUS as the rules leave it: ECODE is 0 when ERR = 0 and one of 1 to 7 when ERR = 1
(10_state.md R37, 60_exceptions.md R331). -/
abbrev Status.Legal (st : Status) : Prop :=
  (st.err = false → st.ecode = 0) ∧ (st.err = true → 1 ≤ st.ecode.toNat ∧ st.ecode.toNat ≤ 7)

/-- The invariant of the block: `inflight` is none exactly when BUSY = 0 (10_state.md R44), a command in
flight is the one CMD holds (70_reset_and_hazards.md R364), STATUS is legal, and the string buffer is in
canonical form. -/
abbrev State.Inv (s : State) : Prop :=
  s.status.busy = s.inflight.isSome ∧ (s.inflight = none ∨ s.inflight = some s.cmd) ∧
    s.status.Legal ∧ s.str.wf = true

/-- Every D register holds a canonical word. A host may break it (10_state.md R32); no command does. -/
abbrev State.AllCanonical (s : State) : Prop := ∀ r : Fin 8, canonical (s.readD r) = true

/-- An event that the block sees: an access inside the window, a reset, or a turn of the unit. -/
def Event.inWindow : Event → Bool
  | .read addr _ => (windowOffset addr).isSome
  | .write addr _ _ => (windowOffset addr).isSome
  | .reset => true
  | .unitTurn => true

/-- The unit has its turn at the next step from `s`, and `u` is `s` with that turn taken off the agenda (log
entry 3). -/
def State.unitTurnNext (s u : State) : Prop :=
  (s.agenda = [] ∧ u = s) ∨ ∃ rest, s.agenda = .unitTurn :: rest ∧ u = s.withAgenda rest

/-- A safe agenda: no access outside the window, so that no step faults. -/
def State.agendaInWindow (s : State) : Bool := s.agenda.all Event.inWindow

/-- STATUS after a completion without error (10_state.md R39), written out. -/
def State.okStatus (s : State) : Status :=
  { busy := false, err := false, serr := s.status.serr, ecode := 0 }

/-- STATUS after a completion with error code `code` (10_state.md R39), written out. -/
def State.errStatus (code : BitVec 4) : Status :=
  { busy := false, err := true, serr := true, ecode := code }

/-- The state after a command that wrote nothing but its effects in `s'` and completed without error. -/
def State.completed (s' : State) : State := { s' with status := s'.okStatus, inflight := none }

/-- The state after a command that raised the error of code `code` (60_exceptions.md R333). -/
def State.errored (s : State) (code : BitVec 4) : State :=
  { s with status := State.errStatus code, inflight := none }

/-- The decimal a register holds, if its word is canonical. -/
abbrev State.holds (s : State) (r : Fin 8) (a : Decimal) : Prop := decodeDecimal (s.readD r) = some a

/-- The magnitude from which a value rounded to 16 digits is 10^(EMAX_ARITH + 16) or more
(42_arith.md R182 item 4), with EMAX_ARITH = 253: half a unit of the 16th digit below 10^269. -/
def overflowBound : ℚ := (10 ^ 16 - 1 / 2) * 10 ^ 253

/-- `10^x` is one unit in the 16th digit of `v`: `v` lies in the decade from `10^(x+15)` on. -/
def unitInLastDigit (v : ℚ) (x : Int) : Prop :=
  (10 : ℚ) ^ (x + 15) ≤ |v| ∧ |v| < (10 : ℚ) ^ (x + 16)

/-- `c` is `v` rounded to 16 significant digits, half away from zero (42_arith.md R182 item 3): 0 for 0, else
a multiple of the unit of the 16th digit, within half a unit, and the larger magnitude on a tie. -/
def roundsTo (v c : ℚ) : Prop :=
  (v = 0 → c = 0) ∧
  ∀ x : Int, unitInLastDigit v x →
    (∃ n : Int, c = n * 10 ^ x) ∧ |c - v| ≤ 10 ^ x / 2 ∧ (|c - v| = 10 ^ x / 2 → |v| < |c|)

/-- `c` is within one unit of the 16th digit of `v`, and 0 when `v` is 0. -/
def withinOneUnit (v c : ℚ) : Prop :=
  (v = 0 → c = 0) ∧ ∀ x : Int, unitInLastDigit v x → |c - v| ≤ 10 ^ x

/-- A significand of exactly 16 digits. -/
abbrev sixteenDigits (q : Int) : Prop := 10 ^ 15 ≤ q.natAbs ∧ q.natAbs < 10 ^ 16

/-- The pair after renorm's underflow step (42_arith.md R180 step 4): below EMIN the digits that do not fit
are truncated off, toward zero. -/
def truncatedAtEmin (q e : Int) : Decimal :=
  if e < -256 then ⟨Int.tdiv q (10 ^ (-256 - e).toNat), -256⟩ else ⟨q, e⟩

/-- The digits by which the operand with the larger exponent moves down (42_arith.md R184). -/
def alignShift (hi lo : Decimal) : Nat :=
  min (17 - ndigits hi.sig.natAbs) (hi.exp - lo.exp).toNat

/-- The operand with the smaller exponent contributes nothing (42_arith.md R184, R185 item 3). -/
def negligible (hi lo : Decimal) : Prop :=
  32 < hi.exp - lo.exp ∨ 16 < (hi.exp - lo.exp).toNat - alignShift hi lo

/-- The exact pair that addition hands to renorm (42_arith.md R184). -/
def alignedSum (hi lo : Decimal) : Decimal :=
  ⟨hi.sig * 10 ^ alignShift hi lo +
      Int.tdiv lo.sig (10 ^ ((hi.exp - lo.exp).toNat - alignShift hi lo)),
    hi.exp - alignShift hi lo⟩

/-- An 8-byte host read at an offset of the window is accepted and returns `v` (20_memory.md R61). -/
def State.readsAs (s : State) (off : Nat) (v : Word) : Prop :=
  ∀ rest, step (s.withAgenda (.read (Config.base + off) 8 :: rest)) =
    .next { s with agenda := rest, response := .readData v }

/-- A pair that has a word (00_scope.md R12). -/
abbrev Decimal.inRange (a : Decimal) : Prop :=
  a.sig.natAbs < 10 ^ 16 ∧ -256 ≤ a.exp ∧ a.exp ≤ 255

/-- The errors a command can raise (60_exceptions.md R332). E_ILLEGAL comes from the decoder; as a meaning
only DECOMP tests for it. -/
def allowedErrors : Instr → List ErrorCode
  | .pow10 _ => [.range]
  | .scale _ => [.range]
  | .shup16 => [.range]
  | .shup17 => [.range]
  | .shup18 => [.range]
  | .shupc _ => [.range]
  | .enc _ _ => [.range]
  | .sig _ => [.operand]
  | .exp _ => [.operand]
  | .sgn _ => []
  | .norm _ _ => [.operand]
  | .add _ _ _ => [.operand, .overflow]
  | .sub _ _ _ => [.operand, .overflow]
  | .mul _ _ _ => [.operand, .overflow]
  | .div _ _ _ => [.operand, .divZero, .overflow]
  | .neg _ _ => [.operand]
  | .shl _ _ _ => [.operand, .overflow]
  | .shr _ _ _ => [.operand, .overflow]
  | .rnd _ _ _ _ => [.operand, .unimpl]
  | .decomp _ _ _ => [.illegal, .operand]
  | .cmpeq _ _ => [.operand]
  | .cmp _ _ => [.operand]
  | .parse _ => [.parse, .overflow]
  | .fmt _ => [.operand]

/-- The decimal registers a command writes (10_state.md R31, R49). -/
def destinations : Instr → List DReg
  | .pow10 _ => []
  | .scale _ => []
  | .shup16 => []
  | .shup17 => []
  | .shup18 => []
  | .shupc _ => []
  | .enc rd _ => [rd]
  | .sig _ => []
  | .exp _ => []
  | .sgn _ => []
  | .norm rd _ => [rd]
  | .add rd _ _ => [rd]
  | .sub rd _ _ => [rd]
  | .mul rd _ _ => [rd]
  | .div rd _ _ => [rd]
  | .neg rd _ => [rd]
  | .shl rd _ _ => [rd]
  | .shr rd _ _ => [rd]
  | .rnd rd _ _ _ => [rd]
  | .decomp rd _ rb => [rd, rb]
  | .cmpeq _ _ => []
  | .cmp _ _ => []
  | .parse rd => [rd]
  | .fmt _ => []

/-- The mnemonics of the commands that write RESULT (10_state.md R34). -/
def resultWriters : List String :=
  ["POW10", "SCALE", "SHUP16", "SHUP17", "SHUP18", "SHUPC", "SIG", "EXP", "SGN", "CMPEQ", "CMP"]

/-- The mnemonics of the commands that write AUX (10_state.md R35). -/
def auxWriters : List String := ["SHUP16", "SHUP17", "SHUP18", "SHUPC"]

/-- A sign or nothing. -/
def optionalSign (sg : List Byte) : Prop := sg = [] ∨ ∃ c, sg = [c] ∧ isSign c = true

/-- A fraction `'.' digit*` or nothing; `f` are its digits. -/
def optionalFraction (frac f : List Byte) : Prop :=
  (frac = [] ∧ f = []) ∨ (frac = 0x2E :: f ∧ f.all isDigit = true)

/-- An exponent or nothing: its sign `sg` and its 1 to 3 digits `ds`. -/
def optionalExponent (expo sg ds : List Byte) : Prop :=
  (expo = [] ∧ sg = [] ∧ ds = []) ∨
    ∃ m, expo = m :: (sg ++ ds) ∧ isExponentMark m = true ∧ optionalSign sg ∧
      ds.all isDigit = true ∧ 1 ≤ ds.length ∧ ds.length ≤ 3

/-- A literal cut into the parts of the grammar of 45_string.md R281. -/
structure Literal where
  ws : List Byte
  sg : List Byte
  int : List Byte
  frac : List Byte
  fracDigits : List Byte
  expo : List Byte
  expoSign : List Byte
  expoDigits : List Byte
  deriving DecidableEq, Repr

/-- The bytes of a literal. -/
def Literal.bytes (l : Literal) : List Byte := l.ws ++ l.sg ++ l.int ++ l.frac ++ l.expo

/-- The parts are those of the grammar of 45_string.md R281, with at least one mantissa digit. -/
def Literal.Legal (l : Literal) : Prop :=
  l.ws.all isWhitespace = true ∧ optionalSign l.sg ∧ l.int.all isDigit = true ∧
    optionalFraction l.frac l.fracDigits ∧ optionalExponent l.expo l.expoSign l.expoDigits ∧
    1 ≤ l.int.length + l.fracDigits.length

/-- The number a string of digit characters spells. -/
def digitsValue (ds : List Byte) : Nat := ds.foldl (fun n b => n * 10 + digitValue b) 0

/-- The exponent a literal writes out, 0 when it has none. -/
def Literal.exponent (l : Literal) : Int :=
  if l.expoSign = [0x2D] then -(digitsValue l.expoDigits : Int) else digitsValue l.expoDigits

/-- The decimal a literal spells, every digit kept. -/
def Literal.decimal (l : Literal) : Decimal :=
  { sig := if l.sg = [0x2D] then -(digitsValue (l.int ++ l.fracDigits) : Int)
           else digitsValue (l.int ++ l.fracDigits)
    exp := l.exponent - l.fracDigits.length }

/-- The mantissa digits of a literal from the first that is not 0 on: leading zeros use no digit slot
(45_string.md R283). -/
def Literal.significant (l : Literal) : List Byte :=
  (l.int ++ l.fracDigits).dropWhile fun b => b == 0x30

/-- The decimal the scanner collects from a literal: the first 18 significant digits, each at its own place,
the others dropped (45_string.md R283, R284). -/
def Literal.kept (l : Literal) : Decimal :=
  { sig := if l.sg = [0x2D] then -(digitsValue (l.significant.take 18) : Int)
           else digitsValue (l.significant.take 18)
    exp := l.exponent + l.int.length - ((l.int.length + l.fracDigits.length) - l.significant.length : Nat) -
      (l.significant.take 18).length }

/-- `ds` is the digit string of `n`: digit characters, no leading zero (45_string.md R290). -/
def spellsNumber (ds : List Byte) (n : Nat) : Prop :=
  ds.all isDigit = true ∧ digitsValue ds = n ∧ ds.head? ≠ some 0x30

/-- The scientific form of `n · 10^e` (45_string.md R292): trailing zeros stripped, a point only before
further digits, a capital E, a sign, and the exponent of the first digit without leading zeros. -/
def sciForm (n : Nat) (e : Int) (body : List Byte) : Prop :=
  ∃ (p z : Nat) (d : Byte) (ds xs : List Byte), n = p * 10 ^ z ∧ p % 10 ≠ 0 ∧
    spellsNumber (d :: ds) p ∧ spellsNumber xs (e + z + ds.length).natAbs ∧
    body = d :: ((if ds = [] then [] else 0x2E :: ds) ++
      [0x45, if 0 ≤ e + z + ds.length then 0x2B else 0x2D] ++ xs)

/-- The form of a nonzero decimal without its sign (45_string.md R291). `z` trailing zeros are stripped, as
many as the fraction has; then plain notation with a point when at most 6 zeros stand before the first digit,
plain notation without one when there are at most 16 digits in all, and else the scientific form. -/
def formatForm (a : Decimal) (body : List Byte) : Prop :=
  ∃ (n z : Nat) (ds : List Byte), a.sig.natAbs = n * 10 ^ z ∧ (0 ≤ a.exp → z = 0) ∧
    (a.exp < 0 → a.exp + z = 0 ∨ (a.exp + z < 0 ∧ n % 10 ≠ 0)) ∧ spellsNumber ds n ∧
    if a.exp + z < 0 then
      if -(a.exp + z) - ds.length ≤ 6 then
        if 0 < ds.length + (a.exp + z) then
          body = ds.take (ds.length + (a.exp + z)).toNat ++
            0x2E :: ds.drop (ds.length + (a.exp + z)).toNat
        else body = 0x30 :: 0x2E :: (List.replicate (-(a.exp + z) - ds.length).toNat 0x30 ++ ds)
      else sciForm n (a.exp + z) body
    else if ds.length + (a.exp + z) ≤ 16 then body = ds ++ List.replicate (a.exp + z).toNat 0x30
    else sciForm n (a.exp + z) body

end Sys2Proof.Machine
end

