-- ==== Sys2Proof/Certificates/Slice0/Obligations.lean ====
section
/-! DEFINITION. The statements for the provers. Each docstring names the rule of spec/ that the statement
formalises. `State.completed` and `State.errored` write out what 10_state.md R39 leaves in STATUS; an
equation for the next state also says that nothing else changed. -/

open Sys2Proof Sys2Proof.Machine

/-! ## Encoding -/

/-- The worked encodings of 30_encoding.md R104. -/
def Obligations.WorkedEncodings : Prop :=
  encode (.add 2 0 1) = 0x41020000 ∧ decodeCmd 0x41020000 = .ok (.add 2 0 1) ∧
    encode (.enc 0 (-3)) = 0x20003FFD ∧ decodeCmd 0x20003FFD = .ok (.enc 0 (-3)) ∧
    encode (.rnd 1 0 .nearestEven 7) = 0x5C80C007 ∧
    decodeCmd 0x5C80C007 = .ok (.rnd 1 0 .nearestEven 7)

/-- Decoding an encoded well-formed command gives it back, with every operand (30_encoding.md R91 to
R95). -/
def Obligations.DecodeInvertsEncode : Prop :=
  ∀ i : Instr, i.wellFormed = true → decodeCmd (encode i) = .ok i

/-- Every value that decodes is the encoding of the command it decodes to: no bit of it is dropped
(30_encoding.md R90, R96). -/
def Obligations.EncodeInvertsDecode : Prop :=
  ∀ (v : Word) (i : Instr), decodeCmd v = .ok i → i.wellFormed = true ∧ encode i = v

/-- The conditions under which a command completes with E_ILLEGAL are exactly those of 30_encoding.md R98;
"no row of the table" is an undefined opcode or a nonzero unused field (R100). Then STATUS alone changes
(60_exceptions.md R333). When the unit has its turn, at an empty agenda or with the turn first on it, is the
model's choice (log entry 3). -/
def Obligations.IllegalExactlyOutsideTheTable : Prop :=
  ∀ (s u : State) (v : Word), s.inflight = some v → s.unitTurnNext u →
    ∃ t, step s = .next t ∧
      (t.status.ecode = 1 ↔
        v.extractLsb' 32 32 ≠ 0 ∨
        (∀ row ∈ opcodeRows, row.spells (v.extractLsb' 0 32) = false) ∨
        (∃ row ∈ opcodeRows, row.spells (v.extractLsb' 0 32) = true ∧ row.mnemonic = "RND" ∧
          6 ≤ (v.extractLsb' 14 3).toNat) ∨
        (∃ row ∈ opcodeRows, row.spells (v.extractLsb' 0 32) = true ∧ row.mnemonic = "DECOMP" ∧
          v.extractLsb' 23 3 = v.extractLsb' 17 3)) ∧
      (t.status.ecode = 1 → t = u.errored 1)

/-! ## Reset, the command life cycle and the bus -/

/-- What reset leaves (10_state.md R48). -/
def Obligations.ResetLeavesEveryRegisterZero : Prop :=
  (∀ r : Fin 8, State.reset.readD r = 0) ∧ State.reset.data = 0 ∧ State.reset.result = 0 ∧
    State.reset.aux = 0 ∧ State.reset.cmd = 0 ∧ State.reset.status.toWord = 0 ∧
    State.reset.strlenWord = 0 ∧ (∀ j, State.reset.str.read j = 0) ∧ State.reset.inflight = none

/-- A reset puts every piece of state at its reset value and discards a command in flight
(70_reset_and_hazards.md R360). That the rest of the agenda stays is the model's choice (log entry 5). -/
def Obligations.ResetDiscardsTheCommand : Prop :=
  ∀ (s : State) (rest : List Event), s.agenda = .reset :: rest →
    step s = .next (State.reset.withAgenda rest)

/-- A step at which the unit has its turn runs the decoded command (70_reset_and_hazards.md R365); the
agenda that gives the turn is the model's (log entry 3), and so is `withFetchWord` (log entry 6). -/
def Obligations.StepRunsTheDecodedCommand : Prop :=
  (∀ (s : State) (v : Word) (i : Instr), s.inflight = some v → decodeCmd v = .ok i →
    (s.agenda = [] → step s = exec i s) ∧
    (∀ rest, s.agenda = .unitTurn :: rest → step s = exec i (s.withAgenda rest))) ∧
  (∀ (s : State) (nbits w : Nat) (i : Instr), decodeTableWord nbits w = some i →
    step (s.withFetchWord nbits w) = exec i (s.issue (cmdValue nbits w)))

/-- A CMD write issues a command while idle and is lost while busy (70_reset_and_hazards.md R364). The agenda
and the response are the model's own (log entries 3 and 4). -/
def Obligations.CmdWriteIssuesWhenIdle : Prop :=
  ∀ (s : State) (v : Word) (rest : List Event), s.agenda = .write (Config.base + 0x00) 8 v :: rest →
    (s.status.busy = false →
      step s = .next { s with
        cmd := v
        inflight := some v
        status := { s.status with busy := true }
        agenda := rest
        response := .writeAccepted }) ∧
    (s.status.busy = true → step s = .next { s with agenda := rest, response := .writeError })

/-- Which accesses get a bus error, and that it changes no state (20_memory.md R66). That every size other
than 8 bytes is a wrong one, also those R65 does not name, is log entry 12; the agenda and the response are the
model's own (log entries 3 and 4). -/
def Obligations.BusErrorExactlyWhen : Prop :=
  ∀ (s : State) (rest : List Event) (off size : Nat) (v : Word), off < 256 →
    (s.agenda = .read (Config.base + off) size :: rest →
      (size ≠ 8 ∨ off % 8 ≠ 0 ∨ (0x30 ≤ off ∧ off < 0x40) ∨ 0xC0 ≤ off ∨
          (s.status.busy = true ∧ off ≠ 0x20) →
        step s = .next { s with agenda := rest, response := .readError 0 }) ∧
      (size = 8 → off % 8 = 0 → ¬(0x30 ≤ off ∧ off < 0x40) → off < 0xC0 →
        (s.status.busy = true → off = 0x20) →
        ∃ d, step s = .next { s with agenda := rest, response := .readData d })) ∧
    (s.agenda = .write (Config.base + off) size v :: rest →
      (size ≠ 8 ∨ off % 8 ≠ 0 ∨ (0x30 ≤ off ∧ off < 0x40) ∨ 0xC0 ≤ off ∨
          off = 0x10 ∨ off = 0x18 ∨ s.status.busy = true →
        step s = .next { s with agenda := rest, response := .writeError }) ∧
      (size = 8 → off % 8 = 0 → ¬(0x30 ≤ off ∧ off < 0x40) → off < 0xC0 → off ≠ 0x10 → off ≠ 0x18 →
        s.status.busy = false → ∃ t, step s = .next t ∧ t.response = .writeAccepted))

/-- What each offset of the window reads as, and that the read changes nothing (20_memory.md R61, R63,
R67). -/
def Obligations.WindowReadsTheRegisters : Prop :=
  ∀ s : State, s.status.busy = false →
    s.readsAs 0x00 s.cmd ∧ s.readsAs 0x08 s.data ∧ s.readsAs 0x10 s.result ∧ s.readsAs 0x18 s.aux ∧
    s.readsAs 0x20 s.status.toWord ∧ s.readsAs 0x28 (s.strlen.setWidth 64) ∧
    (∀ i : Fin 8, s.readsAs (0x40 + 8 * i.val) (s.readD i)) ∧
    (∀ k : Fin 8, ∃ w : Word, s.readsAs (0x80 + 8 * k.val) w ∧
      ∀ j < 8, w.extractLsb' (8 * j) 8 = s.str.read (8 * k.val + j))

/-- A write to a storing register is read back, STRLEN with bits 63:7 zero, and leaves every other
register as it was (20_memory.md R67, 10_state.md R41). -/
def Obligations.WriteIsReadBack : Prop :=
  ∀ (s : State) (rest : List Event) (r : BusReg) (v : Word), s.status.busy = false →
    s.str.wf = true → r ∉ [BusReg.cmd, .result, .aux, .status] →
    ∃ t, step (s.withAgenda (hostWr r v :: rest)) = .next t ∧ t.response = .writeAccepted ∧
      t.agenda = rest ∧ t.inflight = s.inflight ∧
      readReg t r = (if r = .strlen then v &&& 0x7F else v) ∧
      ∀ r', r' ≠ r → readReg t r' = readReg s r'

/-- A write to STATUS clears SERR when bit 2 of the value is 1 and changes nothing else; only such a write
or reset clears SERR (10_state.md R40). The agenda and the response are the model's own (log entries 3 and
4). -/
def Obligations.OnlyStatusWriteOrResetClearsSerr : Prop :=
  (∀ (s : State) (rest : List Event) (v : Word), s.status.busy = false →
    step (s.withAgenda (hostWr .status v :: rest)) =
      .next { s with
        status := { s.status with serr := if v.getLsbD 2 then false else s.status.serr }
        agenda := rest
        response := .writeAccepted }) ∧
  (∀ s t : State, step s = .next t → s.status.serr = true → t.status.serr = false →
    (∃ rest, s.agenda = .reset :: rest) ∨
    (∃ rest v, s.agenda = hostWr .status v :: rest ∧ v.getLsbD 2 = true ∧ s.status.busy = false))

/-- A STATUS read while BUSY = 1 returns BUSY and the held ERR, SERR and ECODE
(70_reset_and_hazards.md R366, R370). -/
def Obligations.StatusReadWhileBusyShowsHeldFields : Prop :=
  ∀ (s : State), s.status.busy = true →
    s.readsAs 0x20 (BitVec.ofNat 64
      (1 + 2 * s.status.err.toNat + 4 * s.status.serr.toNat + 16 * s.status.ecode.toNat))

/-- Every command completes, without error or with exactly one error code, and writes STATUS so
(10_state.md R39, 60_exceptions.md R330). -/
def Obligations.EveryCommandCompletesWithStatus : Prop :=
  ∀ (i : Instr) (s : State), ∃ t, exec i s = .next t ∧ t.inflight = none ∧
    (t.status = s.okStatus ∨ ∃ c : ErrorCode, t.status = State.errStatus c.code)

/-- A command that raises an error leaves that error's code in STATUS, with ERR and SERR, and changes nothing
else: no effect of the command is visible (60_exceptions.md R333). -/
def Obligations.ErrorChangesStatusOnly : Prop :=
  ∀ (i : Instr) (s t : State), exec i s = .next t → t.status.err = true →
    ∃ c : ErrorCode, t = s.errored c.code

/-- Each command raises only the errors of its row (60_exceptions.md R332): no internal step of another
command fails (40_digit_shift.md R131, 41_word_codec.md R152, 43_round.md R237). -/
def Obligations.ErrorsOfEachCommand : Prop :=
  ∀ (i : Instr) (s t : State), exec i s = .next t → t.status.err = true →
    ∃ c ∈ allowedErrors i, t.status.ecode = c.code

/-- Every step keeps the invariant of the block (10_state.md R44, R37, 70_reset_and_hazards.md R364). -/
def Obligations.StepKeepsTheInvariant : Prop :=
  ∀ s t : State, s.Inv → step s = .next t → t.Inv

/-- The reset state has the invariant. -/
def Obligations.ResetHasTheInvariant : Prop := State.reset.Inv

/-- Every command in flight completes after finitely many other steps (70_reset_and_hazards.md R366). When the
agenda has run out the unit is idle one step later, by completion or by a reset. With no reset on the agenda
the command completes: at some step the unit has its turn with the command and the state it was issued on
(R365; the host changed nothing meanwhile), and that step runs the decoded command, or answers E_ILLEGAL. The
agenda, and that an empty one gives the unit its turn, are the model's (log entry 3). -/
def Obligations.RunEndsIdle : Prop :=
  ∀ s : State, s.agendaInWindow = true →
    (∃ t, Host.Core.run Sys2Proof.core (s.agenda.length + 1) s = .next t ∧ t.inflight = none ∧
      t.agenda = []) ∧
    (∀ v, s.inflight = some v → s.status.busy = true → Event.reset ∉ s.agenda →
      ∃ (k : Nat) (m u t : State), k ≤ s.agenda.length ∧
        Host.Core.run Sys2Proof.core k s = .next m ∧ m.unitTurnNext u ∧
        u = { s with agenda := u.agenda, response := u.response } ∧
        Host.Core.run Sys2Proof.core (k + 1) s = .next t ∧
        ((∃ i, decodeCmd v = .ok i ∧ exec i u = .next t) ∨
          ((∀ i, decodeCmd v ≠ .ok i) ∧ t = u.errored 1)))

/-! ## Frames -/

/-- No command writes DATA or CMD (10_state.md R33, R36), nor the model's own fields. -/
def Obligations.CommandsKeepDataAndCmd : Prop :=
  ∀ (i : Instr) (s t : State), exec i s = .next t →
    t.data = s.data ∧ t.cmd = s.cmd ∧ t.agenda = s.agenda ∧ t.response = s.response

/-- Only the commands that 10_state.md R34 and R35 list write RESULT and AUX. -/
def Obligations.OnlyListedCommandsWriteResultAndAux : Prop :=
  ∀ (i : Instr) (s t : State), exec i s = .next t →
    (i.mnemonic ∉ resultWriters → t.result = s.result) ∧
    (i.mnemonic ∉ auxWriters → t.aux = s.aux)

/-- Only FMT writes the string buffer or STRLEN (10_state.md R41, R42). -/
def Obligations.OnlyFmtWritesTheString : Prop :=
  ∀ (i : Instr) (s t : State), exec i s = .next t → i.mnemonic ≠ "FMT" →
    t.strlen = s.strlen ∧ t.str = s.str ∧ ∀ j, t.str.read j = s.str.read j

/-- A command writes no D register but its destinations, and only canonical words: when it completes without
error each destination holds one, and so does every register that it changed (10_state.md R31, R32, R49). -/
def Obligations.OnlyDestinationsChangeAndStayCanonical : Prop :=
  ∀ (i : Instr) (s t : State), exec i s = .next t → ∀ r : Fin 8,
    (r ∉ destinations i → t.readD r = s.readD r) ∧
    (t.readD r ≠ s.readD r → canonical (t.readD r) = true) ∧
    (r ∈ destinations i → t.status.err = false → canonical (t.readD r) = true)

/-! ## Digit shifts -/

/-- POW10 (40_digit_shift.md R121). -/
def Obligations.Pow10Result : Prop :=
  ∀ (s : State) (n : Int),
    (0 ≤ n → n ≤ 18 → ∃ w : Word, w.toNat = 10 ^ n.toNat ∧
      exec (.pow10 n) s = .next ({ s with result := w } : State).completed) ∧
    (n < 0 ∨ 18 < n → exec (.pow10 n) s = .next (s.errored 3))

/-- SCALE (40_digit_shift.md R122, R127): the product when it fits, else E_RANGE; for a negative shift the
quotient truncated toward zero, and 0 below −17. -/
def Obligations.ScaleResult : Prop :=
  ∀ (s : State) (sh : Int),
    (0 ≤ sh → -2 ^ 63 ≤ s.data.toInt * 10 ^ sh.toNat → s.data.toInt * 10 ^ sh.toNat < 2 ^ 63 →
      ∃ w : Word, w.toInt = s.data.toInt * 10 ^ sh.toNat ∧
        exec (.scale sh) s = .next ({ s with result := w } : State).completed) ∧
    (0 ≤ sh → (s.data.toInt * 10 ^ sh.toNat < -2 ^ 63 ∨ 2 ^ 63 ≤ s.data.toInt * 10 ^ sh.toNat) →
      exec (.scale sh) s = .next (s.errored 3)) ∧
    (-17 ≤ sh → sh < 0 → ∃ w : Word,
      w.toInt.natAbs * 10 ^ sh.natAbs ≤ s.data.toInt.natAbs ∧
      s.data.toInt.natAbs < (w.toInt.natAbs + 1) * 10 ^ sh.natAbs ∧
      (w.toInt = 0 ∨ w.toInt.sign = s.data.toInt.sign) ∧
      exec (.scale sh) s = .next ({ s with result := w } : State).completed) ∧
    (sh < -17 → exec (.scale sh) s = .next ({ s with result := 0 } : State).completed)

/-- SHUP16, SHUP17 and SHUP18 (40_digit_shift.md R123 to R125): a nonzero value of at most t digits is
shifted up to exactly t digits, RESULT gets it and AUX the count; every other value is E_RANGE. -/
def Obligations.ShiftUpResult : Prop :=
  ∀ (s : State) (i : Instr) (t : Nat),
    (i = .shup16 ∧ t = 16) ∨ (i = .shup17 ∧ t = 17) ∨ (i = .shup18 ∧ t = 18) →
    (s.data.toInt ≠ 0 → s.data.toInt.natAbs < 10 ^ t → ∃ (w : Word) (k : Nat),
      w.toInt = s.data.toInt * 10 ^ k ∧ 10 ^ (t - 1) ≤ w.toInt.natAbs ∧ w.toInt.natAbs < 10 ^ t ∧
      exec i s = .next ({ s with result := w, aux := BitVec.ofNat 64 k } : State).completed) ∧
    (s.data.toInt = 0 ∨ 10 ^ t ≤ s.data.toInt.natAbs → exec i s = .next (s.errored 3))

/-- SHUPC (40_digit_shift.md R126, R129): the largest shift within the limit that keeps 17 digits; zero
reports the limit itself. -/
def Obligations.ShupcResult : Prop :=
  ∀ (s : State) (limit : Int),
    (0 ≤ limit → s.data.toInt ≠ 0 → s.data.toInt.natAbs < 10 ^ 17 → ∃ (w : Word) (k : Nat),
      w.toInt = s.data.toInt * 10 ^ k ∧ (k : Int) ≤ limit ∧ w.toInt.natAbs < 10 ^ 17 ∧
      ((k : Int) = limit ∨ 10 ^ 16 ≤ w.toInt.natAbs) ∧
      exec (.shupc limit) s =
        .next ({ s with result := w, aux := BitVec.ofNat 64 k } : State).completed) ∧
    (0 ≤ limit → s.data.toInt = 0 → exec (.shupc limit) s =
      .next ({ s with result := 0, aux := BitVec.ofNat 64 limit.toNat } : State).completed) ∧
    (limit < 0 ∨ 10 ^ 17 ≤ s.data.toInt.natAbs → exec (.shupc limit) s = .next (s.errored 3))

/-! ## The word codec -/

/-- ENC (41_word_codec.md R158) writes the word of R150 and R151, or raises E_RANGE. -/
def Obligations.EncResult : Prop :=
  ∀ (s : State) (rd : Fin 8) (e : Int),
    (s.data.toInt.natAbs < 10 ^ 16 → -256 ≤ e → e ≤ 255 → ∃ w : Word,
      w.toInt = s.data.toInt.sign * (s.data.toInt.natAbs * 2 ^ 9 + (e + 256)) ∧
      exec (.enc rd e) s = .next (s.writeD rd w).completed) ∧
    (10 ^ 16 ≤ s.data.toInt.natAbs ∨ e < -256 ∨ 255 < e →
      exec (.enc rd e) s = .next (s.errored 3))

/-- SIG and EXP (41_word_codec.md R160, R161): RESULT is the significand or the exponent as held, in
two's complement; an invalid word is E_OPERAND. -/
def Obligations.AccessorsReadThePair : Prop :=
  ∀ (s : State) (ra : Fin 8),
    (∀ a, s.holds ra a →
      (∃ w : Word, w.toInt = a.sig ∧
        exec (.sig ra) s = .next ({ s with result := w } : State).completed) ∧
      (∃ w : Word, w.toInt = a.exp ∧
        exec (.exp ra) s = .next ({ s with result := w } : State).completed)) ∧
    (canonical (s.readD ra) = false →
      exec (.sig ra) s = .next (s.errored 2) ∧ exec (.exp ra) s = .next (s.errored 2))

/-- SGN (41_word_codec.md R162): 1 exactly when the raw word is negative, for every word, invalid ones
included. -/
def Obligations.SgnReadsTheRawSign : Prop :=
  ∀ (s : State) (ra : Fin 8), exec (.sgn ra) s =
    .next ({ s with result := if (s.readD ra).toInt < 0 then 1 else 0 } : State).completed

/-- NORM (41_word_codec.md R163): the same value with as many of the 16 digits as EMIN allows. -/
def Obligations.NormResult : Prop :=
  ∀ (s : State) (rd ra : Fin 8),
    (∀ a, s.holds ra a → ∃ (w : Word) (b : Decimal),
      exec (.norm rd ra) s = .next (s.writeD rd w).completed ∧ decodeDecimal w = some b ∧
      b.value = a.value ∧ b.exp ≤ a.exp ∧
      (a.sig ≠ 0 → 10 ^ 15 ≤ b.sig.natAbs ∨ b.exp = -256)) ∧
    (canonical (s.readD ra) = false → exec (.norm rd ra) s = .next (s.errored 2))

/-- The invalid words are exactly the three classes of 41_word_codec.md R157, and a canonical word other
than 0 encodes exactly one pair with a nonzero significand. -/
def Obligations.InvalidWordsAreThreeClasses : Prop :=
  (∀ w : Word, canonical w = false ↔
    w = 0x8000000000000000 ∨ (0 < w.toInt.natAbs ∧ w.toInt.natAbs < 512) ∨
      10 ^ 16 * 512 ≤ w.toInt.natAbs) ∧
  (∀ w : Word, canonical w = true → w ≠ 0 →
    ∃! a : Decimal, a.sig ≠ 0 ∧ encodeDecimal a.sig a.exp = .ok w)

/-- Decoding and encoding words are inverse (41_word_codec.md R156). -/
def Obligations.WordRoundTrip : Prop :=
  (∀ a : Decimal, a.inRange → ∃ w, encodeDecimal a.sig a.exp = .ok w ∧
    decodeDecimal w = some (if a.sig = 0 then ⟨0, 0⟩ else a)) ∧
  (∀ (w : Word) (a : Decimal), decodeDecimal w = some a →
    a.inRange ∧ encodeDecimal a.sig a.exp = .ok w)

/-- The sign of a word is the sign of its significand (41_word_codec.md R154). -/
def Obligations.WordSignIsSignificandSign : Prop :=
  ∀ (a : Decimal) (w : Word), a.sig ≠ 0 → encodeDecimal a.sig a.exp = .ok w →
    w.toInt.sign = a.sig.sign ∧ 512 ≤ w.toInt.natAbs ∧ (w.getLsbD 63 = true ↔ a.sig < 0)

/-! ## Arithmetic -/

/-- What renorm answers (42_arith.md R182 items 1 and 2): zero or a canonical word with an exponent of at
most 253, the pair itself when it is in range, and no error but E_OVERFLOW. The 253 is EMAX_ARITH, which R7
lets be 253 or 255: the model's choice, log entry 7. -/
def Obligations.RenormStaysInRange : Prop :=
  ∀ s e : Int,
    (∀ w, renorm s e = .ok w → ∃ b, decodeDecimal w = some b ∧ b.exp ≤ 253) ∧
    (∀ c, renorm s e = .error c → c = .overflow) ∧
    (s.natAbs < 10 ^ 16 → -256 ≤ e → e ≤ 253 → renorm s e = encodeDecimal s e)

/-- renorm rounds to 16 digits half away from zero (42_arith.md R182 item 3, R183) where neither underflow
nor overflow acts. The overflow bound is the one for EMAX_ARITH = 253, the model's choice (log entry 7). -/
def Obligations.RenormRoundsHalfAwayFromZero : Prop :=
  ∀ s e : Int, -256 ≤ e → |(⟨s, e⟩ : Decimal).value| < overflowBound →
    ∃ (w : Word) (b : Decimal), renorm s e = .ok w ∧ decodeDecimal w = some b ∧
      roundsTo (⟨s, e⟩ : Decimal).value b.value ∧
      (s.natAbs < 10 ^ 16 → b.value = (⟨s, e⟩ : Decimal).value)

/-- renorm step 4 (42_arith.md R180, R182 item 3): below EMIN the value is truncated toward zero to a multiple
of 10^−256, down to zero, with no error. A significand of at most 16 digits is truncated as it is; a longer one
is first rounded to 16 digits (step 2), whatever its exponent, and then truncated, encoded, or refused with
E_OVERFLOW above EMAX_ARITH = 253 (the model's choice, log entry 7). -/
def Obligations.RenormUnderflowTruncates : Prop :=
  ∀ s e : Int,
    (s.natAbs < 10 ^ 16 → e < -256 →
      renorm s e = encodeDecimal (Int.tdiv s (10 ^ (-256 - e).toNat)) (-256)) ∧
    (10 ^ 16 ≤ s.natAbs → ∃ q x : Int, sixteenDigits q ∧
      roundsTo (⟨s, e⟩ : Decimal).value (⟨q, x⟩ : Decimal).value ∧
      renorm s e = if 253 < x then .error .overflow
        else encodeDecimal (truncatedAtEmin q x).sig (truncatedAtEmin q x).exp)

/-- renorm raises E_OVERFLOW exactly when the value, rounded to 16 digits, is 10^(EMAX_ARITH + 16) or more
in magnitude (42_arith.md R182 item 4). With EMAX_ARITH = 253, the model's choice (log entry 7), that is
10^269, so the value itself is `overflowBound` or more. -/
def Obligations.RenormOverflowsExactlyAtTheBound : Prop :=
  ∀ s e : Int, renorm s e = .error .overflow ↔ overflowBound ≤ |(⟨s, e⟩ : Decimal).value|

/-- ADD and SUB either raise E_OVERFLOW or write a result within one unit in the 16th digit of the exact sum
or difference; for operands with exponents up to 252 they complete without error (42_arith.md R184 to R187).
That 252 suffices rests on EMAX_ARITH = 253, the model's choice (log entry 7); AddAndSubByCases says when the
others overflow. -/
def Obligations.AddAndSubWithinOneUnit : Prop :=
  ∀ (s : State) (rd ra rb : Fin 8) (a b : Decimal) (i : Instr) (v : ℚ),
    s.holds ra a → s.holds rb b →
    (i = .add rd ra rb ∧ v = a.value + b.value) ∨ (i = .sub rd ra rb ∧ v = a.value - b.value) →
    (exec i s ≠ .next (s.errored 5) → ∃ (w : Word) (c : Decimal),
      exec i s = .next (s.writeD rd w).completed ∧ decodeDecimal w = some c ∧
      withinOneUnit v c.value) ∧
    (a.exp ≤ 252 → b.exp ≤ 252 → ∃ (w : Word) (c : Decimal),
      exec i s = .next (s.writeD rd w).completed ∧ decodeDecimal w = some c ∧
      withinOneUnit v c.value)

/-- When the larger-exponent operand moves down by the whole gap within 17 digits, the sum is exact before
it is rounded once (42_arith.md R185 item 1), in both operand orders (item 4). -/
def Obligations.AddIsExactWhenAligned : Prop :=
  ∀ a b : Decimal, a.inRange → b.inRange → a.sig ≠ 0 → b.sig ≠ 0 → b.exp ≤ a.exp →
    a.sig.natAbs * 10 ^ (a.exp - b.exp).toNat < 10 ^ 17 →
    addCore a b = renorm (a.sig * 10 ^ (a.exp - b.exp).toNat + b.sig) b.exp ∧
    addCore b a = renorm (a.sig * 10 ^ (a.exp - b.exp).toNat + b.sig) b.exp

/-- ADD commutes, SUB of a value from itself is zero, and adding zero gives the same word
(42_arith.md R188). -/
def Obligations.AddAndSubLaws : Prop :=
  ∀ (s : State) (rd ra rb : Fin 8), canonical (s.readD ra) = true → canonical (s.readD rb) = true →
    exec (.add rd ra rb) s = exec (.add rd rb ra) s ∧
    exec (.sub rd ra ra) s = .next (s.writeD rd 0).completed ∧
    (s.readD rb = 0 → exec (.add rd ra rb) s = .next (s.writeD rd (s.readD ra)).completed)

/-- Every command that decodes a D register raises E_OPERAND on an invalid word there, before any other
error of its rule (10_state.md R32, 60_exceptions.md R334). -/
def Obligations.InvalidOperandIsRejected : Prop :=
  ∀ (s : State) (rd ra rb : Fin 8) (n : Int) (rule : RoundingRule),
    canonical (s.readD ra) = false →
    ∀ i ∈ [Instr.sig ra, .exp ra, .norm rd ra, .neg rd ra, .fmt ra, .shl rd ra n, .shr rd ra n,
      .rnd rd ra rule n, .add rd ra rb, .add rd rb ra, .sub rd ra rb, .sub rd rb ra, .mul rd ra rb,
      .mul rd rb ra, .div rd ra rb, .div rd rb ra, .cmpeq ra rb, .cmpeq rb ra, .cmp ra rb,
      .cmp rb ra] ++ (if rd = rb then [] else [.decomp rd ra rb]),
      exec i s = .next (s.errored 2)

/-- MUL (42_arith.md R189, R190): the exact product, rounded once by renorm and truncated below EMIN, or
E_OVERFLOW exactly at the overflow bound. The bound rests on EMAX_ARITH = 253, the model's choice (log
entry 7). -/
def Obligations.MulResult : Prop :=
  ∀ (s : State) (rd ra rb : Fin 8) (a b : Decimal), s.holds ra a → s.holds rb b →
    (|a.value * b.value| < overflowBound → ∃ (w : Word) (q x : Int),
      renorm (a.sig * b.sig) (a.exp + b.exp) = .ok w ∧
      exec (.mul rd ra rb) s = .next (s.writeD rd w).completed ∧
      roundsTo (a.value * b.value) (⟨q, x⟩ : Decimal).value ∧
      encodeDecimal (truncatedAtEmin q x).sig (truncatedAtEmin q x).exp = .ok w ∧
      (-256 ≤ a.exp + b.exp → ∃ c, decodeDecimal w = some c ∧
        roundsTo (a.value * b.value) c.value)) ∧
    (overflowBound ≤ |a.value * b.value| → exec (.mul rd ra rb) s = .next (s.errored 5))

/-- divCore's quotient (42_arith.md R192): t is the smallest shift, at most 31; the quotient has exactly 16
digits, before and after rounding half away from zero. -/
def Obligations.DivQuotientHasSixteenDigits : Prop :=
  ∀ A B : Nat, 1 ≤ A → A < 10 ^ 16 → 1 ≤ B → B < 10 ^ 16 →
    divShift A B ≤ 31 ∧ 10 ^ 15 * B ≤ A * 10 ^ divShift A B ∧
    (∀ t < divShift A B, A * 10 ^ t < 10 ^ 15 * B) ∧
    10 ^ 15 ≤ A * 10 ^ divShift A B / B ∧ divQuotient A B < 10 ^ 16 ∧
    (2 * (A * 10 ^ divShift A B) < 2 * (divQuotient A B * B) + B) ∧
    (2 * (divQuotient A B * B) ≤ 2 * (A * 10 ^ divShift A B) + B)

/-- DIV (42_arith.md R192, R193): a zero divisor is E_DIVZERO, a zero dividend gives zero; otherwise the exact
quotient is rounded to 16 digits half away from zero and then truncated below EMIN, or is E_OVERFLOW exactly
at the overflow bound. The bound rests on EMAX_ARITH = 253, the model's choice (log entry 7). -/
def Obligations.DivResult : Prop :=
  ∀ (s : State) (rd ra rb : Fin 8) (a b : Decimal), s.holds ra a → s.holds rb b →
    (b.sig = 0 → exec (.div rd ra rb) s = .next (s.errored 4)) ∧
    (b.sig ≠ 0 → a.sig = 0 → exec (.div rd ra rb) s = .next (s.writeD rd 0).completed) ∧
    (b.sig ≠ 0 → a.sig ≠ 0 → |a.value / b.value| < overflowBound → ∃ (w : Word) (q x : Int),
      exec (.div rd ra rb) s = .next (s.writeD rd w).completed ∧ sixteenDigits q ∧
      roundsTo (a.value / b.value) (⟨q, x⟩ : Decimal).value ∧
      encodeDecimal (truncatedAtEmin q x).sig (truncatedAtEmin q x).exp = .ok w ∧
      ((10 : ℚ) ^ (-241 : Int) ≤ |a.value / b.value| → decodeDecimal w = some ⟨q, x⟩)) ∧
    (b.sig ≠ 0 → overflowBound ≤ |a.value / b.value| →
      exec (.div rd ra rb) s = .next (s.errored 5))

/-- NEG (42_arith.md R196, 41_word_codec.md R155): negating the word negates the significand and keeps the
exponent, and never fails on a canonical word. -/
def Obligations.NegResult : Prop :=
  ∀ (s : State) (rd ra : Fin 8),
    (∀ a, s.holds ra a → ∃ w : Word, w.toInt = -(s.readD ra).toInt ∧
      decodeDecimal w = some ⟨-a.sig, a.exp⟩ ∧
      exec (.neg rd ra) s = .next (s.writeD rd w).completed) ∧
    (canonical (s.readD ra) = false → exec (.neg rd ra) s = .next (s.errored 2))

/-- SHL by N and SHR by N (42_arith.md R198, R199): multiplication by 10^N and by 10^−N through renorm; zero
stays zero; digits below EMIN are truncated off; E_OVERFLOW exactly at the overflow bound, which rests on
EMAX_ARITH = 253, the model's choice (log entry 7). -/
def Obligations.DigitShiftsScaleByPowersOfTen : Prop :=
  ∀ (s : State) (rd ra : Fin 8) (n k : Int) (i : Instr) (a : Decimal), s.holds ra a →
    (i = .shl rd ra n ∧ k = n) ∨ (i = .shr rd ra n ∧ k = -n) →
    (a.sig = 0 → exec i s = .next (s.writeD rd 0).completed) ∧
    (|a.value * 10 ^ k| < overflowBound → ∃ w : Word,
      renorm a.sig (a.exp + k) = .ok w ∧ exec i s = .next (s.writeD rd w).completed ∧
      (-256 ≤ a.exp + k → ∃ c, decodeDecimal w = some c ∧ c.value = a.value * 10 ^ k) ∧
      (a.exp + k < -256 →
        encodeDecimal (Int.tdiv a.sig (10 ^ (-256 - (a.exp + k)).toNat)) (-256) = .ok w)) ∧
    (overflowBound ≤ |a.value * 10 ^ k| → exec i s = .next (s.errored 5))

/-! ## Rounding and decomposition -/

/-- RND (43_round.md R230 to R234): each rule is the mathematical rounding of the value to a multiple of
10^−scale; the operand word comes back when it is one already, else the exponent becomes −scale. -/
def Obligations.RndRoundsByTheRule : Prop :=
  ∀ (s : State) (rd ra : Fin 8) (rule : RoundingRule) (scale : Int) (a : Decimal),
    s.holds ra a → 0 ≤ scale →
    ∃ (w : Word) (c : Decimal) (m : Int),
      exec (.rnd rd ra rule scale) s = .next (s.writeD rd w).completed ∧ decodeDecimal w = some c ∧
      c.value * 10 ^ scale = m ∧
      (0 ≤ a.exp + scale → w = s.readD ra) ∧ (a.exp + scale < 0 → c.sig = 0 ∨ c.exp = -scale) ∧
      (match rule with
        | .towardZero =>
          m = if 0 ≤ a.value then ⌊a.value * 10 ^ scale⌋ else ⌈a.value * 10 ^ scale⌉
        | .awayFromZero =>
          m = if 0 ≤ a.value then ⌈a.value * 10 ^ scale⌉ else ⌊a.value * 10 ^ scale⌋
        | .nearestAway =>
          m = if 0 ≤ a.value then ⌊a.value * 10 ^ scale + 1 / 2⌋
            else ⌈a.value * 10 ^ scale - 1 / 2⌉
        | .nearestEven =>
          |(m : ℚ) - a.value * 10 ^ scale| ≤ 1 / 2 ∧
            (|(m : ℚ) - a.value * 10 ^ scale| = 1 / 2 → Even m)
        | .down => m = ⌊a.value * 10 ^ scale⌋
        | .up => m = ⌈a.value * 10 ^ scale⌉)

/-- RND with a negative scale raises E_UNIMPL and writes nothing, but an invalid operand gives E_OPERAND
first (43_round.md R233). -/
def Obligations.RndNegativeScaleIsUnimplemented : Prop :=
  ∀ (s : State) (rd ra : Fin 8) (rule : RoundingRule) (scale : Int), scale < 0 →
    exec (.rnd rd ra rule scale) s =
      .next (s.errored (if canonical (s.readD ra) then 7 else 2))

/-- The decompose law (43_round.md R237, R236): the integral part is an integer, zero or with the sign of
x; the fraction is in [0, 1); and `i + sgn(x)·f = x` exactly. DECOMP never fails on a canonical word. -/
def Obligations.DecomposeLaw : Prop :=
  ∀ (s : State) (rd ra rb : Fin 8) (x : Decimal), s.holds ra x → rd ≠ rb →
    ∃ (wi wf : Word) (i f : Decimal),
      exec (.decomp rd ra rb) s = .next ((s.writeD rd wi).writeD rb wf).completed ∧
      decodeDecimal wi = some i ∧ decodeDecimal wf = some f ∧
      (∃ m : Int, i.value = m) ∧ (i.sig = 0 ∨ i.sig.sign = x.sig.sign) ∧
      0 ≤ f.value ∧ f.value < 1 ∧ i.value + (x.sig.sign : ℚ) * f.value = x.value

/-! ## Comparison -/

/-- CMPEQ is exact value equality (44_compare.md R261, R263). -/
def Obligations.CmpeqIsValueEquality : Prop :=
  ∀ (s : State) (ra rb : Fin 8) (a b : Decimal), s.holds ra a → s.holds rb b →
    exec (.cmpeq ra rb) s =
      .next ({ s with result := if a.value = b.value then 1 else 0 } : State).completed

/-- CMP is the exact order of the values (44_compare.md R264, R267). -/
def Obligations.CmpIsValueOrder : Prop :=
  ∀ (s : State) (ra rb : Fin 8) (a b : Decimal), s.holds ra a → s.holds rb b →
    exec (.cmp ra rb) s =
      .next ({ s with
        result := if a.value < b.value then 0xFFFFFFFFFFFFFFFF
          else if a.value = b.value then 0 else 1 } : State).completed

/-- The six relations that a host reads from CMP's RESULT are those of the values
(30_encoding.md R103). -/
def Obligations.RelationsReadFromCmp : Prop :=
  ∀ (s : State) (ra rb : Fin 8) (a b : Decimal), s.holds ra a → s.holds rb b →
    ∃ t, exec (.cmp ra rb) s = .next t ∧
      (Relation.lt.holds t.result = true ↔ a.value < b.value) ∧
      (Relation.le.holds t.result = true ↔ a.value ≤ b.value) ∧
      (Relation.gt.holds t.result = true ↔ b.value < a.value) ∧
      (Relation.ge.holds t.result = true ↔ b.value ≤ a.value) ∧
      (Relation.eq.holds t.result = true ↔ a.value = b.value) ∧
      (Relation.ne.holds t.result = true ↔ a.value ≠ b.value)

/-! ## Strings -/

/-- PARSE raises E_PARSE exactly for a bad length (45_string.md R282) or for input outside the grammar (R281,
R283, R285), and then changes nothing else. -/
def Obligations.ParseAcceptsExactlyTheGrammar : Prop :=
  ∀ (s : State) (rd : Fin 8),
    exec (.parse rd) s = .next (s.errored 6) ↔
      s.strlen.toNat = 0 ∨ 64 < s.strlen.toNat ∨
      ¬∃ l : Literal, l.Legal ∧ l.bytes = s.str.readBytes 0 s.strlen.toNat

/-- PARSE of a literal gives, through renorm, the decimal of its first 18 significant digits: leading zeros
use no slot, digits after the 18th are dropped, integer digits among them raise the exponent (45_string.md
R283, R284, R285). With at most 18 mantissa digits that is the decimal it spells, in value. From the overflow
bound on PARSE raises E_OVERFLOW; the bound rests on EMAX_ARITH = 253, the model's choice (log entry 7). -/
def Obligations.ParseGivesTheDecimalSpelled : Prop :=
  ∀ (s : State) (rd : Fin 8) (l : Literal), l.Legal →
    l.bytes = s.str.readBytes 0 s.strlen.toNat → s.strlen.toNat ≤ 64 →
    (|l.kept.value| < overflowBound → ∃ w : Word,
      renorm l.kept.sig l.kept.exp = .ok w ∧
      exec (.parse rd) s = .next (s.writeD rd w).completed) ∧
    (overflowBound ≤ |l.kept.value| → exec (.parse rd) s = .next (s.errored 5)) ∧
    (l.int.length + l.fracDigits.length ≤ 18 → l.kept.value = l.decimal.value ∧
      renorm l.decimal.sig l.decimal.exp = renorm l.kept.sig l.kept.exp)

/-- FMT (45_string.md R291, R292, R293, R295): STR gets the canonical string, `0` for zero and else a sign and
the form of R291, zeros after it, STRLEN its length, 1 to 25; nothing else changes. -/
def Obligations.FmtWritesTheString : Prop :=
  ∀ (s : State) (ra : Fin 8) (a : Decimal), s.holds ra a → s.str.wf = true →
    ∃ t, exec (.fmt ra) s = .next t ∧
      t = ({ s with str := t.str, strlen := t.strlen } : State).completed ∧
      1 ≤ t.strlen.toNat ∧ t.strlen.toNat ≤ 25 ∧ t.str.wf = true ∧
      t.strlen.toNat = (fmtCore a).length ∧ t.str.readBytes 0 t.strlen.toNat = fmtCore a ∧
      (a.sig = 0 → t.str.readBytes 0 t.strlen.toNat = [0x30]) ∧
      (a.sig ≠ 0 → ∃ body, formatForm a body ∧
        t.str.readBytes 0 t.strlen.toNat = (if a.sig < 0 then [0x2D] else []) ++ body) ∧
      ∀ j, t.strlen.toNat ≤ j → t.str.read j = 0

/-- FMT then PARSE gives an equal value for every canonical word with an exponent of at most EMAX_ARITH
(45_string.md R297); that this is 253 is the model's choice (log entry 7). -/
def Obligations.FormatThenParseKeepsTheValue : Prop :=
  ∀ (s : State) (ra rd : Fin 8) (a : Decimal), s.holds ra a → a.exp ≤ 253 → s.str.wf = true →
    ∃ t u c, exec (.fmt ra) s = .next t ∧ exec (.parse rd) t = .next u ∧ u.status.err = false ∧
      u.holds rd c ∧ c.value = a.value

/-- Emitting a number four digits at a time from the digit ROM gives the same string as emitting it digit
by digit (10_state.md R43, 45_string.md R290). -/
def Obligations.RomDigitsAreTheDigits : Prop :=
  ∀ chunks m : Nat, 1 ≤ m → m < 10000 ^ chunks → dropLeadingZeros (romDigits chunks m) = digits m

/-- WRSTR loads its text for PARSE, and RDSTR reads back the first LEN bytes of the string buffer
(30_encoding.md R103, 20_memory.md R63). That the accesses stand on the agenda is the model's (log entry 3). LEN is at
most 64 in the RDSTR clause: what a longer LEN gives is the model's choice (log entry 18) and no statement rests
on it. -/
def Obligations.WrstrLoadsTheText : Prop :=
  (∀ (s : State) (text : List Byte), s.status.busy = false → s.str.wf = true → 1 ≤ text.length →
    text.length ≤ 64 →
    ∃ t, Host.Core.run Sys2Proof.core 9 (s.withAgenda (hostWrstr text)) = .next t ∧
      t.inputBytes = .ok text ∧ t.agenda = []) ∧
  (∀ s : State, s.status.busy = false → s.strlen.toNat ≤ 64 →
    rdstrText (hostReads 9 (s.withAgenda hostRdstr)) = s.str.readBytes 0 s.strlen.toNat)

/-! ## Addition, case by case -/

/-- ADD and SUB case by case (42_arith.md R184, R186, R187), with `c` the second operand, negated for SUB. A
zero operand returns the other's word unchanged, a negligible one that of the operand with the larger
exponent; otherwise the aligned sum goes through renorm, and E_OVERFLOW is raised exactly when that sum is at
the overflow bound, which rests on EMAX_ARITH = 253, the model's choice (log entry 7). -/
def Obligations.AddAndSubByCases : Prop :=
  ∀ (s : State) (rd ra rb : Fin 8) (a b c : Decimal) (i : Instr), s.holds ra a → s.holds rb b →
    (i = .add rd ra rb ∧ c = b) ∨ (i = .sub rd ra rb ∧ c = ⟨-b.sig, b.exp⟩) →
    (a.sig = 0 → ∃ w, encodeDecimal c.sig c.exp = .ok w ∧
      exec i s = .next (s.writeD rd w).completed) ∧
    (b.sig = 0 → exec i s = .next (s.writeD rd (s.readD ra)).completed) ∧
    (a.sig ≠ 0 → b.sig ≠ 0 → ∀ hi lo : Decimal, (hi = a ∧ lo = c) ∨ (hi = c ∧ lo = a) →
      lo.exp ≤ hi.exp →
      (negligible hi lo → ∃ w, encodeDecimal hi.sig hi.exp = .ok w ∧
        exec i s = .next (s.writeD rd w).completed) ∧
      (¬negligible hi lo → |(alignedSum hi lo).value| < overflowBound → ∃ w,
        renorm (alignedSum hi lo).sig (alignedSum hi lo).exp = .ok w ∧
        exec i s = .next (s.writeD rd w).completed) ∧
      (¬negligible hi lo → overflowBound ≤ |(alignedSum hi lo).value| →
        exec i s = .next (s.errored 5)))
end

