-- ==== Sys2Proof/Laws/Codec.lean ====
section
/-! SUPPORT. The decimal word encoding: what `encode` and `decode` answer, so that no proof unfolds them
(41_word_codec.md R150 to R153). -/

namespace Sys2Proof.Machine

open Sys2Proof

/-- `sint` undoes `word64` on the signed 64-bit range (00_scope.md R8). -/
theorem sint_word64 {v : Int} (h1 : -2 ^ 63 ≤ v) (h2 : v < 2 ^ 63) : sint (word64 v) = v := by
  unfold sint word64
  rw [BitVec.toInt_ofInt, Int.bmod_eq_of_le] <;> omega

/-- `word64` undoes `sint` (00_scope.md R8). -/
@[simp] theorem word64_sint (w : Word) : word64 (sint w) = w := BitVec.ofInt_toInt

theorem sint_range (w : Word) : -2 ^ 63 ≤ sint w ∧ sint w < 2 ^ 63 := by
  have h1 := BitVec.le_toInt w
  have h2 := BitVec.toInt_lt (x := w)
  simp only [sint]
  omega

theorem sint_eq_zero_iff {w : Word} : sint w = 0 ↔ w = 0 := by
  constructor
  · intro h
    rw [← word64_sint w, h]
    rfl
  · rintro rfl
    rfl

/-- The signed magnitude word of a pair (41_word_codec.md R150): `sgn(s) · (|s| · 2^9 + (e + 256))`. -/
def signedMagnitude (s e : Int) : Int := s.sign * magnitudeWord s e

/-- What `encode` answers on success (41_word_codec.md R152). -/
theorem encodeDecimal_ok_iff {s e : Int} {w : Word} :
    encodeDecimal s e = .ok w ↔
      (s.natAbs < 10 ^ 16 ∧ -256 ≤ e ∧ e ≤ 255) ∧ w = word64 (signedMagnitude s e) := by
  unfold encodeDecimal signedMagnitude
  split
  · next h => simp; intros; omega
  · next h =>
    have h' : s.natAbs < 10 ^ 16 ∧ -256 ≤ e ∧ e ≤ 255 := by omega
    simp only [h', true_and]
    rcases lt_trichotomy s 0 with hs | hs | hs
    · rw [if_neg (by omega), if_neg (by omega), Int.sign_eq_neg_one_of_neg hs]
      simp [eq_comm]
    · subst hs
      rw [if_pos rfl, Int.sign_zero, zero_mul, Except.ok.injEq, eq_comm]
      rfl
    · rw [if_neg (by omega), if_pos (by omega), Int.sign_eq_one_of_pos hs]
      simp [eq_comm]

/-- `encode` fails with E_RANGE, and only out of range (41_word_codec.md R152). -/
theorem encodeDecimal_error_iff {s e : Int} {c : ErrorCode} :
    encodeDecimal s e = .error c ↔
      ¬ (s.natAbs < 10 ^ 16 ∧ -256 ≤ e ∧ e ≤ 255) ∧ c = .range := by
  unfold encodeDecimal
  split
  · next h => simp [eq_comm]; omega
  · next h =>
    split
    · simp; omega
    · split <;> · simp; omega

/-- `encode` succeeds on every pair in range (41_word_codec.md R152). -/
theorem encodeDecimal_of_inRange {s e : Int} (hs : s.natAbs < 10 ^ 16) (h1 : -256 ≤ e)
    (h2 : e ≤ 255) : encodeDecimal s e = .ok (word64 (signedMagnitude s e)) :=
  encodeDecimal_ok_iff.2 ⟨⟨hs, h1, h2⟩, rfl⟩

/-- What `decode` accepts (41_word_codec.md R153), as arithmetic on `sint`. -/
theorem decodeDecimal_some_iff {w : Word} {a : Decimal} :
    decodeDecimal w = some a ↔
      (w = 0 ∧ a = ⟨0, 0⟩) ∨
      (512 ≤ (sint w).natAbs ∧ (sint w).natAbs < 10 ^ 16 * 512 ∧
        a = ⟨(sint w).sign * ((sint w).natAbs / 512 : Nat),
          ((sint w).natAbs % 512 : Nat) - 256⟩) := by
  unfold decodeDecimal
  have hr := sint_range w
  split
  · next h =>
    subst h
    have h0 : sint 0 = 0 := rfl
    rw [h0]
    simp [eq_comm]
  · next h =>
    simp only [h, false_and, false_or]
    split
    · simp; intros; omega
    · split
      · simp; intros; omega
      · split
        · simp; intros; omega
        · simp only [Option.some.injEq]
          constructor
          · rintro rfl
            exact ⟨by omega, by omega, rfl⟩
          · rintro ⟨-, -, rfl⟩
            rfl

end Sys2Proof.Machine
end

