-- ==== Sys2Proof/Laws/State.lean ====
section
/-! SUPPORT. One lemma per field per update of State and Status, true by rfl, so that no proof unfolds a
record update; and reading a decimal register after each update. -/

namespace Sys2Proof.Machine

open Sys2Proof

variable (s : State) (st : Status)

/-! ### writeD -/

@[simp] theorem State.writeD_d (i : Fin 8) (v : Word) :
    (s.writeD i v).d = s.d.set i.val v i.isLt := rfl
@[simp] theorem State.writeD_data (i : Fin 8) (v : Word) : (s.writeD i v).data = s.data := rfl
@[simp] theorem State.writeD_result (i : Fin 8) (v : Word) : (s.writeD i v).result = s.result := rfl
@[simp] theorem State.writeD_aux (i : Fin 8) (v : Word) : (s.writeD i v).aux = s.aux := rfl
@[simp] theorem State.writeD_cmd (i : Fin 8) (v : Word) : (s.writeD i v).cmd = s.cmd := rfl
@[simp] theorem State.writeD_status (i : Fin 8) (v : Word) : (s.writeD i v).status = s.status := rfl
@[simp] theorem State.writeD_strlen (i : Fin 8) (v : Word) : (s.writeD i v).strlen = s.strlen := rfl
@[simp] theorem State.writeD_str (i : Fin 8) (v : Word) : (s.writeD i v).str = s.str := rfl
@[simp] theorem State.writeD_inflight (i : Fin 8) (v : Word) :
    (s.writeD i v).inflight = s.inflight := rfl
@[simp] theorem State.writeD_agenda (i : Fin 8) (v : Word) : (s.writeD i v).agenda = s.agenda := rfl
@[simp] theorem State.writeD_response (i : Fin 8) (v : Word) :
    (s.writeD i v).response = s.response := rfl

/-! ### writeResult -/

@[simp] theorem State.writeResult_d (v : Word) : (s.writeResult v).d = s.d := rfl
@[simp] theorem State.writeResult_data (v : Word) : (s.writeResult v).data = s.data := rfl
@[simp] theorem State.writeResult_result (v : Word) : (s.writeResult v).result = v := rfl
@[simp] theorem State.writeResult_aux (v : Word) : (s.writeResult v).aux = s.aux := rfl
@[simp] theorem State.writeResult_cmd (v : Word) : (s.writeResult v).cmd = s.cmd := rfl
@[simp] theorem State.writeResult_status (v : Word) : (s.writeResult v).status = s.status := rfl
@[simp] theorem State.writeResult_strlen (v : Word) : (s.writeResult v).strlen = s.strlen := rfl
@[simp] theorem State.writeResult_str (v : Word) : (s.writeResult v).str = s.str := rfl
@[simp] theorem State.writeResult_inflight (v : Word) :
    (s.writeResult v).inflight = s.inflight := rfl
@[simp] theorem State.writeResult_agenda (v : Word) : (s.writeResult v).agenda = s.agenda := rfl
@[simp] theorem State.writeResult_response (v : Word) :
    (s.writeResult v).response = s.response := rfl
@[simp] theorem State.writeResult_readD (v : Word) (x : Fin 8) :
    (s.writeResult v).readD x = s.readD x := rfl

/-! ### writeAux -/

@[simp] theorem State.writeAux_d (v : Word) : (s.writeAux v).d = s.d := rfl
@[simp] theorem State.writeAux_data (v : Word) : (s.writeAux v).data = s.data := rfl
@[simp] theorem State.writeAux_result (v : Word) : (s.writeAux v).result = s.result := rfl
@[simp] theorem State.writeAux_aux (v : Word) : (s.writeAux v).aux = v := rfl
@[simp] theorem State.writeAux_cmd (v : Word) : (s.writeAux v).cmd = s.cmd := rfl
@[simp] theorem State.writeAux_status (v : Word) : (s.writeAux v).status = s.status := rfl
@[simp] theorem State.writeAux_strlen (v : Word) : (s.writeAux v).strlen = s.strlen := rfl
@[simp] theorem State.writeAux_str (v : Word) : (s.writeAux v).str = s.str := rfl
@[simp] theorem State.writeAux_inflight (v : Word) : (s.writeAux v).inflight = s.inflight := rfl
@[simp] theorem State.writeAux_agenda (v : Word) : (s.writeAux v).agenda = s.agenda := rfl
@[simp] theorem State.writeAux_response (v : Word) : (s.writeAux v).response = s.response := rfl
@[simp] theorem State.writeAux_readD (v : Word) (x : Fin 8) :
    (s.writeAux v).readD x = s.readD x := rfl

/-! ### writeData -/

@[simp] theorem State.writeData_d (v : Word) : (s.writeData v).d = s.d := rfl
@[simp] theorem State.writeData_data (v : Word) : (s.writeData v).data = v := rfl
@[simp] theorem State.writeData_result (v : Word) : (s.writeData v).result = s.result := rfl
@[simp] theorem State.writeData_aux (v : Word) : (s.writeData v).aux = s.aux := rfl
@[simp] theorem State.writeData_cmd (v : Word) : (s.writeData v).cmd = s.cmd := rfl
@[simp] theorem State.writeData_status (v : Word) : (s.writeData v).status = s.status := rfl
@[simp] theorem State.writeData_strlen (v : Word) : (s.writeData v).strlen = s.strlen := rfl
@[simp] theorem State.writeData_str (v : Word) : (s.writeData v).str = s.str := rfl
@[simp] theorem State.writeData_inflight (v : Word) : (s.writeData v).inflight = s.inflight := rfl
@[simp] theorem State.writeData_agenda (v : Word) : (s.writeData v).agenda = s.agenda := rfl
@[simp] theorem State.writeData_response (v : Word) : (s.writeData v).response = s.response := rfl
@[simp] theorem State.writeData_readD (v : Word) (x : Fin 8) :
    (s.writeData v).readD x = s.readD x := rfl

/-! ### writeStrlen -/

@[simp] theorem State.writeStrlen_d (v : Word) : (s.writeStrlen v).d = s.d := rfl
@[simp] theorem State.writeStrlen_data (v : Word) : (s.writeStrlen v).data = s.data := rfl
@[simp] theorem State.writeStrlen_result (v : Word) : (s.writeStrlen v).result = s.result := rfl
@[simp] theorem State.writeStrlen_aux (v : Word) : (s.writeStrlen v).aux = s.aux := rfl
@[simp] theorem State.writeStrlen_cmd (v : Word) : (s.writeStrlen v).cmd = s.cmd := rfl
@[simp] theorem State.writeStrlen_status (v : Word) : (s.writeStrlen v).status = s.status := rfl
@[simp] theorem State.writeStrlen_strlen (v : Word) : (s.writeStrlen v).strlen = v.setWidth 7 := rfl
@[simp] theorem State.writeStrlen_str (v : Word) : (s.writeStrlen v).str = s.str := rfl
@[simp] theorem State.writeStrlen_inflight (v : Word) :
    (s.writeStrlen v).inflight = s.inflight := rfl
@[simp] theorem State.writeStrlen_agenda (v : Word) : (s.writeStrlen v).agenda = s.agenda := rfl
@[simp] theorem State.writeStrlen_response (v : Word) :
    (s.writeStrlen v).response = s.response := rfl
@[simp] theorem State.writeStrlen_readD (v : Word) (x : Fin 8) :
    (s.writeStrlen v).readD x = s.readD x := rfl

/-! ### writeStr -/

@[simp] theorem State.writeStr_d (m : Memory) : (s.writeStr m).d = s.d := rfl
@[simp] theorem State.writeStr_data (m : Memory) : (s.writeStr m).data = s.data := rfl
@[simp] theorem State.writeStr_result (m : Memory) : (s.writeStr m).result = s.result := rfl
@[simp] theorem State.writeStr_aux (m : Memory) : (s.writeStr m).aux = s.aux := rfl
@[simp] theorem State.writeStr_cmd (m : Memory) : (s.writeStr m).cmd = s.cmd := rfl
@[simp] theorem State.writeStr_status (m : Memory) : (s.writeStr m).status = s.status := rfl
@[simp] theorem State.writeStr_strlen (m : Memory) : (s.writeStr m).strlen = s.strlen := rfl
@[simp] theorem State.writeStr_str (m : Memory) : (s.writeStr m).str = m := rfl
@[simp] theorem State.writeStr_inflight (m : Memory) : (s.writeStr m).inflight = s.inflight := rfl
@[simp] theorem State.writeStr_agenda (m : Memory) : (s.writeStr m).agenda = s.agenda := rfl
@[simp] theorem State.writeStr_response (m : Memory) : (s.writeStr m).response = s.response := rfl
@[simp] theorem State.writeStr_readD (m : Memory) (x : Fin 8) :
    (s.writeStr m).readD x = s.readD x := rfl

/-! ### writeStatus -/

@[simp] theorem State.writeStatus_d (v : Word) : (s.writeStatus v).d = s.d := rfl
@[simp] theorem State.writeStatus_data (v : Word) : (s.writeStatus v).data = s.data := rfl
@[simp] theorem State.writeStatus_result (v : Word) : (s.writeStatus v).result = s.result := rfl
@[simp] theorem State.writeStatus_aux (v : Word) : (s.writeStatus v).aux = s.aux := rfl
@[simp] theorem State.writeStatus_cmd (v : Word) : (s.writeStatus v).cmd = s.cmd := rfl
@[simp] theorem State.writeStatus_status (v : Word) :
    (s.writeStatus v).status = s.status.hostWrite v := rfl
@[simp] theorem State.writeStatus_strlen (v : Word) : (s.writeStatus v).strlen = s.strlen := rfl
@[simp] theorem State.writeStatus_str (v : Word) : (s.writeStatus v).str = s.str := rfl
@[simp] theorem State.writeStatus_inflight (v : Word) :
    (s.writeStatus v).inflight = s.inflight := rfl
@[simp] theorem State.writeStatus_agenda (v : Word) : (s.writeStatus v).agenda = s.agenda := rfl
@[simp] theorem State.writeStatus_response (v : Word) :
    (s.writeStatus v).response = s.response := rfl
@[simp] theorem State.writeStatus_readD (v : Word) (x : Fin 8) :
    (s.writeStatus v).readD x = s.readD x := rfl

/-! ### issue -/

@[simp] theorem State.issue_d (v : Word) : (s.issue v).d = s.d := rfl
@[simp] theorem State.issue_data (v : Word) : (s.issue v).data = s.data := rfl
@[simp] theorem State.issue_result (v : Word) : (s.issue v).result = s.result := rfl
@[simp] theorem State.issue_aux (v : Word) : (s.issue v).aux = s.aux := rfl
@[simp] theorem State.issue_cmd (v : Word) : (s.issue v).cmd = v := rfl
@[simp] theorem State.issue_status (v : Word) : (s.issue v).status = s.status.issued := rfl
@[simp] theorem State.issue_strlen (v : Word) : (s.issue v).strlen = s.strlen := rfl
@[simp] theorem State.issue_str (v : Word) : (s.issue v).str = s.str := rfl
@[simp] theorem State.issue_inflight (v : Word) : (s.issue v).inflight = some v := rfl
@[simp] theorem State.issue_agenda (v : Word) : (s.issue v).agenda = s.agenda := rfl
@[simp] theorem State.issue_response (v : Word) : (s.issue v).response = s.response := rfl
@[simp] theorem State.issue_readD (v : Word) (x : Fin 8) :
    (s.issue v).readD x = s.readD x := rfl

/-! ### succeed -/

@[simp] theorem State.succeed_d : (s.succeed).d = s.d := rfl
@[simp] theorem State.succeed_data : (s.succeed).data = s.data := rfl
@[simp] theorem State.succeed_result : (s.succeed).result = s.result := rfl
@[simp] theorem State.succeed_aux : (s.succeed).aux = s.aux := rfl
@[simp] theorem State.succeed_cmd : (s.succeed).cmd = s.cmd := rfl
@[simp] theorem State.succeed_status : (s.succeed).status = s.status.succeeded := rfl
@[simp] theorem State.succeed_strlen : (s.succeed).strlen = s.strlen := rfl
@[simp] theorem State.succeed_str : (s.succeed).str = s.str := rfl
@[simp] theorem State.succeed_inflight : (s.succeed).inflight = none := rfl
@[simp] theorem State.succeed_agenda : (s.succeed).agenda = s.agenda := rfl
@[simp] theorem State.succeed_response : (s.succeed).response = s.response := rfl
@[simp] theorem State.succeed_readD (x : Fin 8) :
    (s.succeed).readD x = s.readD x := rfl

/-! ### fail -/

@[simp] theorem State.fail_d (c : ErrorCode) : (s.fail c).d = s.d := rfl
@[simp] theorem State.fail_data (c : ErrorCode) : (s.fail c).data = s.data := rfl
@[simp] theorem State.fail_result (c : ErrorCode) : (s.fail c).result = s.result := rfl
@[simp] theorem State.fail_aux (c : ErrorCode) : (s.fail c).aux = s.aux := rfl
@[simp] theorem State.fail_cmd (c : ErrorCode) : (s.fail c).cmd = s.cmd := rfl
@[simp] theorem State.fail_status (c : ErrorCode) : (s.fail c).status = s.status.failed c := rfl
@[simp] theorem State.fail_strlen (c : ErrorCode) : (s.fail c).strlen = s.strlen := rfl
@[simp] theorem State.fail_str (c : ErrorCode) : (s.fail c).str = s.str := rfl
@[simp] theorem State.fail_inflight (c : ErrorCode) : (s.fail c).inflight = none := rfl
@[simp] theorem State.fail_agenda (c : ErrorCode) : (s.fail c).agenda = s.agenda := rfl
@[simp] theorem State.fail_response (c : ErrorCode) : (s.fail c).response = s.response := rfl
@[simp] theorem State.fail_readD (c : ErrorCode) (x : Fin 8) :
    (s.fail c).readD x = s.readD x := rfl

/-! ### respond -/

@[simp] theorem State.respond_d (r : Response) : (s.respond r).d = s.d := rfl
@[simp] theorem State.respond_data (r : Response) : (s.respond r).data = s.data := rfl
@[simp] theorem State.respond_result (r : Response) : (s.respond r).result = s.result := rfl
@[simp] theorem State.respond_aux (r : Response) : (s.respond r).aux = s.aux := rfl
@[simp] theorem State.respond_cmd (r : Response) : (s.respond r).cmd = s.cmd := rfl
@[simp] theorem State.respond_status (r : Response) : (s.respond r).status = s.status := rfl
@[simp] theorem State.respond_strlen (r : Response) : (s.respond r).strlen = s.strlen := rfl
@[simp] theorem State.respond_str (r : Response) : (s.respond r).str = s.str := rfl
@[simp] theorem State.respond_inflight (r : Response) : (s.respond r).inflight = s.inflight := rfl
@[simp] theorem State.respond_agenda (r : Response) : (s.respond r).agenda = s.agenda := rfl
@[simp] theorem State.respond_response (r : Response) : (s.respond r).response = r := rfl
@[simp] theorem State.respond_readD (r : Response) (x : Fin 8) :
    (s.respond r).readD x = s.readD x := rfl

/-! ### withAgenda -/

@[simp] theorem State.withAgenda_d (es : List Event) : (s.withAgenda es).d = s.d := rfl
@[simp] theorem State.withAgenda_withAgenda (es es' : List Event) :
    (s.withAgenda es).withAgenda es' = s.withAgenda es' := rfl
@[simp] theorem State.withAgenda_data (es : List Event) : (s.withAgenda es).data = s.data := rfl
@[simp] theorem State.withAgenda_result (es : List Event) : (s.withAgenda es).result = s.result := rfl
@[simp] theorem State.withAgenda_aux (es : List Event) : (s.withAgenda es).aux = s.aux := rfl
@[simp] theorem State.withAgenda_cmd (es : List Event) : (s.withAgenda es).cmd = s.cmd := rfl
@[simp] theorem State.withAgenda_status (es : List Event) : (s.withAgenda es).status = s.status := rfl
@[simp] theorem State.withAgenda_strlen (es : List Event) : (s.withAgenda es).strlen = s.strlen := rfl
@[simp] theorem State.withAgenda_str (es : List Event) : (s.withAgenda es).str = s.str := rfl
@[simp] theorem State.withAgenda_inflight (es : List Event) : (s.withAgenda es).inflight = s.inflight := rfl
@[simp] theorem State.withAgenda_agenda (es : List Event) : (s.withAgenda es).agenda = es := rfl
@[simp] theorem State.withAgenda_response (es : List Event) : (s.withAgenda es).response = s.response := rfl
@[simp] theorem State.withAgenda_readD (es : List Event) (x : Fin 8) :
    (s.withAgenda es).readD x = s.readD x := rfl

/-! ### writeShift -/

@[simp] theorem State.writeShift_d (r : Int × Nat) : (s.writeShift r).d = s.d := rfl
@[simp] theorem State.writeShift_data (r : Int × Nat) : (s.writeShift r).data = s.data := rfl
@[simp] theorem State.writeShift_result (r : Int × Nat) :
    (s.writeShift r).result = word64 r.1 := rfl
@[simp] theorem State.writeShift_aux (r : Int × Nat) : (s.writeShift r).aux = word64 r.2 := rfl
@[simp] theorem State.writeShift_cmd (r : Int × Nat) : (s.writeShift r).cmd = s.cmd := rfl
@[simp] theorem State.writeShift_status (r : Int × Nat) : (s.writeShift r).status = s.status := rfl
@[simp] theorem State.writeShift_strlen (r : Int × Nat) : (s.writeShift r).strlen = s.strlen := rfl
@[simp] theorem State.writeShift_str (r : Int × Nat) : (s.writeShift r).str = s.str := rfl
@[simp] theorem State.writeShift_inflight (r : Int × Nat) :
    (s.writeShift r).inflight = s.inflight := rfl
@[simp] theorem State.writeShift_agenda (r : Int × Nat) : (s.writeShift r).agenda = s.agenda := rfl
@[simp] theorem State.writeShift_response (r : Int × Nat) :
    (s.writeShift r).response = s.response := rfl
@[simp] theorem State.writeShift_readD (r : Int × Nat) (x : Fin 8) :
    (s.writeShift r).readD x = s.readD x := rfl

/-! ### writeString -/

@[simp] theorem State.writeString_d (bs : List Byte) : (s.writeString bs).d = s.d := rfl
@[simp] theorem State.writeString_data (bs : List Byte) : (s.writeString bs).data = s.data := rfl
@[simp] theorem State.writeString_result (bs : List Byte) :
    (s.writeString bs).result = s.result := rfl
@[simp] theorem State.writeString_aux (bs : List Byte) : (s.writeString bs).aux = s.aux := rfl
@[simp] theorem State.writeString_cmd (bs : List Byte) : (s.writeString bs).cmd = s.cmd := rfl
@[simp] theorem State.writeString_status (bs : List Byte) :
    (s.writeString bs).status = s.status := rfl
@[simp] theorem State.writeString_strlen (bs : List Byte) :
    (s.writeString bs).strlen = (BitVec.ofNat 64 bs.length).setWidth 7 := rfl
@[simp] theorem State.writeString_str (bs : List Byte) :
    (s.writeString bs).str = s.str.fill bs := rfl
@[simp] theorem State.writeString_inflight (bs : List Byte) :
    (s.writeString bs).inflight = s.inflight := rfl
@[simp] theorem State.writeString_agenda (bs : List Byte) :
    (s.writeString bs).agenda = s.agenda := rfl
@[simp] theorem State.writeString_response (bs : List Byte) :
    (s.writeString bs).response = s.response := rfl
@[simp] theorem State.writeString_readD (bs : List Byte) (x : Fin 8) :
    (s.writeString bs).readD x = s.readD x := rfl

/-! ### afterIssue -/

@[simp] theorem State.afterIssue_d (v : Word) : (s.afterIssue v).d = s.d := rfl
@[simp] theorem State.afterIssue_data (v : Word) : (s.afterIssue v).data = s.data := rfl
@[simp] theorem State.afterIssue_result (v : Word) : (s.afterIssue v).result = s.result := rfl
@[simp] theorem State.afterIssue_aux (v : Word) : (s.afterIssue v).aux = s.aux := rfl
@[simp] theorem State.afterIssue_cmd (v : Word) : (s.afterIssue v).cmd = v := rfl
@[simp] theorem State.afterIssue_status (v : Word) :
    (s.afterIssue v).status = s.status.issued := rfl
@[simp] theorem State.afterIssue_strlen (v : Word) : (s.afterIssue v).strlen = s.strlen := rfl
@[simp] theorem State.afterIssue_str (v : Word) : (s.afterIssue v).str = s.str := rfl
@[simp] theorem State.afterIssue_inflight (v : Word) : (s.afterIssue v).inflight = some v := rfl
@[simp] theorem State.afterIssue_agenda (v : Word) :
    (s.afterIssue v).agenda = .unitTurn :: s.agenda := rfl
@[simp] theorem State.afterIssue_response (v : Word) : (s.afterIssue v).response = s.response := rfl
@[simp] theorem State.afterIssue_readD (v : Word) (x : Fin 8) :
    (s.afterIssue v).readD x = s.readD x := rfl

/-! ### afterReset -/

@[simp] theorem State.afterReset_d : (s.afterReset).d = State.reset.d := rfl
@[simp] theorem State.afterReset_data : (s.afterReset).data = State.reset.data := rfl
@[simp] theorem State.afterReset_result : (s.afterReset).result = State.reset.result := rfl
@[simp] theorem State.afterReset_aux : (s.afterReset).aux = State.reset.aux := rfl
@[simp] theorem State.afterReset_cmd : (s.afterReset).cmd = State.reset.cmd := rfl
@[simp] theorem State.afterReset_status : (s.afterReset).status = State.reset.status := rfl
@[simp] theorem State.afterReset_strlen : (s.afterReset).strlen = State.reset.strlen := rfl
@[simp] theorem State.afterReset_str : (s.afterReset).str = State.reset.str := rfl
@[simp] theorem State.afterReset_inflight : (s.afterReset).inflight = State.reset.inflight := rfl
@[simp] theorem State.afterReset_agenda : (s.afterReset).agenda = s.agenda := rfl
@[simp] theorem State.afterReset_response : (s.afterReset).response = State.reset.response := rfl

/-! ### The register file -/

theorem State.readD_eq (r : Fin 8) : s.readD r = s.d[r.val] := rfl

@[simp] theorem State.writeD_readD_same (i : Fin 8) (v : Word) : (s.writeD i v).readD i = v := by
  simp [State.readD_eq]

theorem State.writeD_readD_ne (i r : Fin 8) (v : Word) (h : r ≠ i) :
    (s.writeD i v).readD r = s.readD r := by
  have hne : i.val ≠ r.val := fun hv => h (Fin.ext hv.symm)
  simp [State.readD_eq, hne]

theorem State.writeD_readD (i r : Fin 8) (v : Word) :
    (s.writeD i v).readD r = if r = i then v else s.readD r := by
  split
  next h => rw [h, State.writeD_readD_same]
  next h => exact State.writeD_readD_ne s i r v h

@[simp] theorem State.reset_readD (r : Fin 8) : State.reset.readD r = 0 := by
  simp [State.readD_eq, State.reset]

/-! ### STATUS -/

@[simp] theorem Status.issued_busy : st.issued.busy = true := rfl
@[simp] theorem Status.issued_err : st.issued.err = st.err := rfl
@[simp] theorem Status.issued_serr : st.issued.serr = st.serr := rfl
@[simp] theorem Status.issued_ecode : st.issued.ecode = st.ecode := rfl
@[simp] theorem Status.succeeded_busy : st.succeeded.busy = false := rfl
@[simp] theorem Status.succeeded_err : st.succeeded.err = false := rfl
@[simp] theorem Status.succeeded_serr : st.succeeded.serr = st.serr := rfl
@[simp] theorem Status.succeeded_ecode : st.succeeded.ecode = 0 := rfl
@[simp] theorem Status.failed_busy (c : ErrorCode) : (st.failed c).busy = false := rfl
@[simp] theorem Status.failed_err (c : ErrorCode) : (st.failed c).err = true := rfl
@[simp] theorem Status.failed_serr (c : ErrorCode) : (st.failed c).serr = true := Bool.or_true _
@[simp] theorem Status.failed_ecode (c : ErrorCode) : (st.failed c).ecode = c.code := rfl
@[simp] theorem Status.hostWrite_busy (v : Word) : (st.hostWrite v).busy = st.busy := rfl
@[simp] theorem Status.hostWrite_err (v : Word) : (st.hostWrite v).err = st.err := rfl
@[simp] theorem Status.hostWrite_serr (v : Word) :
    (st.hostWrite v).serr = (st.serr && !v.getLsbD 2) := rfl
@[simp] theorem Status.hostWrite_ecode (v : Word) : (st.hostWrite v).ecode = st.ecode := rfl

end Sys2Proof.Machine
end

