-- ==== Sys2Proof/Laws/Complete.lean ====
section
/-! SUPPORT. Completion and the operand readers: what each can answer, so that a proof about a meaning
peels it apart without unfolding them. -/

namespace Sys2Proof.Machine

open Sys2Proof

/-- A bind of `Except` succeeds exactly when both parts do. -/
theorem except_bind_ok_iff {α β : Type} {x : Except ErrorCode α} {f : α → Except ErrorCode β} {b : β} :
    (x >>= f) = .ok b ↔ ∃ a, x = .ok a ∧ f a = .ok b := by
  cases x <;> simp [bind, Except.bind]

/-- A bind of `Except` raises the first part's error, or the second part's. -/
theorem except_bind_error_iff {α β : Type} {x : Except ErrorCode α} {f : α → Except ErrorCode β}
    {c : ErrorCode} : (x >>= f) = .error c ↔ x = .error c ∨ ∃ a, x = .ok a ∧ f a = .error c := by
  cases x <;> simp [bind, Except.bind]

@[simp] theorem except_ok_bind {α β : Type} (a : α) (f : α → Except ErrorCode β) :
    ((Except.ok a : Except ErrorCode α) >>= f) = f a := rfl

@[simp] theorem except_error_bind {α β : Type} (c : ErrorCode) (f : α → Except ErrorCode β) :
    ((Except.error c : Except ErrorCode α) >>= f) = .error c := rfl

@[simp] theorem except_pure {α : Type} (a : α) : (pure a : Except ErrorCode α) = .ok a := rfl

@[simp] theorem State.complete_ok (s s' : State) : s.complete (.ok s') = .next s'.succeed := rfl

@[simp] theorem State.complete_error (s : State) (c : ErrorCode) :
    s.complete (.error c) = .next (s.fail c) := rfl

/-- All that a completion can answer (10_state.md R39): a success with the effects, or a failure that
discards them. -/
theorem State.complete_eq_next {s t : State} {r : Except ErrorCode State} :
    s.complete r = .next t ↔
      (∃ s', r = .ok s' ∧ t = s'.succeed) ∨ (∃ c, r = .error c ∧ t = s.fail c) := by
  cases r <;> simp [State.complete, eq_comm]

/-- Every meaning is the completion of a rule. -/
theorem exec_is_completion (i : Instr) (s : State) : ∃ r, exec i s = s.complete r := by
  cases i
  case sgn ra => exact ⟨.ok (s.writeResult (if signBit (s.readD ra) then 1 else 0)), rfl⟩
  all_goals exact ⟨_, rfl⟩

/-- What reading a decimal operand answers (10_state.md R32). -/
theorem State.decimal_ok_iff {s : State} {r : Fin 8} {a : Decimal} :
    s.decimal r = .ok a ↔ decodeDecimal (s.readD r) = some a := by
  unfold State.decimal
  cases decodeDecimal (s.readD r) <;> simp

theorem State.decimal_error_iff {s : State} {r : Fin 8} {c : ErrorCode} :
    s.decimal r = .error c ↔ decodeDecimal (s.readD r) = none ∧ c = .operand := by
  unfold State.decimal
  cases decodeDecimal (s.readD r) <;> simp [eq_comm]

/-- What reading PARSE's input answers (45_string.md R282). -/
theorem State.inputBytes_ok_iff {s : State} {bs : List Byte} :
    s.inputBytes = .ok bs ↔
      s.strlen.toNat ≠ 0 ∧ s.strlen.toNat ≤ 64 ∧ bs = s.str.readBytes 0 s.strlen.toNat := by
  unfold State.inputBytes
  split
  · next h =>
    simp only [reduceCtorEq, false_iff]
    rintro ⟨h1, h2, -⟩
    omega
  · next h =>
    rw [Except.ok.injEq, eq_comm]
    exact ⟨fun hb => ⟨by omega, by omega, hb⟩, fun hb => hb.2.2⟩

theorem State.inputBytes_error_iff {s : State} {c : ErrorCode} :
    s.inputBytes = .error c ↔ (s.strlen.toNat = 0 ∨ 64 < s.strlen.toNat) ∧ c = .parse := by
  unfold State.inputBytes
  split
  · next h =>
    rw [Except.error.injEq, eq_comm]
    exact ⟨fun hc => ⟨h, hc⟩, fun hc => hc.2⟩
  · next h =>
    simp only [reduceCtorEq, false_iff]
    rintro ⟨h1, -⟩
    exact h h1

end Sys2Proof.Machine
end

