-- ==== Sys2Proof/Laws/Digits.lean ====
section
/-! SUPPORT. The digit count (00_scope.md R9) and the digit-shift primitives (40_digit_shift.md R127 to
R129): what each computes, so that no proof unfolds the recursion. -/

namespace Sys2Proof.Machine

open Sys2Proof

/-- The recursion counts the digits of every number that its fuel covers. -/
theorem ndigitsFrom_bounds (fuel m : Nat) (hm : m ≠ 0) (hf : m < 10 ^ fuel) :
    10 ^ (ndigitsFrom fuel m - 1) ≤ m ∧ m < 10 ^ ndigitsFrom fuel m ∧ 1 ≤ ndigitsFrom fuel m := by
  induction fuel generalizing m with
  | zero => exact absurd (by simpa using hf) hm
  | succ fuel ih =>
    simp only [ndigitsFrom, hm, if_false]
    by_cases h0 : m / 10 = 0
    · have hz : ndigitsFrom fuel (m / 10) = 0 := by
        rw [h0]; cases fuel <;> simp [ndigitsFrom]
      have : m < 10 := by omega
      simp only [hz]
      refine ⟨?_, ?_, ?_⟩ <;> norm_num <;> omega
    · have hlt : m / 10 < 10 ^ fuel := by
        rw [pow_succ] at hf; omega
      obtain ⟨h1, h2, h3⟩ := ih (m / 10) h0 hlt
      obtain ⟨n, hn⟩ : ∃ n, ndigitsFrom fuel (m / 10) = n + 1 :=
        ⟨_, (Nat.succ_pred_eq_of_pos h3).symm⟩
      rw [hn] at h1 h2 ⊢
      simp only [Nat.add_sub_cancel] at h1 ⊢
      refine ⟨?_, ?_, by omega⟩
      · rw [pow_succ]; omega
      · rw [pow_succ]; omega

theorem lt_ten_pow_log2 (m : Nat) : m < 10 ^ (m.log2 + 1) :=
  lt_of_lt_of_le Nat.lt_log2_self (Nat.pow_le_pow_left (by norm_num) _)

/-- `ndigits(m)` brackets `m` between powers of ten (00_scope.md R9). -/
theorem ndigits_bounds {m : Nat} (hm : m ≠ 0) :
    10 ^ (ndigits m - 1) ≤ m ∧ m < 10 ^ ndigits m ∧ 1 ≤ ndigits m :=
  ndigitsFrom_bounds _ m hm (lt_ten_pow_log2 m)

@[simp] theorem ndigits_zero : ndigits 0 = 0 := by decide

/-- `ndigits(m)` is the least n with `m < 10^n` (00_scope.md R9). -/
theorem ndigits_le_iff {m n : Nat} (hm : m ≠ 0) : ndigits m ≤ n ↔ m < 10 ^ n := by
  obtain ⟨h1, h2, h3⟩ := ndigits_bounds hm
  constructor
  · intro h
    exact lt_of_lt_of_le h2 (Nat.pow_le_pow_right (by norm_num) h)
  · intro h
    by_contra hc
    have : 10 ^ n ≤ 10 ^ (ndigits m - 1) := Nat.pow_le_pow_right (by norm_num) (by omega)
    omega

theorem lt_ndigits_iff {m n : Nat} (hm : m ≠ 0) : n < ndigits m ↔ 10 ^ n ≤ m := by
  have := ndigits_le_iff (n := n) hm
  omega

/-- The digit count of a number between two consecutive powers of ten. -/
theorem ndigits_eq {m n : Nat} (h1 : 10 ^ n ≤ m) (h2 : m < 10 ^ (n + 1)) : ndigits m = n + 1 := by
  have hm : m ≠ 0 := by
    have := Nat.pow_pos (n := n) (show 0 < 10 by norm_num)
    omega
  have ha := (ndigits_le_iff (n := n + 1) hm).2 h2
  have hb := (lt_ndigits_iff (n := n) hm).2 h1
  omega

/-- Multiplying by a power of ten adds that many digits. -/
theorem ndigits_mul_pow {m : Nat} (hm : m ≠ 0) (k : Nat) : ndigits (m * 10 ^ k) = ndigits m + k := by
  obtain ⟨h1, h2, h3⟩ := ndigits_bounds hm
  obtain ⟨n, hn⟩ : ∃ n, ndigits m = n + 1 := ⟨_, (Nat.succ_pred_eq_of_pos h3).symm⟩
  rw [hn] at h1 h2 ⊢
  simp only [Nat.add_sub_cancel] at h1
  rw [show n + 1 + k = (n + k) + 1 by omega]
  apply ndigits_eq
  · rw [pow_add]; exact Nat.mul_le_mul_right _ h1
  · rw [show n + k + 1 = (n + 1) + k by omega, pow_add]
    exact Nat.mul_lt_mul_of_pos_right h2 (by positivity)

/-- What `shiftUpToDigits` computes for a nonzero value of at most `t` digits (40_digit_shift.md R128). -/
theorem shiftUpToDigits_digits {v : Int} {t : Nat} (hv : v ≠ 0) (ht : ndigits v.natAbs ≤ t) :
    ndigits (shiftUpToDigits v t).1.natAbs = t := by
  have h : v.natAbs ≠ 0 := by omega
  simp only [shiftUpToDigits, Int.natAbs_mul, Int.natAbs_pow]
  rw [show (10 : Int).natAbs = 10 from rfl, ndigits_mul_pow h]
  omega

/-- The capped shift never shifts by more than its limit (40_digit_shift.md R129). -/
theorem shiftUpToDigitsCapped_le (v : Int) (limit : Nat) :
    (shiftUpToDigitsCapped v limit).2 ≤ limit := by
  unfold shiftUpToDigitsCapped
  split <;> simp

/-- The capped shift multiplies by ten to the power of the count it reports (40_digit_shift.md R129). -/
theorem shiftUpToDigitsCapped_value (v : Int) (limit : Nat) :
    (shiftUpToDigitsCapped v limit).1 = v * 10 ^ (shiftUpToDigitsCapped v limit).2 := by
  unfold shiftUpToDigitsCapped
  split <;> simp_all

/-- `scaleByDigits` of 0 is 0 (40_digit_shift.md R127). -/
@[simp] theorem scaleByDigits_zero (sh : Int) : scaleByDigits 0 sh = 0 := by
  simp [scaleByDigits]

end Sys2Proof.Machine
end

