-- ==== Sys2Proof/Laws/Arith.lean ====
section
/-! SUPPORT. The steps of renorm (42_arith.md R180), and the cases of the cores of addition, multiplication
and division (R184, R189, R192): what each part computes, so that no proof unfolds them. -/

namespace Sys2Proof.Machine

open Sys2Proof

/-! ### The steps of renorm -/

/-- renorm step 2 leaves a magnitude of at most 16 digits alone. -/
theorem roundToSixteen_short {m : Nat} (e : Int) (h : m < 10 ^ 16) : roundToSixteen m e = (m, e) := by
  unfold roundToSixteen
  rcases Nat.eq_zero_or_pos m with rfl | hm
  · simp
  · rw [if_neg (by rw [not_lt]; exact (ndigits_le_iff (by omega)).2 h)]

/-- The quotient rounded half up, bracketed. -/
theorem round_half_bounds (m p : Nat) :
    2 * ((if 2 * (m % p) ≥ p then m / p + 1 else m / p) * p) ≤ 2 * m + p ∧
      (0 < p → 2 * m < 2 * ((if 2 * (m % p) ≥ p then m / p + 1 else m / p) * p) + p) := by
  have h := Nat.div_add_mod m p
  have hc : p * (m / p) = m / p * p := Nat.mul_comm _ _
  split
  · rw [Nat.add_mul]
    refine ⟨by omega, fun hp => ?_⟩
    have := Nat.mod_lt m hp
    omega
  · omega

/-- renorm step 2 on more than 16 digits: 16 digits come out, `p` digits were dropped, and the new
magnitude is the old one rounded half up at that place (42_arith.md R180, R182 item 3). -/
theorem roundToSixteen_long {m : Nat} (e : Int) (h : 10 ^ 16 ≤ m) :
    ∃ p k : Nat, 10 ^ (p + 15) ≤ m ∧ m < 10 ^ (p + 16) ∧
      (roundToSixteen m e).2 = e + k ∧ (k = p ∨ k = p + 1) ∧ 1 ≤ p ∧
      10 ^ 15 ≤ (roundToSixteen m e).1 ∧ (roundToSixteen m e).1 < 10 ^ 16 ∧
      2 * ((roundToSixteen m e).1 * 10 ^ k) ≤ 2 * m + 10 ^ p ∧
      2 * m < 2 * ((roundToSixteen m e).1 * 10 ^ k) + 10 ^ p := by
  have hm : m ≠ 0 := by omega
  have h16 : 16 < ndigits m := (lt_ndigits_iff hm).2 h
  obtain ⟨h1, h2, -⟩ := ndigits_bounds hm
  obtain ⟨p, hp⟩ : ∃ p, ndigits m = p + 16 := ⟨ndigits m - 16, by omega⟩
  have h1' : 10 ^ (p + 15) ≤ m := by rwa [hp, show p + 16 - 1 = p + 15 by omega] at h1
  have h2' : m < 10 ^ (p + 16) := by rwa [hp] at h2
  have hpos : 0 < 10 ^ p := by positivity
  obtain ⟨hb1, hb2⟩ := round_half_bounds m (10 ^ p)
  have hb2 := hb2 hpos
  have hq1 : 10 ^ 15 ≤ m / 10 ^ p := by
    rw [Nat.le_div_iff_mul_le hpos, ← pow_add, Nat.add_comm]; exact h1'
  have hq2 : m / 10 ^ p < 10 ^ 16 := by
    rw [Nat.div_lt_iff_lt_mul hpos, ← pow_add, Nat.add_comm]; exact h2'
  have hq : 10 ^ 15 ≤ (if 2 * (m % 10 ^ p) ≥ 10 ^ p then m / 10 ^ p + 1 else m / 10 ^ p) ∧
      (if 2 * (m % 10 ^ p) ≥ 10 ^ p then m / 10 ^ p + 1 else m / 10 ^ p) ≤ 10 ^ 16 := by
    split <;> omega
  unfold roundToSixteen
  rw [if_pos h16, hp, Nat.add_sub_cancel]
  simp only
  generalize (if 2 * (m % 10 ^ p) ≥ 10 ^ p then m / 10 ^ p + 1 else m / 10 ^ p) = q at *
  by_cases hq16 : q = 10 ^ 16
  · rw [if_pos hq16]
    subst hq16
    refine ⟨p, p + 1, h1', h2', by push_cast; ring, .inr rfl, by omega, le_refl _, by norm_num, ?_, ?_⟩ <;>
    · rw [pow_succ]
      omega
  · rw [if_neg hq16]
    exact ⟨p, p, h1', h2', rfl, .inl rfl, by omega, hq.1, by omega, hb1, hb2⟩

/-- renorm step 3 with an exponent that is not too large (42_arith.md R180). -/
theorem denormalise_of_le {m : Nat} {e : Int} (h : e ≤ 253) : denormalise m e = .ok (m, e) := by
  unfold denormalise
  rw [if_neg (by simp only [Config.emaxArith]; omega)]

/-- renorm step 3 with an exponent that is too large (42_arith.md R180): 16 digits, or E_OVERFLOW. -/
theorem denormalise_of_gt {m : Nat} {e : Int} (h : 253 < e) :
    denormalise m e =
      if e - (16 - ndigits m : Nat) > 253 then .error .overflow
      else .ok (m * 10 ^ (16 - ndigits m), e - (16 - ndigits m : Nat)) := by
  unfold denormalise
  rw [if_pos (by simp only [Config.emaxArith]; omega)]
  simp only [Config.emaxArith, shiftUpToDigits, Int.natAbs_mul, Int.natAbs_pow, Int.natAbs_natCast]
  rfl

/-- renorm step 3 raises no error but E_OVERFLOW. -/
theorem denormalise_error {m : Nat} {e : Int} {c : ErrorCode} (h : denormalise m e = .error c) :
    c = .overflow := by
  unfold denormalise at h
  split at h
  · simp only at h
    split at h
    · exact (Except.error.inj h).symm
    · cases h
  · cases h

/-- renorm step 4 with an exponent that is not too small. -/
theorem shiftOut_of_le {m : Nat} {e : Int} (h : -256 ≤ e) : shiftOut m e = (m, e) := by
  unfold shiftOut
  rw [if_neg (by omega)]

/-- renorm step 4 with an exponent that is too small: digits are truncated off (42_arith.md R182 item 3). -/
theorem shiftOut_of_lt {m : Nat} {e : Int} (hm : m < 10 ^ 16) (h : e < -256) :
    shiftOut m e = (m / 10 ^ (-256 - e).toNat, -256) := by
  unfold shiftOut
  rw [if_pos h]
  congr 1
  unfold scaleByDigits
  split
  · next hlt =>
    symm
    refine Nat.div_eq_of_lt (lt_of_lt_of_le hm ?_)
    exact Nat.pow_le_pow_right (by norm_num) (by omega)
  · next hge =>
    rw [if_pos (by omega), show -(e + 256) = -256 - e by omega]
    rw [Int.tdiv_eq_ediv_of_nonneg (by positivity)]
    norm_cast

/-- renorm step 4 and the encoding after it are the encoding of the pair truncated at EMIN
(42_arith.md R180). -/
theorem encode_shiftOut {s : Int} {m : Nat} (e : Int) (hs : s ≠ 0) (h0 : m ≠ 0) (hm : m < 10 ^ 16) :
    (if (shiftOut m e).1 = 0 then .ok 0
      else encodeDecimal (s.sign * (shiftOut m e).1) (shiftOut m e).2) =
    encodeDecimal (truncatedAtEmin (s.sign * m) e).sig (truncatedAtEmin (s.sign * m) e).exp := by
  unfold truncatedAtEmin
  by_cases he : e < -256
  · rw [shiftOut_of_lt hm he, if_pos he]
    simp only
    have hd : Int.tdiv (s.sign * m) (10 ^ (-256 - e).toNat) =
        s.sign * (m / 10 ^ (-256 - e).toNat : Nat) := by
      rcases Int.lt_or_gt_of_ne hs with h | h
      · simp only [Int.sign_eq_neg_one_of_neg h, Int.neg_mul, Int.one_mul, Int.neg_tdiv]
        congr 1
      · simp only [Int.sign_eq_one_of_pos h, Int.one_mul]
        rw [Int.tdiv_eq_ediv_of_nonneg (by positivity)]
        norm_cast
    rw [hd]
    split
    · next h => rw [h]; simp [encodeDecimal]
    · rfl
  · rw [shiftOut_of_le (by omega), if_neg he]
    simp only
    rw [if_neg h0]

/-- renorm of zero (42_arith.md R182 item 1). -/
@[simp] theorem renorm_zero (e : Int) : renorm 0 e = .ok 0 := by
  simp [renorm]

/-- renorm of a nonzero pair, step by step (42_arith.md R180). -/
theorem renorm_of_ne_zero {s : Int} (hs : s ≠ 0) (e : Int) :
    renorm s e =
      (denormalise (roundToSixteen s.natAbs e).1 (roundToSixteen s.natAbs e).2 >>= fun fitted =>
        if (shiftOut fitted.1 fitted.2).1 = 0 then .ok 0
        else encodeDecimal (s.sign * (shiftOut fitted.1 fitted.2).1) (shiftOut fitted.1 fitted.2).2) := by
  unfold renorm
  rw [if_neg hs]

/-! ### The cores -/

/-- Addition of zero (42_arith.md R184). -/
theorem addCore_zero_left {a b : Decimal} (h : a.sig = 0) :
    addCore a b = encodeDecimal b.sig b.exp := by
  simp [addCore, h]

theorem addCore_zero_right {a b : Decimal} (ha : a.sig ≠ 0) (h : b.sig = 0) :
    addCore a b = encodeDecimal a.sig a.exp := by
  simp [addCore, ha, h]

/-- Addition at equal exponents (42_arith.md R184). -/
theorem addCore_same_exp {a b : Decimal} (ha : a.sig ≠ 0) (hb : b.sig ≠ 0) (h : a.exp = b.exp) :
    addCore a b = renorm (a.sig + b.sig) a.exp := by
  simp [addCore, ha, hb, h]

/-- Addition with the larger exponent on the left (42_arith.md R184). -/
theorem addCore_of_gt {a b : Decimal} (ha : a.sig ≠ 0) (hb : b.sig ≠ 0) (h : b.exp < a.exp) :
    addCore a b = addAligned a b := by
  unfold addCore
  rw [if_neg ha, if_neg hb, if_neg (by omega), if_pos h]

/-- Addition with the larger exponent on the right (42_arith.md R184). -/
theorem addCore_of_lt {a b : Decimal} (ha : a.sig ≠ 0) (hb : b.sig ≠ 0) (h : a.exp < b.exp) :
    addCore a b = addAligned b a := by
  unfold addCore
  rw [if_neg ha, if_neg hb, if_neg (by omega), if_neg (by omega)]

/-- The digits by which the aligned addition moves its larger-exponent operand (42_arith.md R184). -/
theorem addAligned_far {hi lo : Decimal} (h : 32 < (hi.exp - lo.exp).toNat) :
    addAligned hi lo = encodeDecimal hi.sig hi.exp := by
  unfold addAligned
  rw [if_pos h]

/-- The aligned addition with `k` digits moved up and `r` digits of the other operand dropped
(42_arith.md R184). -/
theorem addAligned_near {hi lo : Decimal} (hh : hi.sig ≠ 0) (h : (hi.exp - lo.exp).toNat ≤ 32) :
    addAligned hi lo =
      let gap := (hi.exp - lo.exp).toNat
      let k := min (17 - ndigits hi.sig.natAbs) gap
      if gap - k > 16 then encodeDecimal hi.sig hi.exp
      else renorm (hi.sig * 10 ^ k + Int.tdiv lo.sig (10 ^ (gap - k))) (hi.exp - k) := by
  unfold addAligned
  rw [if_neg (by omega)]
  simp only [shiftUpToDigitsCapped, hh, if_false]

/-- A negligible operand leaves the other one's word, in both orders (42_arith.md R184, R185 items 3 and 4). -/
theorem addCore_negligible {hi lo : Decimal} (hh : hi.sig ≠ 0) (hl : lo.sig ≠ 0) (h : negligible hi lo) :
    addCore hi lo = encodeDecimal hi.sig hi.exp ∧ addCore lo hi = encodeDecimal hi.sig hi.exp := by
  have hgt : lo.exp < hi.exp := by
    unfold negligible at h
    omega
  rw [addCore_of_gt hh hl hgt, addCore_of_lt hl hh hgt, and_self]
  by_cases hf : 32 < (hi.exp - lo.exp).toNat
  · exact addAligned_far hf
  · rw [addAligned_near hh (by omega)]
    simp only
    rw [if_pos]
    rcases h with h | h
    · omega
    · exact h

/-- Any other two nonzero operands are aligned, added and handed to renorm, in both orders
(42_arith.md R184, R185 item 4). -/
theorem addCore_aligned {hi lo : Decimal} (hh : hi.sig ≠ 0) (hl : lo.sig ≠ 0) (he : lo.exp ≤ hi.exp)
    (h : ¬negligible hi lo) :
    addCore hi lo = renorm (alignedSum hi lo).sig (alignedSum hi lo).exp ∧
      addCore lo hi = renorm (alignedSum hi lo).sig (alignedSum hi lo).exp := by
  obtain ⟨h32, h16⟩ := not_or.1 h
  rcases Int.lt_or_eq_of_le he with hgt | heq
  · rw [addCore_of_gt hh hl hgt, addCore_of_lt hl hh hgt, and_self, addAligned_near hh (by omega)]
    exact if_neg h16
  · rw [addCore_same_exp hh hl heq.symm, addCore_same_exp hl hh heq, Int.add_comm lo.sig, heq, and_self]
    simp [alignedSum, alignShift, heq]

@[simp] theorem Decimal.negated_sig (a : Decimal) : a.negated.sig = -a.sig := rfl

@[simp] theorem Decimal.negated_exp (a : Decimal) : a.negated.exp = a.exp := rfl

/-- The exact value of a negated operand (42_arith.md R187). -/
theorem Decimal.negated_value (a : Decimal) : a.negated.value = -a.value := by
  simp [Decimal.value]

/-- The value of a pair is zero exactly when its significand is. -/
theorem Decimal.value_eq_zero_iff (a : Decimal) : a.value = 0 ↔ a.sig = 0 := by
  have : (10 : ℚ) ^ a.exp ≠ 0 := zpow_ne_zero _ (by norm_num)
  simp [Decimal.value, this]

/-- Multiplication of nonzero operands (42_arith.md R189). -/
theorem mulCore_of_ne_zero {a b : Decimal} (ha : a.sig ≠ 0) (hb : b.sig ≠ 0) :
    mulCore a b = renorm (a.sig * b.sig) (a.exp + b.exp) := by
  simp [mulCore, ha, hb]

/-- Multiplication by zero (42_arith.md R189). -/
theorem mulCore_of_zero {a b : Decimal} (h : a.sig = 0 ∨ b.sig = 0) : mulCore a b = .ok 0 := by
  unfold mulCore
  rw [if_pos h]

/-- The search for divCore's shift: it stops at the first count that works, or when the fuel is out. -/
theorem divShiftFrom_spec (fuel t a b : Nat) :
    t ≤ divShiftFrom fuel t a b ∧ divShiftFrom fuel t a b ≤ t + fuel ∧
      (∀ u, t ≤ u → u < divShiftFrom fuel t a b → a * 10 ^ u < 10 ^ 15 * b) ∧
      (divShiftFrom fuel t a b = t + fuel ∨
        10 ^ 15 * b ≤ a * 10 ^ divShiftFrom fuel t a b) := by
  induction fuel generalizing t with
  | zero => exact ⟨le_refl t, le_refl t, fun u h1 h2 => absurd h2 (by simp only [divShiftFrom]; omega), .inl rfl⟩
  | succ fuel ih =>
    simp only [divShiftFrom]
    split
    · next h => exact ⟨le_refl t, by omega, fun u h1 h2 => by omega, .inr h⟩
    · next h =>
      obtain ⟨h1, h2, h3, h4⟩ := ih (t + 1)
      refine ⟨by omega, by omega, fun u hu1 hu2 => ?_, ?_⟩
      · rcases Nat.eq_or_lt_of_le hu1 with rfl | hlt
        · omega
        · exact h3 u hlt hu2
      · rcases h4 with h4 | h4
        · exact .inl (by omega)
        · exact .inr h4

/-- Division of nonzero operands (42_arith.md R192). -/
theorem divCore_of_ne_zero {a b : Decimal} (ha : a.sig ≠ 0) (hb : b.sig ≠ 0) :
    divCore a b =
      let t := divShift a.sig.natAbs b.sig.natAbs
      let q := divQuotient a.sig.natAbs b.sig.natAbs
      if q = 10 ^ 16 then renorm (a.sig.sign * b.sig.sign * 10 ^ 15) (a.exp - b.exp - t + 1)
      else renorm (a.sig.sign * b.sig.sign * q) (a.exp - b.exp - t) := by
  unfold divCore
  rw [if_neg hb, if_neg ha]

theorem divCore_zero_divisor {a b : Decimal} (hb : b.sig = 0) : divCore a b = .error .divZero := by
  unfold divCore
  rw [if_pos hb]

theorem divCore_zero_dividend {a b : Decimal} (ha : a.sig = 0) (hb : b.sig ≠ 0) :
    divCore a b = .ok 0 := by
  unfold divCore
  rw [if_neg hb, if_pos ha]

/-- The shift core on a nonzero operand (42_arith.md R198). -/
theorem shiftCore_of_ne_zero {a : Decimal} (ha : a.sig ≠ 0) (n : Int) :
    shiftCore a n = renorm a.sig (a.exp + n) := by
  simp [shiftCore, ha]

theorem shiftCore_of_zero {a : Decimal} (ha : a.sig = 0) (n : Int) : shiftCore a n = .ok 0 := by
  simp [shiftCore, ha]

end Sys2Proof.Machine
end

