-- ==== Sys2Proof/Laws/Bus.lean ====
section
/-! SUPPORT. The host window: which register an offset selects, and all that an access can answer
(20_memory.md R60 to R67). -/

namespace Sys2Proof.Machine

open Sys2Proof

/-- An offset inside the window is the one its address has (20_memory.md R60). -/
theorem windowOffset_base {off : Nat} (h : off < 256) : windowOffset (Config.base + off) = some off := by
  unfold windowOffset
  rw [if_pos (by omega)]
  congr 1
  omega

/-- The addresses inside the window (20_memory.md R60). -/
theorem windowOffset_some_iff {addr off : Nat} :
    windowOffset addr = some off ↔ off < 256 ∧ addr = Config.base + off := by
  unfold windowOffset
  split
  · rw [Option.some.injEq]; omega
  · simp only [reduceCtorEq, false_iff]; omega

theorem BusReg.offset_bounds (r : BusReg) : r.offset < 0xC0 ∧ r.offset % 8 = 0 := by
  cases r with
  | d i => simp only [BusReg.offset]; omega
  | str k => simp only [BusReg.offset]; omega
  | _ => decide

theorem regAt_offset (r : BusReg) : regAt r.offset = some r := by
  cases r with
  | d i => revert i; decide
  | str k => revert k; decide
  | _ => decide

/-- Two registers share no offset (20_memory.md R61). -/
theorem BusReg.offset_inj {r r' : BusReg} (h : r.offset = r'.offset) : r = r' := by
  have := regAt_offset r
  rw [h, regAt_offset] at this
  exact (Option.some.inj this).symm

/-- The offset of a register inside the map is its own (20_memory.md R61). -/
theorem offset_of_regAt {off : Nat} {r : BusReg} (h8 : off % 8 = 0) (h : regAt off = some r) :
    off = r.offset := by
  have hlt : off < 0xC0 := by
    by_contra hc
    unfold regAt at h
    repeat rw [if_neg (by omega)] at h
    exact absurd h (by simp)
  have key : ∀ n < 24, ∀ r, regAt (8 * n) = some r → 8 * n = r.offset := by decide +revert
  have := key (off / 8) (by omega) r (by rwa [Nat.mul_div_cancel' (Nat.dvd_of_mod_eq_zero h8)])
  omega

/-- The accesses that select a register: 8 bytes at its offset (20_memory.md R61, R64, R65). -/
theorem selectReg_some_iff {off size : Nat} {r : BusReg} :
    selectReg off size = some r ↔ size = 8 ∧ off = r.offset := by
  unfold selectReg
  constructor
  · split
    · next h => exact fun hr => ⟨h.1, offset_of_regAt h.2 hr⟩
    · simp
  · rintro ⟨rfl, rfl⟩
    rw [if_pos ⟨rfl, r.offset_bounds.2⟩, regAt_offset]

/-- The accesses that select none: a size other than 8, an offset that is no multiple of 8, or a reserved
one (20_memory.md R62, R66 items 1 and 2). -/
theorem selectReg_none_iff {off size : Nat} :
    selectReg off size = none ↔
      size ≠ 8 ∨ off % 8 ≠ 0 ∨ (0x30 ≤ off ∧ off < 0x40) ∨ 0xC0 ≤ off := by
  unfold selectReg
  split
  · next h =>
    unfold regAt
    split_ifs <;> simp only [false_iff, true_iff] <;> omega
  · simp only [true_iff]
    omega

/-- A read of a register (20_memory.md R66, R67). -/
theorem busRead_offset (s : State) (r : BusReg) :
    busRead s r.offset 8 =
      if readAllowed s r then s.respond (.readData (readReg s r)) else s.respond (.readError 0) := by
  unfold busRead
  rw [selectReg_some_iff.2 ⟨rfl, rfl⟩]

/-- A write to a register (20_memory.md R66, R67). -/
theorem busWrite_offset (s : State) (r : BusReg) (v : Word) :
    busWrite s r.offset 8 v =
      if writeAllowed s r then (writeReg s v r).respond .writeAccepted
      else s.respond .writeError := by
  unfold busWrite
  rw [selectReg_some_iff.2 ⟨rfl, rfl⟩]

/-- While a command is in flight only STATUS can be read (10_state.md R38). -/
theorem readAllowed_iff {s : State} {r : BusReg} :
    readAllowed s r = true ↔ s.status.busy = false ∨ r = .status := by
  simp [readAllowed]

/-- RESULT and AUX are never written, and nothing is while a command is in flight (20_memory.md R66). -/
theorem writeAllowed_iff {s : State} {r : BusReg} :
    writeAllowed s r = true ↔ s.status.busy = false ∧ r ≠ .result ∧ r ≠ .aux := by
  simp [writeAllowed, and_assoc]

theorem busRead_accepted {s : State} {r : BusReg} (h : s.status.busy = false ∨ r = .status) :
    busRead s r.offset 8 = s.respond (.readData (readReg s r)) := by
  rw [busRead_offset, if_pos (readAllowed_iff.2 h)]

theorem busRead_rejected {s : State} {r : BusReg} (hb : s.status.busy = true) (hr : r ≠ .status) :
    busRead s r.offset 8 = s.respond (.readError 0) := by
  rw [busRead_offset, if_neg (by simp [readAllowed, hb, hr])]

theorem busWrite_accepted {s : State} {r : BusReg} (v : Word) (hb : s.status.busy = false)
    (h1 : r ≠ .result) (h2 : r ≠ .aux) :
    busWrite s r.offset 8 v = (writeReg s v r).respond .writeAccepted := by
  rw [busWrite_offset, if_pos (writeAllowed_iff.2 ⟨hb, h1, h2⟩)]

theorem busWrite_rejected {s : State} {r : BusReg} (v : Word)
    (h : s.status.busy = true ∨ r = .result ∨ r = .aux) :
    busWrite s r.offset 8 v = s.respond .writeError := by
  rw [busWrite_offset, if_neg]
  rcases h with h | h | h <;> simp [writeAllowed, h]

/-- All that a read can answer; it changes no state (20_memory.md R67). -/
theorem busRead_cases (s : State) (off size : Nat) :
    (∃ r, size = 8 ∧ off = r.offset ∧ readAllowed s r = true ∧
      busRead s off size = s.respond (.readData (readReg s r))) ∨
    busRead s off size = s.respond (.readError 0) := by
  unfold busRead
  split
  · next r h =>
    obtain ⟨h1, h2⟩ := selectReg_some_iff.1 h
    split
    · next ha => exact .inl ⟨r, h1, h2, ha, rfl⟩
    · exact .inr rfl
  · exact .inr rfl

/-- All that a write can answer. -/
theorem busWrite_cases (s : State) (off size : Nat) (v : Word) :
    (∃ r, size = 8 ∧ off = r.offset ∧ writeAllowed s r = true ∧
      busWrite s off size v = (writeReg s v r).respond .writeAccepted) ∨
    busWrite s off size v = s.respond .writeError := by
  unfold busWrite
  split
  · next r h =>
    obtain ⟨h1, h2⟩ := selectReg_some_iff.1 h
    split
    · next ha => exact .inl ⟨r, h1, h2, ha, rfl⟩
    · exact .inr rfl
  · exact .inr rfl

end Sys2Proof.Machine
end

