-- ==== Sys2Proof/Laws/Compare.lean ====
section
/-! SUPPORT. Comparison: the key that ordering compares (44_compare.md R265) and the cases of eqCore
(R262). -/

namespace Sys2Proof.Machine

open Sys2Proof

variable {a b : Decimal}

/-- The key of a nonzero pair: its sign, a 16-digit significand, and the same value (44_compare.md R265). -/
theorem cmpKey_spec (ha : a.sig ≠ 0) (h16 : a.sig.natAbs < 10 ^ 16) :
    (cmpKey a).sign = a.sig.sign ∧ (cmpKey a).sig.sign = a.sig.sign ∧
      10 ^ 15 ≤ (cmpKey a).sig.natAbs ∧ (cmpKey a).sig.natAbs < 10 ^ 16 ∧
      (⟨(cmpKey a).sig, (cmpKey a).exp⟩ : Decimal).value = a.value := by
  have hm : a.sig.natAbs ≠ 0 := by omega
  obtain ⟨h1, h2, h3⟩ := ndigits_bounds hm
  have hle : ndigits a.sig.natAbs ≤ 16 := (ndigits_le_iff hm).2 h16
  unfold cmpKey
  rw [if_neg ha]
  simp only [Int.natAbs_mul, Int.natAbs_pow, Int.sign_mul]
  rw [show (10 : Int).natAbs = 10 from rfl]
  generalize ndigits a.sig.natAbs = n at *
  refine ⟨trivial, ?_, ?_, ?_, ?_⟩
  · rw [Int.sign_eq_one_of_pos (a := 10 ^ (16 - n)) (by positivity), mul_one]
  · calc 10 ^ 15 = 10 ^ (n - 1) * 10 ^ (16 - n) := by rw [← pow_add]; congr 1; omega
      _ ≤ a.sig.natAbs * 10 ^ (16 - n) := Nat.mul_le_mul_right _ h1
  · calc a.sig.natAbs * 10 ^ (16 - n) < 10 ^ n * 10 ^ (16 - n) :=
          Nat.mul_lt_mul_of_pos_right h2 (by positivity)
      _ = 10 ^ 16 := by rw [← pow_add]; congr 1; omega
  · simp only [Decimal.value]
    push_cast
    rw [mul_assoc, ← zpow_natCast, ← zpow_add₀ (by norm_num)]
    congr 2
    omega

theorem cmpKey_zero (ha : a.sig = 0) : cmpKey a = ⟨0, 0, 0⟩ := by
  simp [cmpKey, ha]

/-- Equal words are equal values (44_compare.md R262). -/
theorem eqCore_same (w : Word) : eqCore w a w b = true := by
  simp [eqCore]

/-- With a zero operand only two zeros are equal (44_compare.md R262). -/
theorem eqCore_zero {wa wb : Word} (hw : wa ≠ wb) (h : a.sig = 0 ∨ b.sig = 0) :
    eqCore wa a wb b = true ↔ a.sig = 0 ∧ b.sig = 0 := by
  unfold eqCore
  rw [if_neg hw, if_pos h]
  simp

/-- Nonzero operands are aligned by the larger exponent (44_compare.md R262). -/
theorem eqCore_nonzero {wa wb : Word} (hw : wa ≠ wb) (ha : a.sig ≠ 0) (hb : b.sig ≠ 0) :
    eqCore wa a wb b = if a.exp < b.exp then eqAligned b a else eqAligned a b := by
  unfold eqCore
  rw [if_neg hw, if_neg (by simp [ha, hb])]

/-- The aligned comparison: the whole gap must fit into 17 digits, and the significands must then agree
(44_compare.md R262). -/
theorem eqAligned_iff (ha : a.sig ≠ 0) :
    eqAligned a b = true ↔
      (a.exp - b.exp).toNat ≤ 17 ∧ (a.exp - b.exp).toNat ≤ 17 - ndigits a.sig.natAbs ∧
        a.sig * 10 ^ (a.exp - b.exp).toNat = b.sig := by
  unfold eqAligned
  simp only [shiftUpToDigitsCapped, ha, if_false]
  split
  · next h => simp only [Bool.false_eq_true, false_iff]; omega
  · next h =>
    simp only [Bool.and_eq_true, decide_eq_true_eq]
    constructor
    · rintro ⟨h1, h2⟩
      rw [h1] at h2
      exact ⟨by omega, by omega, h2⟩
    · rintro ⟨-, h1, h2⟩
      rw [Nat.min_eq_right h1]
      exact ⟨rfl, h2⟩

end Sys2Proof.Machine
end

