-- ==== Sys2Proof/Laws/Exec.lean ====
section
/-! SUPPORT. One lemma per command: all that its meaning can answer, a success with the effects or a
failure with its error. Every lemma is an equivalence, so it serves to take a step apart and to show one. -/

namespace Sys2Proof.Machine

open Sys2Proof

variable {s t : State} {rd ra rb : Fin 8} {n : Int} {rule : RoundingRule}

/-! ### The parts every meaning is made of -/

/-- A rule that raises `c` under a condition and otherwise has the effects `s'`. -/
theorem complete_ite_next {p : Prop} [Decidable p] {c : ErrorCode} {s' : State} :
    s.complete (if p then .error c else .ok s') = .next t ↔
      (¬p ∧ t = s'.succeed) ∨ (p ∧ t = s.fail c) := by
  split <;> simp_all [eq_comm]

/-- A rule whose first part may raise an error. -/
theorem complete_bind_next {α : Type} {r : Except ErrorCode α} {f : α → Except ErrorCode State} :
    s.complete (r >>= f) = .next t ↔
      (∃ a, r = .ok a ∧ s.complete (f a) = .next t) ∨ (∃ c, r = .error c ∧ t = s.fail c) := by
  cases r <;> simp [eq_comm]

/-- A rule that first decodes a register (10_state.md R32). -/
theorem complete_decimal_next {r : Fin 8} {f : Decimal → Except ErrorCode State} :
    s.complete (s.decimal r >>= f) = .next t ↔
      (∃ a, decodeDecimal (s.readD r) = some a ∧ s.complete (f a) = .next t) ∨
      (decodeDecimal (s.readD r) = none ∧ t = s.fail .operand) := by
  rw [complete_bind_next]
  simp only [State.decimal_ok_iff, State.decimal_error_iff, and_assoc, exists_and_left,
    exists_eq_left]

/-- A rule whose last part computes the word of one destination. -/
theorem complete_writeD_next {r : Except ErrorCode Word} :
    s.complete (r >>= fun w => pure (s.writeD rd w)) = .next t ↔
      (∃ w, r = .ok w ∧ t = (s.writeD rd w).succeed) ∨ (∃ c, r = .error c ∧ t = s.fail c) := by
  rw [complete_bind_next]
  simp only [except_pure, State.complete_ok, Host.Outcome.next.injEq, eq_comm]

theorem complete_pure_next {s' : State} : s.complete (pure s') = .next t ↔ t = s'.succeed := by
  simp [eq_comm]

/-! ### Digit shifts -/

theorem execPow10_next :
    execPow10 n s = .next t ↔
      (∃ p, powerOfTen n = some p ∧ t = (s.writeResult (word64 p)).succeed) ∨
      (powerOfTen n = none ∧ t = s.fail .range) := by
  unfold execPow10
  cases powerOfTen n <;> simp [eq_comm]

theorem execScale_next :
    execScale n s = .next t ↔
      (¬(scaleByDigits s.integer n < -2 ^ 63 ∨ scaleByDigits s.integer n > 2 ^ 63 - 1) ∧
        t = (s.writeResult (word64 (scaleByDigits s.integer n))).succeed) ∨
      ((scaleByDigits s.integer n < -2 ^ 63 ∨ scaleByDigits s.integer n > 2 ^ 63 - 1) ∧
        t = s.fail .range) :=
  complete_ite_next

/-- SHUP16, SHUP17 and SHUP18, by their target `k`. -/
theorem shiftUpEffect_next {k : Nat} :
    s.complete (shiftUpEffect k s) = .next t ↔
      (¬(s.integer = 0 ∨ s.integer.natAbs ≥ 10 ^ 18 ∨ ndigits s.integer.natAbs > k) ∧
        t = (s.writeShift (shiftUpToDigits s.integer k)).succeed) ∨
      ((s.integer = 0 ∨ s.integer.natAbs ≥ 10 ^ 18 ∨ ndigits s.integer.natAbs > k) ∧
        t = s.fail .range) :=
  complete_ite_next

theorem execShupc_next :
    execShupc n s = .next t ↔
      (¬(n < 0 ∨ s.integer ≠ 0 ∧ (s.integer.natAbs ≥ 10 ^ 18 ∨ ndigits s.integer.natAbs > 17)) ∧
        t = (s.writeShift (shiftUpToDigitsCapped s.integer n.toNat)).succeed) ∨
      ((n < 0 ∨ s.integer ≠ 0 ∧ (s.integer.natAbs ≥ 10 ^ 18 ∨ ndigits s.integer.natAbs > 17)) ∧
        t = s.fail .range) := by
  unfold execShupc
  by_cases h : n < 0
  · simp [h, eq_comm]
  · simp only [h, if_false, false_or]
    exact complete_ite_next

/-! ### The word codec -/

theorem execEnc_next :
    execEnc rd n s = .next t ↔
      (∃ w, encodeDecimal s.integer n = .ok w ∧ t = (s.writeD rd w).succeed) ∨
      (∃ c, encodeDecimal s.integer n = .error c ∧ t = s.fail c) :=
  complete_writeD_next

theorem execSig_next :
    execSig ra s = .next t ↔
      (∃ a, decodeDecimal (s.readD ra) = some a ∧ t = (s.writeResult (word64 a.sig)).succeed) ∨
      (decodeDecimal (s.readD ra) = none ∧ t = s.fail .operand) := by
  unfold execSig
  simp only [complete_decimal_next, complete_pure_next]

theorem execExp_next :
    execExp ra s = .next t ↔
      (∃ a, decodeDecimal (s.readD ra) = some a ∧ t = (s.writeResult (word64 a.exp)).succeed) ∨
      (decodeDecimal (s.readD ra) = none ∧ t = s.fail .operand) := by
  unfold execExp
  simp only [complete_decimal_next, complete_pure_next]

theorem execNorm_next :
    execNorm rd ra s = .next t ↔
      (∃ a, decodeDecimal (s.readD ra) = some a ∧
        ((∃ w, normCore a = .ok w ∧ t = (s.writeD rd w).succeed) ∨
          (∃ c, normCore a = .error c ∧ t = s.fail c))) ∨
      (decodeDecimal (s.readD ra) = none ∧ t = s.fail .operand) := by
  unfold execNorm
  simp only [complete_decimal_next, complete_writeD_next]

/-! ### Arithmetic -/

theorem execAdd_next :
    execAdd rd ra rb s = .next t ↔
      (∃ a, decodeDecimal (s.readD ra) = some a ∧
        ((∃ b, decodeDecimal (s.readD rb) = some b ∧
          ((∃ w, addCore a b = .ok w ∧ t = (s.writeD rd w).succeed) ∨
            (∃ c, addCore a b = .error c ∧ t = s.fail c))) ∨
        (decodeDecimal (s.readD rb) = none ∧ t = s.fail .operand))) ∨
      (decodeDecimal (s.readD ra) = none ∧ t = s.fail .operand) := by
  unfold execAdd
  simp only [complete_decimal_next, complete_writeD_next]

theorem execSub_next :
    execSub rd ra rb s = .next t ↔
      (∃ a, decodeDecimal (s.readD ra) = some a ∧
        ((∃ b, decodeDecimal (s.readD rb) = some b ∧
          ((∃ w, addCore a b.negated = .ok w ∧ t = (s.writeD rd w).succeed) ∨
            (∃ c, addCore a b.negated = .error c ∧ t = s.fail c))) ∨
        (decodeDecimal (s.readD rb) = none ∧ t = s.fail .operand))) ∨
      (decodeDecimal (s.readD ra) = none ∧ t = s.fail .operand) := by
  unfold execSub
  simp only [complete_decimal_next, complete_writeD_next]

theorem execMul_next :
    execMul rd ra rb s = .next t ↔
      (∃ a, decodeDecimal (s.readD ra) = some a ∧
        ((∃ b, decodeDecimal (s.readD rb) = some b ∧
          ((∃ w, mulCore a b = .ok w ∧ t = (s.writeD rd w).succeed) ∨
            (∃ c, mulCore a b = .error c ∧ t = s.fail c))) ∨
        (decodeDecimal (s.readD rb) = none ∧ t = s.fail .operand))) ∨
      (decodeDecimal (s.readD ra) = none ∧ t = s.fail .operand) := by
  unfold execMul
  simp only [complete_decimal_next, complete_writeD_next]

theorem execDiv_next :
    execDiv rd ra rb s = .next t ↔
      (∃ a, decodeDecimal (s.readD ra) = some a ∧
        ((∃ b, decodeDecimal (s.readD rb) = some b ∧
          ((∃ w, divCore a b = .ok w ∧ t = (s.writeD rd w).succeed) ∨
            (∃ c, divCore a b = .error c ∧ t = s.fail c))) ∨
        (decodeDecimal (s.readD rb) = none ∧ t = s.fail .operand))) ∨
      (decodeDecimal (s.readD ra) = none ∧ t = s.fail .operand) := by
  unfold execDiv
  simp only [complete_decimal_next, complete_writeD_next]

theorem execNeg_next :
    execNeg rd ra s = .next t ↔
      (∃ a, decodeDecimal (s.readD ra) = some a ∧
        t = (s.writeD rd (word64 (-sint (s.readD ra)))).succeed) ∨
      (decodeDecimal (s.readD ra) = none ∧ t = s.fail .operand) := by
  unfold execNeg
  simp only [complete_decimal_next, complete_pure_next]

theorem execShl_next :
    execShl rd ra n s = .next t ↔
      (∃ a, decodeDecimal (s.readD ra) = some a ∧
        ((∃ w, shiftCore a n = .ok w ∧ t = (s.writeD rd w).succeed) ∨
          (∃ c, shiftCore a n = .error c ∧ t = s.fail c))) ∨
      (decodeDecimal (s.readD ra) = none ∧ t = s.fail .operand) := by
  unfold execShl
  simp only [complete_decimal_next, complete_writeD_next]

theorem execShr_next :
    execShr rd ra n s = .next t ↔
      (∃ a, decodeDecimal (s.readD ra) = some a ∧
        ((∃ w, shiftCore a (-n) = .ok w ∧ t = (s.writeD rd w).succeed) ∨
          (∃ c, shiftCore a (-n) = .error c ∧ t = s.fail c))) ∨
      (decodeDecimal (s.readD ra) = none ∧ t = s.fail .operand) := by
  unfold execShr
  simp only [complete_decimal_next, complete_writeD_next]

/-! ### Rounding -/

theorem execRnd_next :
    execRnd rd ra rule n s = .next t ↔
      (∃ a, decodeDecimal (s.readD ra) = some a ∧
        ((n < 0 ∧ t = s.fail .unimpl) ∨
          (¬n < 0 ∧ ((∃ w, roundCore a rule n = .ok w ∧ t = (s.writeD rd w).succeed) ∨
            (∃ c, roundCore a rule n = .error c ∧ t = s.fail c))))) ∨
      (decodeDecimal (s.readD ra) = none ∧ t = s.fail .operand) := by
  unfold execRnd
  by_cases h : n < 0
  · simp only [h, if_true, complete_decimal_next, State.complete_error, Host.Outcome.next.injEq,
      not_true, false_and, true_and, or_false, eq_comm (a := t)]
  · simp only [complete_decimal_next, h, if_false, complete_writeD_next, false_and, not_false_eq_true,
      true_and, false_or]

theorem execDecomp_next :
    execDecomp rd ra rb s = .next t ↔
      (rd = rb ∧ t = s.fail .illegal) ∨
      (rd ≠ rb ∧
        ((∃ a, decodeDecimal (s.readD ra) = some a ∧
          ((∃ p, decompCore a = .ok p ∧ t = ((s.writeD rd p.1).writeD rb p.2).succeed) ∨
            (∃ c, decompCore a = .error c ∧ t = s.fail c))) ∨
        (decodeDecimal (s.readD ra) = none ∧ t = s.fail .operand))) := by
  unfold execDecomp
  by_cases h : rd = rb
  · simp [h, eq_comm]
  · simp only [h, if_false, complete_decimal_next, false_and, ne_eq, not_false_eq_true, true_and,
      false_or]
    simp only [complete_bind_next, complete_pure_next]

/-! ### Comparison -/

theorem execCmpeq_next :
    execCmpeq ra rb s = .next t ↔
      (∃ a, decodeDecimal (s.readD ra) = some a ∧
        ((∃ b, decodeDecimal (s.readD rb) = some b ∧
          t = (s.writeResult (if eqCore (s.readD ra) a (s.readD rb) b then 1 else 0)).succeed) ∨
        (decodeDecimal (s.readD rb) = none ∧ t = s.fail .operand))) ∨
      (decodeDecimal (s.readD ra) = none ∧ t = s.fail .operand) := by
  unfold execCmpeq
  simp only [complete_decimal_next, complete_pure_next]

theorem execCmp_next :
    execCmp ra rb s = .next t ↔
      (∃ a, decodeDecimal (s.readD ra) = some a ∧
        ((∃ b, decodeDecimal (s.readD rb) = some b ∧
          t = (s.writeResult (word64 (ordCore a b))).succeed) ∨
        (decodeDecimal (s.readD rb) = none ∧ t = s.fail .operand))) ∨
      (decodeDecimal (s.readD ra) = none ∧ t = s.fail .operand) := by
  unfold execCmp
  simp only [complete_decimal_next, complete_pure_next]

/-! ### Strings -/

theorem execParse_next :
    execParse rd s = .next t ↔
      (∃ bs, s.inputBytes = .ok bs ∧
        ((∃ w, parseCore bs = .ok w ∧ t = (s.writeD rd w).succeed) ∨
          (∃ c, parseCore bs = .error c ∧ t = s.fail c))) ∨
      (∃ c, s.inputBytes = .error c ∧ t = s.fail c) := by
  unfold execParse
  rw [complete_bind_next]
  simp only [complete_writeD_next]

theorem execFmt_next :
    execFmt ra s = .next t ↔
      (∃ a, decodeDecimal (s.readD ra) = some a ∧ t = (s.writeString (fmtCore a)).succeed) ∨
      (decodeDecimal (s.readD ra) = none ∧ t = s.fail .operand) := by
  unfold execFmt
  simp only [complete_decimal_next, complete_pure_next]

/-! ### Every command at once -/

/-- All the shapes that a command's answer can have: an error, or one kind of write and success. -/
theorem exec_next_cases {i : Instr} (h : exec i s = .next t) :
    (∃ c, t = s.fail c) ∨
    (∃ w, t = (s.writeResult w).succeed) ∨
    (∃ p, t = (s.writeShift p).succeed) ∨
    (∃ r w, t = (s.writeD r w).succeed) ∨
    (∃ r w r' w', r ≠ r' ∧ t = ((s.writeD r w).writeD r' w').succeed) ∨
    (∃ r a, decodeDecimal (s.readD r) = some a ∧ t = (s.writeString (fmtCore a)).succeed) := by
  cases i with
  | pow10 n =>
    rcases execPow10_next.1 h with ⟨p, -, ht⟩ | ⟨-, ht⟩
    · exact .inr (.inl ⟨_, ht⟩)
    · exact .inl ⟨_, ht⟩
  | scale n =>
    rcases execScale_next.1 h with ⟨-, ht⟩ | ⟨-, ht⟩
    · exact .inr (.inl ⟨_, ht⟩)
    · exact .inl ⟨_, ht⟩
  | shup16 =>
    rcases shiftUpEffect_next.1 h with ⟨-, ht⟩ | ⟨-, ht⟩
    · exact .inr (.inr (.inl ⟨_, ht⟩))
    · exact .inl ⟨_, ht⟩
  | shup17 =>
    rcases shiftUpEffect_next.1 h with ⟨-, ht⟩ | ⟨-, ht⟩
    · exact .inr (.inr (.inl ⟨_, ht⟩))
    · exact .inl ⟨_, ht⟩
  | shup18 =>
    rcases shiftUpEffect_next.1 h with ⟨-, ht⟩ | ⟨-, ht⟩
    · exact .inr (.inr (.inl ⟨_, ht⟩))
    · exact .inl ⟨_, ht⟩
  | shupc n =>
    rcases execShupc_next.1 h with ⟨-, ht⟩ | ⟨-, ht⟩
    · exact .inr (.inr (.inl ⟨_, ht⟩))
    · exact .inl ⟨_, ht⟩
  | enc rd e =>
    rcases execEnc_next.1 h with ⟨w, -, ht⟩ | ⟨c, -, ht⟩
    · exact .inr (.inr (.inr (.inl ⟨_, _, ht⟩)))
    · exact .inl ⟨_, ht⟩
  | sig ra =>
    rcases execSig_next.1 h with ⟨a, -, ht⟩ | ⟨-, ht⟩
    · exact .inr (.inl ⟨_, ht⟩)
    · exact .inl ⟨_, ht⟩
  | exp ra =>
    rcases execExp_next.1 h with ⟨a, -, ht⟩ | ⟨-, ht⟩
    · exact .inr (.inl ⟨_, ht⟩)
    · exact .inl ⟨_, ht⟩
  | sgn ra =>
    exact .inr (.inl ⟨_, (Host.Outcome.next.inj h).symm⟩)
  | norm rd ra =>
    rcases execNorm_next.1 h with ⟨a, -, ⟨w, -, ht⟩ | ⟨c, -, ht⟩⟩ | ⟨-, ht⟩
    · exact .inr (.inr (.inr (.inl ⟨_, _, ht⟩)))
    · exact .inl ⟨_, ht⟩
    · exact .inl ⟨_, ht⟩
  | add rd ra rb =>
    rcases execAdd_next.1 h with ⟨a, -, ⟨b, -, ⟨w, -, ht⟩ | ⟨c, -, ht⟩⟩ | ⟨-, ht⟩⟩ | ⟨-, ht⟩
    · exact .inr (.inr (.inr (.inl ⟨_, _, ht⟩)))
    all_goals exact .inl ⟨_, ht⟩
  | sub rd ra rb =>
    rcases execSub_next.1 h with ⟨a, -, ⟨b, -, ⟨w, -, ht⟩ | ⟨c, -, ht⟩⟩ | ⟨-, ht⟩⟩ | ⟨-, ht⟩
    · exact .inr (.inr (.inr (.inl ⟨_, _, ht⟩)))
    all_goals exact .inl ⟨_, ht⟩
  | mul rd ra rb =>
    rcases execMul_next.1 h with ⟨a, -, ⟨b, -, ⟨w, -, ht⟩ | ⟨c, -, ht⟩⟩ | ⟨-, ht⟩⟩ | ⟨-, ht⟩
    · exact .inr (.inr (.inr (.inl ⟨_, _, ht⟩)))
    all_goals exact .inl ⟨_, ht⟩
  | div rd ra rb =>
    rcases execDiv_next.1 h with ⟨a, -, ⟨b, -, ⟨w, -, ht⟩ | ⟨c, -, ht⟩⟩ | ⟨-, ht⟩⟩ | ⟨-, ht⟩
    · exact .inr (.inr (.inr (.inl ⟨_, _, ht⟩)))
    all_goals exact .inl ⟨_, ht⟩
  | neg rd ra =>
    rcases execNeg_next.1 h with ⟨a, -, ht⟩ | ⟨-, ht⟩
    · exact .inr (.inr (.inr (.inl ⟨_, _, ht⟩)))
    · exact .inl ⟨_, ht⟩
  | shl rd ra n =>
    rcases execShl_next.1 h with ⟨a, -, ⟨w, -, ht⟩ | ⟨c, -, ht⟩⟩ | ⟨-, ht⟩
    · exact .inr (.inr (.inr (.inl ⟨_, _, ht⟩)))
    all_goals exact .inl ⟨_, ht⟩
  | shr rd ra n =>
    rcases execShr_next.1 h with ⟨a, -, ⟨w, -, ht⟩ | ⟨c, -, ht⟩⟩ | ⟨-, ht⟩
    · exact .inr (.inr (.inr (.inl ⟨_, _, ht⟩)))
    all_goals exact .inl ⟨_, ht⟩
  | rnd rd ra rule n =>
    rcases execRnd_next.1 h with ⟨a, -, ⟨-, ht⟩ | ⟨-, ⟨w, -, ht⟩ | ⟨c, -, ht⟩⟩⟩ | ⟨-, ht⟩
    · exact .inl ⟨_, ht⟩
    · exact .inr (.inr (.inr (.inl ⟨_, _, ht⟩)))
    all_goals exact .inl ⟨_, ht⟩
  | decomp rd ra rb =>
    rcases execDecomp_next.1 h with ⟨-, ht⟩ | ⟨hr, ⟨a, -, ⟨p, -, ht⟩ | ⟨c, -, ht⟩⟩ | ⟨-, ht⟩⟩
    · exact .inl ⟨_, ht⟩
    · exact .inr (.inr (.inr (.inr (.inl ⟨_, _, _, _, hr, ht⟩))))
    all_goals exact .inl ⟨_, ht⟩
  | cmpeq ra rb =>
    rcases execCmpeq_next.1 h with ⟨a, -, ⟨b, -, ht⟩ | ⟨-, ht⟩⟩ | ⟨-, ht⟩
    · exact .inr (.inl ⟨_, ht⟩)
    all_goals exact .inl ⟨_, ht⟩
  | cmp ra rb =>
    rcases execCmp_next.1 h with ⟨a, -, ⟨b, -, ht⟩ | ⟨-, ht⟩⟩ | ⟨-, ht⟩
    · exact .inr (.inl ⟨_, ht⟩)
    all_goals exact .inl ⟨_, ht⟩
  | parse rd =>
    rcases execParse_next.1 h with ⟨bs, -, ⟨w, -, ht⟩ | ⟨c, -, ht⟩⟩ | ⟨c, -, ht⟩
    · exact .inr (.inr (.inr (.inl ⟨_, _, ht⟩)))
    all_goals exact .inl ⟨_, ht⟩
  | fmt ra =>
    rcases execFmt_next.1 h with ⟨a, ha, ht⟩ | ⟨-, ht⟩
    · exact .inr (.inr (.inr (.inr (.inr ⟨_, _, ha, ht⟩))))
    · exact .inl ⟨_, ht⟩

end Sys2Proof.Machine
end

