-- ==== Sys2Proof/Laws/Fields.lean ====
section
/-! SUPPORT. The fields of a command word: packing and unpacking are inverse, register and immediate fields
too (30_encoding.md R91 to R94). -/

namespace Sys2Proof

theorem CmdFields.ofWord_toWord (f : CmdFields) : CmdFields.ofWord f.toWord = f := by
  obtain ⟨op, rd, ra, rb, rm, imm⟩ := f
  simp only [CmdFields.ofWord, CmdFields.toWord, CmdFields.mk.injEq]
  refine ⟨?_, ?_, ?_, ?_, ?_, ?_⟩ <;>
  · apply BitVec.eq_of_getLsbD_eq
    intro i hi
    simp only [BitVec.getLsbD_extractLsb', BitVec.getLsbD_append]
    simp (disch := omega) only [hi, decide_true, Bool.true_and, if_pos, if_neg]
    try (congr 1; omega)

theorem CmdFields.toWord_ofWord (w : BitVec 32) : (CmdFields.ofWord w).toWord = w := by
  apply BitVec.eq_of_getLsbD_eq
  intro i hi
  simp only [CmdFields.ofWord, CmdFields.toWord, BitVec.getLsbD_append, BitVec.getLsbD_extractLsb']
  split_ifs <;>
  · rw [decide_eq_true (by omega), Bool.true_and]
    congr 1
    omega

@[simp] theorem regOfBits_regToBits (r : DReg) : regOfBits (regToBits r) = r := by
  apply Fin.ext
  simp only [regOfBits, regToBits, BitVec.toNat_ofNat]
  omega

@[simp] theorem regToBits_regOfBits (b : BitVec 3) : regToBits (regOfBits b) = b := by
  simp [regOfBits, regToBits]

theorem regToBits_inj {r r' : DReg} : regToBits r = regToBits r' ↔ r = r' := by
  constructor
  · intro h
    rw [← regOfBits_regToBits r, h, regOfBits_regToBits]
  · rintro rfl
    rfl

theorem immOfBits_immToBits {n : Int} (h : immInRange n = true) : immOfBits (immToBits n) = n := by
  simp only [immInRange, decide_eq_true_eq] at h
  rw [immOfBits, immToBits, BitVec.toInt_ofInt, Int.bmod_eq_of_le] <;> omega

@[simp] theorem immToBits_immOfBits (b : BitVec 14) : immToBits (immOfBits b) = b :=
  BitVec.ofInt_toInt

theorem immOfBits_inRange (b : BitVec 14) : immInRange (immOfBits b) = true := by
  have h1 := BitVec.le_toInt b
  have h2 := BitVec.toInt_lt (x := b)
  exact decide_eq_true ⟨by unfold immOfBits; omega, by unfold immOfBits; omega⟩

@[simp] theorem RoundingRule.ofCode_code (r : RoundingRule) : RoundingRule.ofCode r.code = some r := by
  cases r <;> rfl

theorem RoundingRule.code_of_ofCode {rm : BitVec 3} {r : RoundingRule}
    (h : RoundingRule.ofCode rm = some r) : r.code = rm := by
  revert rm
  cases r <;> decide

/-- The rounding code is reserved exactly when it is 6 or 7 (30_encoding.md R94). -/
theorem RoundingRule.ofCode_none_iff (rm : BitVec 3) :
    RoundingRule.ofCode rm = none ↔ 6 ≤ rm.toNat := by
  revert rm
  decide

/-- The command word in CMD is the low half of the encoding, and the high half is zero
(30_encoding.md R90). -/
theorem encode_low (i : Instr) : (encode i).extractLsb' 0 32 = encodeWord i := by
  apply BitVec.eq_of_toNat_eq
  have := (encodeWord i).isLt
  simp only [encode, BitVec.extractLsb'_toNat, BitVec.toNat_setWidth, Nat.shiftRight_zero]
  omega

theorem encode_high (i : Instr) : (encode i).extractLsb' 32 32 = 0 := by
  apply BitVec.eq_of_toNat_eq
  have := (encodeWord i).isLt
  simp only [encode, BitVec.extractLsb'_toNat, BitVec.toNat_setWidth, Nat.shiftRight_eq_div_pow]
  simp
  omega

/-- Decoding an encoding is decoding the command's fields. -/
theorem decodeCmd_encode (i : Instr) : decodeCmd (encode i) = decodeFields i.fields := by
  unfold decodeCmd decodeWord
  rw [encode_high, if_neg (by simp), encode_low, encodeWord, CmdFields.ofWord_toWord]

end Sys2Proof
end

