-- ==== Sys2Proof/Laws/Memory.lean ====
section
/-! SUPPORT. The string buffer: a read after a write, and the canonical form that every operation keeps. -/

namespace Sys2Proof.Machine

open Sys2Proof

@[simp] theorem Memory.read_nil (j : Nat) : Memory.read [] j = strDefault := rfl

/-- Below its first index a canonical list lists nothing. -/
theorem Memory.read_below {lo j : Nat} {m : Memory} (h : Memory.wfFrom lo m = true) (hj : j < lo) :
    Memory.read m j = strDefault := by
  induction m generalizing lo with
  | nil => rfl
  | cons c rest ih =>
    obtain ⟨a, b⟩ := c
    simp only [Memory.wfFrom, Bool.and_eq_true, decide_eq_true_eq] at h
    have hne : a ≠ j := by omega
    simp only [Memory.read, hne, if_false]
    exact ih h.2 (by omega)

theorem Memory.wfFrom_mono {lo lo' : Nat} {m : Memory} (h : Memory.wfFrom lo m = true)
    (hle : lo' ≤ lo) : Memory.wfFrom lo' m = true := by
  cases m with
  | nil => rfl
  | cons c rest =>
    obtain ⟨a, b⟩ := c
    simp only [Memory.wfFrom, Bool.and_eq_true, decide_eq_true_eq] at h ⊢
    exact ⟨⟨⟨by omega, h.1.1.2⟩, h.1.2⟩, h.2⟩

/-- A write keeps the canonical form. -/
theorem Memory.write_wfFrom {lo j : Nat} {m : Memory} (h : Memory.wfFrom lo m = true) (hl : lo ≤ j)
    (hj : j < 64) (v : Byte) : Memory.wfFrom lo (Memory.write m j v) = true := by
  induction m generalizing lo with
  | nil =>
    by_cases hv : v = strDefault <;> simp [Memory.write, hv, Memory.wfFrom, hl, hj]
  | cons c rest ih =>
    obtain ⟨a, b⟩ := c
    simp only [Memory.wfFrom, Bool.and_eq_true, decide_eq_true_eq] at h
    obtain ⟨⟨⟨h1, h2⟩, h3⟩, h4⟩ := h
    simp only [Memory.write]
    split
    · split <;> simp_all [Memory.wfFrom]
    · split
      · split
        · exact Memory.wfFrom_mono h4 (by omega)
        · simp_all [Memory.wfFrom]
      · have := ih h4 (by omega)
        simp_all [Memory.wfFrom]

theorem Memory.write_wf {m : Memory} (h : m.wf = true) {j : Nat} (hj : j < 64) (v : Byte) :
    (Memory.write m j v).wf = true :=
  Memory.write_wfFrom h (Nat.zero_le _) hj v

theorem Memory.writeBytes_wf {m : Memory} (h : m.wf = true) {j : Nat} {vs : List Byte}
    (hj : j + vs.length ≤ 64) : (Memory.writeBytes m j vs).wf = true := by
  induction vs generalizing m j with
  | nil => exact h
  | cons v vs ih =>
    simp only [List.length_cons] at hj
    exact ih (Memory.write_wf h (by omega) v) (by omega)

theorem Memory.reset_wf : Memory.wf State.reset.str = true := rfl

@[simp] theorem wordBytes_length (v : Word) : (wordBytes v).length = 8 := by
  simp [wordBytes]

theorem Memory.writeWord_wf {m : Memory} (h : m.wf = true) {k : Nat} (hk : k < 8) (v : Word) :
    (m.writeWord k v).wf = true :=
  Memory.writeBytes_wf h (by simp; omega)

theorem Memory.fill_wf {m : Memory} (h : m.wf = true) {bs : List Byte} (hb : bs.length ≤ 64) :
    (m.fill bs).wf = true :=
  Memory.writeBytes_wf h (by simp; omega)

/-- Reading an index after a write: the written byte there, the old byte elsewhere. -/
theorem Memory.read_write {lo : Nat} {m : Memory} (h : Memory.wfFrom lo m = true) (i j : Nat)
    (v : Byte) : Memory.read (Memory.write m j v) i = if i = j then v else Memory.read m i := by
  induction m generalizing lo with
  | nil =>
    by_cases hv : v = strDefault <;> simp [Memory.write, hv, Memory.read, eq_comm]
  | cons c rest ih =>
    obtain ⟨a, b⟩ := c
    simp only [Memory.wfFrom, Bool.and_eq_true, decide_eq_true_eq] at h
    obtain ⟨_, h4⟩ := h
    simp only [Memory.write]
    split
    · next hlt =>
      split
      · next hv =>
        split
        · next hij =>
          subst hij
          have : a ≠ i := by omega
          simp [Memory.read, this, Memory.read_below h4 (show i < a + 1 by omega), hv]
        · rfl
      · by_cases hij : i = j
        · simp [Memory.read, hij]
        · simp [Memory.read, hij, Ne.symm hij]
    · next hge =>
      split
      · next hja =>
        subst hja
        split
        · next hv =>
          split
          · next hij =>
            subst hij
            rw [Memory.read_below h4 (by omega), hv]
          · next hij => simp [Memory.read, Ne.symm hij]
        · by_cases hij : i = j
          · simp [Memory.read, hij]
          · simp [Memory.read, hij, Ne.symm hij]
      · next hja =>
        simp only [Memory.read, ih h4]
        split
        · next hai =>
          have : i ≠ j := by omega
          simp [this]
        · rfl

/-- No byte lies at an index of 64 or more (10_state.md R42). -/
theorem Memory.read_out_of_range {lo : Nat} {m : Memory} (h : Memory.wfFrom lo m = true) {j : Nat}
    (hj : 64 ≤ j) : Memory.read m j = strDefault := by
  induction m generalizing lo with
  | nil => rfl
  | cons c rest ih =>
    obtain ⟨a, b⟩ := c
    simp only [Memory.wfFrom, Bool.and_eq_true, decide_eq_true_eq] at h
    have : a ≠ j := by omega
    simp [Memory.read, this, ih h.2]

/-- Reading an index after a run of bytes was written. -/
theorem Memory.read_writeBytes {m : Memory} (h : m.wf = true) (i j : Nat) (vs : List Byte)
    (hj : j + vs.length ≤ 64) :
    Memory.read (Memory.writeBytes m j vs) i =
      if j ≤ i ∧ i < j + vs.length then vs.getD (i - j) strDefault else Memory.read m i := by
  induction vs generalizing m j with
  | nil =>
    have : ¬ (j ≤ i ∧ i < j + ([] : List Byte).length) := by simp
    simp only [Memory.writeBytes, this, if_false]
  | cons v vs ih =>
    simp only [List.length_cons] at hj
    simp only [Memory.writeBytes]
    rw [ih (Memory.write_wf h (by omega) v) (j + 1) (by omega), Memory.read_write h]
    simp only [List.length_cons]
    by_cases hij : i = j
    · subst hij
      simp
    · by_cases hin : j + 1 ≤ i ∧ i < j + 1 + vs.length
      · have h2 : j ≤ i ∧ i < j + (vs.length + 1) := by omega
        obtain ⟨n, hn⟩ : ∃ n, i - j = n + 1 := ⟨i - j - 1, by omega⟩
        have h3 : i - (j + 1) = n := by omega
        simp [hin, h2, hn, h3]
      · have h2 : ¬ (j ≤ i ∧ i < j + (vs.length + 1)) := by omega
        rw [if_neg hin, if_neg h2, if_neg hij]

theorem Memory.readBytes_length (m : Memory) (j n : Nat) : (m.readBytes j n).length = n := by
  induction n generalizing j with
  | zero => rfl
  | succ n ih => simp [Memory.readBytes, ih]

theorem Memory.readBytes_getElem (m : Memory) (j n i : Nat) (hi : i < (m.readBytes j n).length) :
    (m.readBytes j n)[i] = Memory.read m (j + i) := by
  induction n generalizing j i with
  | zero => simp [Memory.readBytes] at hi
  | succ n ih =>
    cases i with
    | zero => simp [Memory.readBytes]
    | succ i =>
      simp only [Memory.readBytes, List.getElem_cons_succ]
      rw [ih]
      congr 1
      omega

/-- Two canonical buffers with the same bytes are the same list. -/
theorem Memory.ext_of_read {lo : Nat} {m m' : Memory} (h : Memory.wfFrom lo m = true)
    (h' : Memory.wfFrom lo m' = true) (hr : ∀ i, Memory.read m i = Memory.read m' i) : m = m' := by
  induction m generalizing lo m' with
  | nil =>
    cases m' with
    | nil => rfl
    | cons c rest =>
      obtain ⟨a, b⟩ := c
      have := hr a
      simp_all [Memory.read, Memory.wfFrom]
  | cons c rest ih =>
    obtain ⟨a, b⟩ := c
    cases m' with
    | nil =>
      have := hr a
      simp_all [Memory.read, Memory.wfFrom]
    | cons c' rest' =>
      obtain ⟨a', b'⟩ := c'
      simp only [Memory.wfFrom, Bool.and_eq_true, decide_eq_true_eq] at h h'
      obtain ⟨⟨⟨h1, h2⟩, h3⟩, h4⟩ := h
      obtain ⟨⟨⟨h1', h2'⟩, h3'⟩, h4'⟩ := h'
      have haa : a = a' := by
        rcases lt_trichotomy a a' with hlt | heq | hgt
        · have := hr a
          rw [Memory.read, if_pos rfl, Memory.read, if_neg (by omega),
            Memory.read_below h4' (by omega)] at this
          exact absurd this h3
        · exact heq
        · have := hr a'
          rw [Memory.read, if_neg (by omega), Memory.read_below h4 (by omega), Memory.read,
            if_pos rfl] at this
          exact absurd this.symm h3'
      subst haa
      have hbb : b = b' := by
        have := hr a
        simpa [Memory.read] using this
      subst hbb
      have : rest = rest' := by
        apply ih h4 h4'
        intro i
        by_cases hia : i = a
        · subst hia
          rw [Memory.read_below h4 (by omega), Memory.read_below h4' (by omega)]
        · have := hr i
          simpa [Memory.read, Ne.symm hia] using this
      rw [this]

/-- Bit i of the word of a byte list is bit `i % 8` of byte `i / 8` (20_memory.md R63). -/
theorem bytesWord_getLsbD (bs : List Byte) (i : Nat) (hi : i < 64) :
    (bytesWord bs).getLsbD i = (bs.getD (i / 8) 0).getLsbD (i % 8) := by
  induction bs generalizing i with
  | nil => simp [bytesWord]
  | cons b bs ih =>
    rw [bytesWord, BitVec.getLsbD_or, BitVec.getLsbD_shiftLeft, BitVec.getLsbD_setWidth]
    by_cases h8 : i < 8
    · have h1 : i / 8 = 0 := by omega
      have h2 : i % 8 = i := by omega
      simp [h8, h1, h2, hi]
    · obtain ⟨n, hn⟩ : ∃ n, i / 8 = n + 1 := ⟨i / 8 - 1, by omega⟩
      have h1 : (i - 8) / 8 = n := by omega
      have h2 : (i - 8) % 8 = i % 8 := by omega
      have h3 : b.getLsbD i = false := BitVec.getLsbD_of_ge b i (by omega)
      simp [ih (i - 8) (by omega), h1, h2, h3, h8, hi, hn]

/-- Byte j of a word's byte list is bits `[8j+7 : 8j]` (20_memory.md R63). -/
theorem wordBytes_getD (v : Word) {j : Nat} (hj : j < 8) (x : Byte) :
    (wordBytes v).getD j x = v.extractLsb' (8 * j) 8 := by
  simp [wordBytes, List.getD_eq_getElem?_getD, List.getElem?_range hj]

/-- Byte j of STR word k is `STR[8k + j]` (20_memory.md R63). -/
theorem Memory.readWord_byte (m : Memory) (k : Nat) {j : Nat} (hj : j < 8) :
    (m.readWord k).extractLsb' (8 * j) 8 = m.read (8 * k + j) := by
  apply BitVec.eq_of_getLsbD_eq
  intro i hi
  rw [BitVec.getLsbD_extractLsb', decide_eq_true hi, Bool.true_and, Memory.readWord,
    bytesWord_getLsbD _ _ (by omega)]
  have h1 : (8 * j + i) / 8 = j := by omega
  have h2 : (8 * j + i) % 8 = i := by omega
  have hl : j < (m.readBytes (8 * k) 8).length := by rw [Memory.readBytes_length]; exact hj
  rw [h1, h2, List.getD_eq_getElem?_getD, List.getElem?_eq_getElem hl, Memory.readBytes_getElem]
  rfl

/-- A word is its eight bytes. -/
theorem word_ext {v w : Word} (h : ∀ j < 8, v.extractLsb' (8 * j) 8 = w.extractLsb' (8 * j) 8) :
    v = w := by
  apply BitVec.eq_of_getLsbD_eq
  intro i hi
  have hb := congrArg (·.getLsbD (i % 8)) (h (i / 8) (by omega))
  simp only [BitVec.getLsbD_extractLsb', decide_eq_true (Nat.mod_lt i (by decide : 8 > 0)),
    Bool.true_and] at hb
  rwa [show 8 * (i / 8) + i % 8 = i by omega] at hb

/-- Two buffers that agree on the bytes of a word agree on the word. -/
theorem Memory.readWord_congr {m m' : Memory} {k : Nat}
    (h : ∀ j < 8, m.read (8 * k + j) = m'.read (8 * k + j)) : m.readWord k = m'.readWord k :=
  word_ext fun j hj => by rw [Memory.readWord_byte m k hj, Memory.readWord_byte m' k hj, h j hj]

/-- Reading a byte after STR word k was written. -/
theorem Memory.read_writeWord {m : Memory} (h : m.wf = true) {k : Nat} (hk : k < 8) (v : Word)
    (i : Nat) :
    (m.writeWord k v).read i =
      if 8 * k ≤ i ∧ i < 8 * k + 8 then v.extractLsb' (8 * (i - 8 * k)) 8 else m.read i := by
  rw [Memory.writeWord, Memory.read_writeBytes h i _ _ (by simp; omega), wordBytes_length]
  split
  · rw [wordBytes_getD v (by omega)]
  · rfl

/-- Reading a STR word after one was written. -/
theorem Memory.readWord_writeWord {m : Memory} (h : m.wf = true) {k k' : Nat} (hk : k < 8) (v : Word) :
    (m.writeWord k v).readWord k' = if k' = k then v else m.readWord k' := by
  split
  · next hkk =>
    subst hkk
    refine word_ext fun j hj => ?_
    rw [Memory.readWord_byte _ _ hj, Memory.read_writeWord h hk, if_pos (by omega)]
    congr 2
    omega
  · next hkk =>
    refine Memory.readWord_congr fun j hj => ?_
    rw [Memory.read_writeWord h hk, if_neg (by omega)]

/-- Reading a byte after FMT filled the buffer (45_string.md R295). -/
theorem Memory.read_fill {m : Memory} (h : m.wf = true) {bs : List Byte} (hb : bs.length ≤ 64) (i : Nat) :
    (m.fill bs).read i = bs.getD i strDefault := by
  rw [Memory.fill, Memory.read_writeBytes h _ _ _ (by simp; omega)]
  by_cases h64 : i < 64
  · have : 0 ≤ i ∧ i < 0 + (bs ++ List.replicate (64 - bs.length) strDefault).length := by
      simp; omega
    rw [if_pos this, Nat.sub_zero]
    by_cases hi : i < bs.length
    · rw [List.getD_eq_getElem?_getD, List.getElem?_append_left hi, List.getD_eq_getElem?_getD]
    · rw [List.getD_eq_getElem?_getD, List.getElem?_append_right (by omega),
        List.getElem?_replicate_of_lt (by omega), List.getD_eq_default _ _ (by omega)]
      rfl
  · have : ¬(0 ≤ i ∧ i < 0 + (bs ++ List.replicate (64 - bs.length) strDefault).length) := by
      simp; omega
    rw [if_neg this, List.getD_eq_default _ _ (by omega), Memory.read_out_of_range h (by omega)]

end Sys2Proof.Machine
end

