-- ==== Sys2Proof/Laws/PerInstr.lean ====
section
/-! SUPPORT. The statements made once per command. `EncodesItsRow`: the encoding of a command spells the row
of the opcode table (30_encoding.md R95) that has its mnemonic, whatever its operands. -/

namespace Sys2Proof.Laws

open Sys2Proof

/-- Masking packed fields masks each field. -/
theorem toWord_and (f g : CmdFields) :
    f.toWord &&& g.toWord =
      (⟨f.op &&& g.op, f.rd &&& g.rd, f.ra &&& g.ra, f.rb &&& g.rb, f.rm &&& g.rm,
        f.imm &&& g.imm⟩ : CmdFields).toWord := by
  apply BitVec.eq_of_getLsbD_eq
  intro i hi
  simp only [CmdFields.toWord, BitVec.getLsbD_and, BitVec.getLsbD_append]
  split_ifs <;> rfl

/-- A field that the mask leaves out. -/
theorem field_and_zero {n : Nat} (b : BitVec n) : b &&& 0 = 0 := BitVec.and_zero

/-- The encoding of a command spells a row when its masked fields are those of the row's pattern. -/
theorem spells_of_fields {i : Instr} {row : OpcodeRow} (g : CmdFields) (hg : row.mask = g.toWord)
    (h : (⟨i.fields.op &&& g.op, i.fields.rd &&& g.rd, i.fields.ra &&& g.ra, i.fields.rb &&& g.rb,
      i.fields.rm &&& g.rm, i.fields.imm &&& g.imm⟩ : CmdFields).toWord = row.pattern) :
    row.spells (encodeWord i) = true := by
  rw [OpcodeRow.spells, encodeWord, hg, toWord_and, h]
  exact beq_self_eq_true _

namespace EncodesItsRow

/-- The command's encoding spells a row with its mnemonic. -/
def Statement (i : Instr) : Prop :=
  ∃ row ∈ opcodeRows, row.mnemonic = i.mnemonic ∧ row.spells (encodeWord i) = true

/-- Finding the row of a command and the fields its mask keeps. -/
theorem of_row {i : Instr} (n : Nat) (row : OpcodeRow) (g : CmdFields)
    (hn : opcodeRows[n]? = some row) (hm : row.mnemonic = i.mnemonic) (hg : row.mask = g.toWord)
    (h : (⟨i.fields.op &&& g.op, i.fields.rd &&& g.rd, i.fields.ra &&& g.ra, i.fields.rb &&& g.rb,
      i.fields.rm &&& g.rm, i.fields.imm &&& g.imm⟩ : CmdFields).toWord = row.pattern) :
    Statement i :=
  ⟨row, List.mem_of_getElem? hn, hm, spells_of_fields g hg h⟩

theorem pow10 (n : Int) : Statement (.pow10 n) :=
  of_row 0 _ ⟨0x3F, 7, 7, 7, 7, 0⟩ rfl rfl rfl (by simp only [Instr.fields, field_and_zero]; rfl)

theorem scale (sh : Int) : Statement (.scale sh) :=
  of_row 1 _ ⟨0x3F, 7, 7, 7, 7, 0⟩ rfl rfl rfl (by simp only [Instr.fields, field_and_zero]; rfl)

theorem shup16 : Statement .shup16 :=
  of_row 2 _ ⟨0x3F, 7, 7, 7, 7, 0x3FFF⟩ rfl rfl rfl rfl

theorem shup17 : Statement .shup17 :=
  of_row 3 _ ⟨0x3F, 7, 7, 7, 7, 0x3FFF⟩ rfl rfl rfl rfl

theorem shup18 : Statement .shup18 :=
  of_row 4 _ ⟨0x3F, 7, 7, 7, 7, 0x3FFF⟩ rfl rfl rfl rfl

theorem shupc (limit : Int) : Statement (.shupc limit) :=
  of_row 5 _ ⟨0x3F, 7, 7, 7, 7, 0⟩ rfl rfl rfl (by simp only [Instr.fields, field_and_zero]; rfl)

theorem enc (rd : DReg) (e : Int) : Statement (.enc rd e) :=
  of_row 6 _ ⟨0x3F, 0, 7, 7, 7, 0⟩ rfl rfl rfl (by simp only [Instr.fields, field_and_zero]; rfl)

theorem sig (ra : DReg) : Statement (.sig ra) :=
  of_row 7 _ ⟨0x3F, 7, 0, 7, 7, 0x3FFF⟩ rfl rfl rfl
    (by simp only [Instr.fields, field_and_zero]; rfl)

theorem exp (ra : DReg) : Statement (.exp ra) :=
  of_row 8 _ ⟨0x3F, 7, 0, 7, 7, 0x3FFF⟩ rfl rfl rfl
    (by simp only [Instr.fields, field_and_zero]; rfl)

theorem sgn (ra : DReg) : Statement (.sgn ra) :=
  of_row 9 _ ⟨0x3F, 7, 0, 7, 7, 0x3FFF⟩ rfl rfl rfl
    (by simp only [Instr.fields, field_and_zero]; rfl)

theorem norm (rd ra : DReg) : Statement (.norm rd ra) :=
  of_row 10 _ ⟨0x3F, 0, 0, 7, 7, 0x3FFF⟩ rfl rfl rfl
    (by simp only [Instr.fields, field_and_zero]; rfl)

theorem add (rd ra rb : DReg) : Statement (.add rd ra rb) :=
  of_row 11 _ ⟨0x3F, 0, 0, 0, 7, 0x3FFF⟩ rfl rfl rfl
    (by simp only [Instr.fields, field_and_zero]; rfl)

theorem sub (rd ra rb : DReg) : Statement (.sub rd ra rb) :=
  of_row 12 _ ⟨0x3F, 0, 0, 0, 7, 0x3FFF⟩ rfl rfl rfl
    (by simp only [Instr.fields, field_and_zero]; rfl)

theorem mul (rd ra rb : DReg) : Statement (.mul rd ra rb) :=
  of_row 13 _ ⟨0x3F, 0, 0, 0, 7, 0x3FFF⟩ rfl rfl rfl
    (by simp only [Instr.fields, field_and_zero]; rfl)

theorem div (rd ra rb : DReg) : Statement (.div rd ra rb) :=
  of_row 14 _ ⟨0x3F, 0, 0, 0, 7, 0x3FFF⟩ rfl rfl rfl
    (by simp only [Instr.fields, field_and_zero]; rfl)

theorem neg (rd ra : DReg) : Statement (.neg rd ra) :=
  of_row 15 _ ⟨0x3F, 0, 0, 7, 7, 0x3FFF⟩ rfl rfl rfl
    (by simp only [Instr.fields, field_and_zero]; rfl)

theorem shl (rd ra : DReg) (n : Int) : Statement (.shl rd ra n) :=
  of_row 16 _ ⟨0x3F, 0, 0, 7, 7, 0⟩ rfl rfl rfl (by simp only [Instr.fields, field_and_zero]; rfl)

theorem shr (rd ra : DReg) (n : Int) : Statement (.shr rd ra n) :=
  of_row 17 _ ⟨0x3F, 0, 0, 7, 7, 0⟩ rfl rfl rfl (by simp only [Instr.fields, field_and_zero]; rfl)

theorem rnd (rd ra : DReg) (rule : RoundingRule) (places : Int) :
    Statement (.rnd rd ra rule places) :=
  of_row 18 _ ⟨0x3F, 0, 0, 7, 0, 0⟩ rfl rfl rfl (by simp only [Instr.fields, field_and_zero]; rfl)

theorem decomp (rd ra rb : DReg) : Statement (.decomp rd ra rb) :=
  of_row 19 _ ⟨0x3F, 0, 0, 0, 7, 0x3FFF⟩ rfl rfl rfl
    (by simp only [Instr.fields, field_and_zero]; rfl)

theorem cmpeq (ra rb : DReg) : Statement (.cmpeq ra rb) :=
  of_row 20 _ ⟨0x3F, 7, 0, 0, 7, 0x3FFF⟩ rfl rfl rfl
    (by simp only [Instr.fields, field_and_zero]; rfl)

theorem cmp (ra rb : DReg) : Statement (.cmp ra rb) :=
  of_row 21 _ ⟨0x3F, 7, 0, 0, 7, 0x3FFF⟩ rfl rfl rfl
    (by simp only [Instr.fields, field_and_zero]; rfl)

theorem parse (rd : DReg) : Statement (.parse rd) :=
  of_row 22 _ ⟨0x3F, 0, 7, 7, 7, 0x3FFF⟩ rfl rfl rfl
    (by simp only [Instr.fields, field_and_zero]; rfl)

theorem fmt (ra : DReg) : Statement (.fmt ra) :=
  of_row 23 _ ⟨0x3F, 7, 0, 7, 7, 0x3FFF⟩ rfl rfl rfl
    (by simp only [Instr.fields, field_and_zero]; rfl)

end EncodesItsRow

end Sys2Proof.Laws
end

