-- ==== Sys2Proof/Laws/Rounding.lean ====
section
/-! SUPPORT. Rounding to a scale and decomposition: the cases of roundCore (43_round.md R230) and all that
DECOMP's core can answer (R236). -/

namespace Sys2Proof.Machine

open Sys2Proof

variable {a : Decimal} {rule : RoundingRule} {n : Int}

/-- A value that is a multiple of 10^−scale already is encoded again (43_round.md R230). -/
theorem roundCore_exact (h : 0 ≤ a.exp + n) : roundCore a rule n = encodeDecimal a.sig a.exp := by
  unfold roundCore
  simp only
  rw [if_pos (by omega)]

/-- Otherwise `−(e + scale)` digits are dropped (43_round.md R230). -/
theorem roundCore_drop (h : a.exp + n < 0) :
    roundCore a rule n =
      if roundMagnitude rule a.sig (-(a.exp + n)).toNat = 0 then .ok 0
      else encodeDecimal (a.sig.sign * roundMagnitude rule a.sig (-(a.exp + n)).toNat) (-n) := by
  unfold roundCore
  simp only
  rw [if_neg (by omega)]

/-- The kept magnitude is the quotient or one more (43_round.md R230). -/
theorem roundMagnitude_cases (rule : RoundingRule) (s : Int) (k : Nat) :
    roundMagnitude rule s k =
      s.natAbs / 10 ^ k +
        (if increment rule s (s.natAbs / 10 ^ k) (s.natAbs % 10 ^ k) (10 ^ k / 2) then 1 else 0) := by
  unfold roundMagnitude
  simp only
  split <;> rfl

theorem decodeResult_ok_iff {w : Word} : decodeResult w = .ok a ↔ decodeDecimal w = some a := by
  unfold decodeResult
  cases decodeDecimal w <;> simp

theorem decodeResult_error_iff {w : Word} {c : ErrorCode} :
    decodeResult w = .error c ↔ decodeDecimal w = none ∧ c = .operand := by
  unfold decodeResult
  cases decodeDecimal w <;> simp [eq_comm]

/-- All that DECOMP's core gives when it succeeds (43_round.md R236): the integral part truncated toward
zero, and the magnitude of what is left. -/
theorem decompCore_ok_iff {p : Word × Word} :
    decompCore a = .ok p ↔
      ∃ i dw diff, roundCore a .towardZero 0 = .ok p.1 ∧ decodeDecimal p.1 = some i ∧
        addCore a i.negated = .ok dw ∧ decodeDecimal dw = some diff ∧ absCore diff = .ok p.2 := by
  unfold decompCore
  simp only [except_bind_ok_iff, decodeResult_ok_iff, except_pure, Except.ok.injEq]
  constructor
  · rintro ⟨iw, h1, i, h2, dw, h3, diff, h4, fw, h5, rfl⟩
    exact ⟨i, dw, diff, h1, h2, h3, h4, h5⟩
  · rintro ⟨i, dw, diff, h1, h2, h3, h4, h5⟩
    exact ⟨_, h1, i, h2, dw, h3, diff, h4, _, h5, rfl⟩

/-- Taking the magnitude (42_arith.md R197). -/
theorem absCore_eq (a : Decimal) : absCore a = encodeDecimal a.sig.natAbs a.exp := rfl

end Sys2Proof.Machine
end

