-- ==== Sys2Proof/Laws/Step.lean ====
section
/-! SUPPORT. What a step does with each event of the agenda (70_reset_and_hazards.md R364 to R366), and all
that it can answer. -/

namespace Sys2Proof.Machine

open Sys2Proof

variable {s t : State} {rest : List Event}

theorem unitMove_idle (h : s.inflight = none) : runMove (unitMove s) = .next s := by
  simp [runMove, unitMove, h]

theorem unitMove_legal {v : Word} {i : Instr} (h : s.inflight = some v) (hi : decodeCmd v = .ok i) :
    runMove (unitMove s) = exec i s := by
  simp [runMove, unitMove, h, hi]

theorem unitMove_illegal {v : Word} {e : DecodeError} (h : s.inflight = some v)
    (hi : decodeCmd v = .error e) : runMove (unitMove s) = .next (s.fail .illegal) := by
  simp [runMove, unitMove, h, hi]

/-- All that the unit's turn can answer. -/
theorem unitMove_cases (s : State) :
    (s.inflight = none ∧ runMove (unitMove s) = .next s) ∨
    (∃ v i, s.inflight = some v ∧ decodeCmd v = .ok i ∧ runMove (unitMove s) = exec i s) ∨
    (∃ v e, s.inflight = some v ∧ decodeCmd v = .error e ∧ runMove (unitMove s) = .next (s.fail .illegal)) := by
  cases h : s.inflight with
  | none => exact .inl ⟨rfl, unitMove_idle h⟩
  | some v =>
    cases hi : decodeCmd v with
    | ok i => exact .inr (.inl ⟨v, i, rfl, hi, unitMove_legal h hi⟩)
    | error e => exact .inr (.inr ⟨v, e, rfl, hi, unitMove_illegal h hi⟩)

theorem step_nil (h : s.agenda = []) : step s = runMove (unitMove s) := by
  simp [step, nextMove, h]

theorem step_unitTurn (h : s.agenda = .unitTurn :: rest) :
    step s = runMove (unitMove (s.withAgenda rest)) := by
  simp [step, nextMove, h, eventMove]

theorem step_reset (h : s.agenda = .reset :: rest) :
    step s = .next (s.withAgenda rest).afterReset := by
  simp [step, nextMove, h, eventMove, runMove]

theorem step_read {off size : Nat} (h : s.agenda = .read (Config.base + off) size :: rest)
    (ho : off < 256) : step s = .next (busRead (s.withAgenda rest) off size) := by
  simp [step, nextMove, h, eventMove, windowOffset_base ho, runMove]

theorem step_write {off size : Nat} {v : Word}
    (h : s.agenda = .write (Config.base + off) size v :: rest) (ho : off < 256) :
    step s = .next (busWrite (s.withAgenda rest) off size v) := by
  simp [step, nextMove, h, eventMove, windowOffset_base ho, runMove]

/-- A host read of a register (30_encoding.md R102). -/
theorem step_hostRd {r : BusReg} (h : s.agenda = hostRd r :: rest) :
    step s = .next (busRead (s.withAgenda rest) r.offset 8) :=
  step_read h (by have := r.offset_bounds; omega)

/-- A host write of a register (30_encoding.md R102). -/
theorem step_hostWr {r : BusReg} {v : Word} (h : s.agenda = hostWr r v :: rest) :
    step s = .next (busWrite (s.withAgenda rest) r.offset 8 v) :=
  step_write h (by have := r.offset_bounds; omega)

/-- All that a step can do when it answers a next state: the unit's turn, a reset, a read or a write
inside the window. -/
theorem step_cases (h : step s = .next t) :
    (s.agenda = [] ∧ runMove (unitMove s) = .next t) ∨
    (∃ rest, s.agenda = .unitTurn :: rest ∧ runMove (unitMove (s.withAgenda rest)) = .next t) ∨
    (∃ rest, s.agenda = .reset :: rest ∧ t = (s.withAgenda rest).afterReset) ∨
    (∃ rest off size, s.agenda = .read (Config.base + off) size :: rest ∧ off < 256 ∧
      t = busRead (s.withAgenda rest) off size) ∨
    (∃ rest off size v, s.agenda = .write (Config.base + off) size v :: rest ∧ off < 256 ∧
      t = busWrite (s.withAgenda rest) off size v) := by
  cases ha : s.agenda with
  | nil => exact .inl ⟨rfl, by rw [← step_nil ha, h]⟩
  | cons e rest =>
    cases e with
    | unitTurn => exact .inr (.inl ⟨rest, rfl, by rw [← step_unitTurn ha, h]⟩)
    | reset =>
      rw [step_reset ha, Host.Outcome.next.injEq] at h
      exact .inr (.inr (.inl ⟨rest, rfl, h.symm⟩))
    | read addr size =>
      cases hw : windowOffset addr with
      | none => simp [step, nextMove, ha, eventMove, hw, runMove] at h
      | some off =>
        obtain ⟨ho, rfl⟩ := windowOffset_some_iff.1 hw
        rw [step_read ha ho, Host.Outcome.next.injEq] at h
        exact .inr (.inr (.inr (.inl ⟨rest, off, size, rfl, ho, h.symm⟩)))
    | write addr size v =>
      cases hw : windowOffset addr with
      | none => simp [step, nextMove, ha, eventMove, hw, runMove] at h
      | some off =>
        obtain ⟨ho, rfl⟩ := windowOffset_some_iff.1 hw
        rw [step_write ha ho, Host.Outcome.next.injEq] at h
        exact .inr (.inr (.inr (.inr ⟨rest, off, size, v, rfl, ho, h.symm⟩)))

/-- The unit's turn runs its move on the state with that turn taken off the agenda (log entry 3). -/
theorem step_unitTurnNext {u : State} (h : s.unitTurnNext u) : step s = runMove (unitMove u) := by
  rcases h with ⟨ha, rfl⟩ | ⟨rest, ha, rfl⟩
  · exact step_nil ha
  · exact step_unitTurn ha

/-- While a command is in flight an access inside the window changes nothing but the agenda and the response
(10_state.md R38, 20_memory.md R66). -/
theorem step_access_busy {e : Event} (hb : s.status.busy = true) (h : s.agenda = e :: rest)
    (hw : e.inWindow = true) (he : e ≠ .reset) (hu : e ≠ .unitTurn) :
    ∃ r, step s = .next ((s.withAgenda rest).respond r) := by
  cases e with
  | unitTurn => exact absurd rfl hu
  | reset => exact absurd rfl he
  | read addr size =>
    obtain ⟨off, ho⟩ := Option.isSome_iff_exists.1 hw
    obtain ⟨ho', rfl⟩ := windowOffset_some_iff.1 ho
    rw [step_read h ho']
    rcases busRead_cases (s.withAgenda rest) off size with ⟨r, -, -, -, hr⟩ | hr <;> rw [hr] <;>
      exact ⟨_, rfl⟩
  | write addr size v =>
    obtain ⟨off, ho⟩ := Option.isSome_iff_exists.1 hw
    obtain ⟨ho', rfl⟩ := windowOffset_some_iff.1 ho
    rw [step_write h ho']
    rcases busWrite_cases (s.withAgenda rest) off size v with ⟨r, -, -, ha, hr⟩ | hr <;> rw [hr]
    · exact absurd (writeAllowed_iff.1 ha).1 (by simp [hb])
    · exact ⟨_, rfl⟩

/-- A register read that the block accepts gives its answer to the host (30_encoding.md R102). -/
theorem hostReads_hostRd {r : BusReg} (n : Nat) (h : s.agenda = hostRd r :: rest)
    (hb : s.status.busy = false ∨ r = .status) :
    hostReads (n + 1) s =
      readReg (s.withAgenda rest) r ::
        hostReads n ((s.withAgenda rest).respond (.readData (readReg (s.withAgenda rest) r))) := by
  have hs := step_hostRd h
  rw [busRead_accepted (s := s.withAgenda rest) hb] at hs
  simp only [hostReads, hs]
  simp [readAnswer, h, hostRd]

/-- A run of no steps. -/
theorem run_zero (s : State) : Host.Core.run Sys2Proof.core 0 s = .next s := rfl

/-- A run whose first step answers a next state. -/
theorem run_next (k : Nat) (h : step s = .next t) :
    Host.Core.run Sys2Proof.core (k + 1) s = Host.Core.run Sys2Proof.core k t := by
  have h' : Sys2Proof.core.step s = .next t := h
  simp only [Host.Core.run, h']

/-- Every meaning answers a next state (60_exceptions.md R330). -/
theorem exec_ne_fault (i : Instr) (f : Fault) : exec i s ≠ .fault f := by
  obtain ⟨r, hr⟩ := exec_is_completion i s
  rw [hr]
  cases r <;> simp [State.complete]

theorem exec_ne_refused (i : Instr) (f : Refusal) : exec i s ≠ .refused f := by
  obtain ⟨r, hr⟩ := exec_is_completion i s
  rw [hr]
  cases r <;> simp [State.complete]

/-- No step refuses: every command has its meaning. -/
theorem step_ne_refused (f : Refusal) : step s ≠ .refused f := by
  have hu : ∀ s : State, runMove (unitMove s) ≠ .refused f := by
    intro s
    rcases unitMove_cases s with ⟨-, h⟩ | ⟨_, i, -, -, h⟩ | ⟨_, _, -, -, h⟩ <;> rw [h]
    · simp
    · exact exec_ne_refused i f
    · simp
  cases ha : s.agenda with
  | nil => rw [step_nil ha]; exact hu s
  | cons e rest =>
    cases e with
    | unitTurn => rw [step_unitTurn ha]; exact hu _
    | reset => rw [step_reset ha]; simp
    | read addr size =>
      simp only [step, nextMove, ha, eventMove]
      split <;> simp [runMove]
    | write addr size v =>
      simp only [step, nextMove, ha, eventMove]
      split <;> simp [runMove]

/-- A step faults only on an access outside the window (20_memory.md R62; log entry 2). -/
theorem step_fault {f : Fault} (h : step s = .fault f) :
    ∃ e rest, s.agenda = e :: rest ∧ e.inWindow = false := by
  have hu : ∀ s : State, runMove (unitMove s) ≠ .fault f := by
    intro s
    rcases unitMove_cases s with ⟨-, h⟩ | ⟨_, i, -, -, h⟩ | ⟨_, _, -, -, h⟩ <;> rw [h]
    · simp
    · exact exec_ne_fault i f
    · simp
  cases ha : s.agenda with
  | nil => rw [step_nil ha] at h; exact absurd h (hu s)
  | cons e rest =>
    refine ⟨e, rest, rfl, ?_⟩
    cases e with
    | unitTurn => rw [step_unitTurn ha] at h; exact absurd h (hu _)
    | reset => rw [step_reset ha] at h; simp at h
    | read addr size =>
      simp only [step, nextMove, ha, eventMove] at h
      split at h
      · simp [runMove] at h
      · next hw => simp [Event.inWindow, hw]
    | write addr size v =>
      simp only [step, nextMove, ha, eventMove] at h
      split at h
      · simp [runMove] at h
      · next hw => simp [Event.inWindow, hw]

end Sys2Proof.Machine
end

