-- ==== Sys2Proof/Laws/Strings.lean ====
section
/-! SUPPORT. The parts of the scanner and of the formatter (45_string.md R280 to R292): what each takes from
its input and what it builds, so that no proof unfolds the recursions. -/

namespace Sys2Proof.Machine

open Sys2Proof

/-! ### Digit characters -/

theorem digitChar_toNat {n : Nat} (h : n < 10) : (digitChar n).toNat = 0x30 + n := by
  unfold digitChar
  rw [BitVec.toNat_ofNat, Nat.mod_eq_of_lt (by omega)]

theorem isDigit_digitChar {n : Nat} (h : n < 10) : isDigit (digitChar n) = true := by
  simp only [isDigit, digitChar_toNat h, decide_eq_true_eq]
  omega

theorem digitValue_digitChar {n : Nat} (h : n < 10) : digitValue (digitChar n) = n := by
  simp only [digitValue, digitChar_toNat h]
  omega

theorem digitValue_lt {b : Byte} (h : isDigit b = true) : digitValue b < 10 := by
  simp only [isDigit, decide_eq_true_eq] at h
  simp only [digitValue]
  omega

/-- The character classes do not meet (45_string.md R280). -/
theorem isDigit_not_others : ∀ b : Byte, isDigit b = true →
    isWhitespace b = false ∧ isSign b = false ∧ isExponentMark b = false ∧ b ≠ 0x2E := by
  decide

theorem isSign_not_others : ∀ b : Byte, isSign b = true →
    isWhitespace b = false ∧ isDigit b = false ∧ isExponentMark b = false ∧ b ≠ 0x2E := by
  decide

theorem isExponentMark_not_others : ∀ b : Byte, isExponentMark b = true →
    isWhitespace b = false ∧ isDigit b = false ∧ isSign b = false ∧ b ≠ 0x2E := by
  decide

/-! ### digits(m) -/

theorem digitsValue_append (xs ys : List Byte) :
    digitsValue (xs ++ ys) = digitsValue xs * 10 ^ ys.length + digitsValue ys := by
  have gen : ∀ (ys : List Byte) (n : Nat),
      ys.foldl (fun n b => n * 10 + digitValue b) n = n * 10 ^ ys.length + digitsValue ys := by
    intro ys
    induction ys with
    | nil => simp [digitsValue]
    | cons y ys ih =>
      intro n
      simp only [digitsValue, List.foldl_cons, List.length_cons]
      rw [ih, ih (0 * 10 + digitValue y)]
      ring
  rw [digitsValue, List.foldl_append]
  exact gen ys _

/-- The recursion writes its digits in front of what it is given. -/
theorem digitsFrom_append (fuel m : Nat) (acc : List Byte) :
    digitsFrom fuel m acc = digitsFrom fuel m [] ++ acc := by
  induction fuel generalizing m acc with
  | zero => rfl
  | succ fuel ih =>
    simp only [digitsFrom]
    split
    · rfl
    · rw [ih (m / 10) (digitChar (m % 10) :: acc), ih (m / 10) [digitChar (m % 10)],
        List.append_assoc]
      rfl

theorem digitsFrom_spec (fuel m : Nat) (h : m < 10 ^ fuel) :
    digitsValue (digitsFrom fuel m []) = m ∧
      (digitsFrom fuel m []).length = ndigitsFrom fuel m ∧
      (digitsFrom fuel m []).all isDigit = true ∧
      (m ≠ 0 → ∃ d ds, digitsFrom fuel m [] = d :: ds ∧ d ≠ 0x30) := by
  induction fuel generalizing m with
  | zero =>
    have h0 : m = 0 := by simpa using h
    subst h0
    exact ⟨rfl, rfl, rfl, fun h => absurd rfl h⟩
  | succ fuel ih =>
    by_cases hm : m = 0
    · subst hm
      exact ⟨rfl, rfl, rfl, fun h => absurd rfl h⟩
    · have hlt : m / 10 < 10 ^ fuel := by
        rw [pow_succ] at h
        omega
      obtain ⟨h1, h2, h3, h4⟩ := ih (m / 10) hlt
      have hd : m % 10 < 10 := Nat.mod_lt _ (by decide)
      simp only [digitsFrom, ndigitsFrom, hm, if_false]
      rw [digitsFrom_append]
      refine ⟨?_, ?_, ?_, fun _ => ?_⟩
      · rw [digitsValue_append, h1]
        simp only [List.length_singleton, digitsValue, List.foldl_cons, List.foldl_nil,
          digitValue_digitChar hd]
        omega
      · rw [List.length_append, h2]
        rfl
      · rw [List.all_append, h3]
        simp [isDigit_digitChar hd]
      · by_cases h0 : m / 10 = 0
        · have he : digitsFrom fuel (m / 10) [] = [] := by
            rw [h0]
            cases fuel <;> rfl
          refine ⟨digitChar (m % 10), [], by rw [he]; rfl, fun hc => ?_⟩
          have := congrArg BitVec.toNat hc
          rw [digitChar_toNat hd] at this
          have h48 : (0x30 : Byte).toNat = 48 := rfl
          omega
        · obtain ⟨d, ds, he, hd0⟩ := h4 h0
          exact ⟨d, ds ++ [digitChar (m % 10)], by rw [he]; rfl, hd0⟩

/-- `digits(m)` spells `m`, in digit characters (45_string.md R290). -/
theorem digitsValue_digits (m : Nat) : digitsValue (digits m) = m :=
  (digitsFrom_spec _ m (lt_ten_pow_log2 m)).1

theorem digits_length (m : Nat) : (digits m).length = ndigits m :=
  (digitsFrom_spec _ m (lt_ten_pow_log2 m)).2.1

theorem digits_isDigit (m : Nat) : (digits m).all isDigit = true :=
  (digitsFrom_spec _ m (lt_ten_pow_log2 m)).2.2.1

/-- `digits(m)` has no leading zero (45_string.md R290). -/
theorem digits_head {m : Nat} (h : m ≠ 0) : ∃ d ds, digits m = d :: ds ∧ d ≠ 0x30 :=
  (digitsFrom_spec _ m (lt_ten_pow_log2 m)).2.2.2 h

/-- `digits(m)` is the digit string of `m` (45_string.md R290). -/
theorem digits_spells {m : Nat} (h : m ≠ 0) : spellsNumber (digits m) m := by
  obtain ⟨d, ds, he, hd⟩ := digits_head h
  exact ⟨digits_isDigit m, digitsValue_digits m, by rw [he]; simpa using hd⟩

/-! ### The formatter -/

/-- fmtCore's loop drops zeros, never more than the exponent is below zero (45_string.md R291). -/
theorem stripFraction_spec (bs : List Byte) (e : Int) :
    ∃ k : Nat, bs = List.replicate k 0x30 ++ (stripFraction bs e).1 ∧
      (stripFraction bs e).2 = e + k ∧ (0 ≤ e → k = 0) ∧ (e < 0 → e + k ≤ 0) ∧
      (∀ c cs, (stripFraction bs e).1 = c :: cs → 0 ≤ e + k ∨ c ≠ 0x30) := by
  induction bs generalizing e with
  | nil => exact ⟨0, rfl, by simp [stripFraction], fun _ => rfl, fun h => by omega, by simp [stripFraction]⟩
  | cons b bs ih =>
    simp only [stripFraction]
    split
    · next h =>
      obtain ⟨k, h1, h2, h3, h4, h5⟩ := ih (e + 1)
      refine ⟨k + 1, ?_, by rw [h2]; push_cast; ring, fun he => by omega, fun he => ?_, fun c cs hc => ?_⟩
      · rw [List.replicate_succ, List.cons_append, ← h1, h.2]
      · by_cases h0 : 0 ≤ e + 1
        · have := h3 h0
          omega
        · have := h4 (by omega)
          omega
      · rcases h5 c cs hc with h6 | h6
        · exact .inl (by push_cast; omega)
        · exact .inr h6
    · next h =>
      refine ⟨0, rfl, by simp, fun _ => rfl, fun he => by omega, fun c cs hc => ?_⟩
      simp only [List.cons.injEq] at hc
      rw [← hc.1]
      by_cases hb : b = 0x30
      · have hn : ¬e < 0 := fun he => h ⟨he, hb⟩
        exact .inl (by omega)
      · exact .inr hb

/-- sci's loop drops every zero (45_string.md R292). -/
theorem stripZeros_spec (bs : List Byte) (e : Int) :
    ∃ k : Nat, bs = List.replicate k 0x30 ++ (stripZeros bs e).1 ∧ (stripZeros bs e).2 = e + k ∧
      (∀ c cs, (stripZeros bs e).1 = c :: cs → c ≠ 0x30) := by
  induction bs generalizing e with
  | nil => exact ⟨0, rfl, by simp [stripZeros], by simp [stripZeros]⟩
  | cons b bs ih =>
    simp only [stripZeros]
    split
    · next h =>
      obtain ⟨k, h1, h2, h3⟩ := ih (e + 1)
      refine ⟨k + 1, ?_, by rw [h2]; push_cast; ring, h3⟩
      rw [List.replicate_succ, List.cons_append, ← h1, h]
    · next h =>
      refine ⟨0, rfl, by simp, fun c cs hc => ?_⟩
      simp only [List.cons.injEq] at hc
      rw [← hc.1]
      exact h

/-! ### The scanner -/

/-- Skipping takes exactly the leading whitespace (45_string.md R283). -/
theorem skipWhitespace_spec (bs : List Byte) :
    ∃ ws, bs = ws ++ skipWhitespace bs ∧ ws.all isWhitespace = true ∧
      ∀ c cs, skipWhitespace bs = c :: cs → isWhitespace c = false := by
  induction bs with
  | nil => exact ⟨[], rfl, rfl, by simp [skipWhitespace]⟩
  | cons b bs ih =>
    simp only [skipWhitespace]
    split
    · next h =>
      obtain ⟨ws, h1, h2, h3⟩ := ih
      exact ⟨b :: ws, by rw [List.cons_append, ← h1], by simp [h, h2], h3⟩
    · next h =>
      refine ⟨[], rfl, rfl, fun c cs hc => ?_⟩
      simp only [List.cons.injEq] at hc
      rw [← hc.1]
      simpa using h

/-- The sign is taken when there is one (45_string.md R283). -/
theorem takeSign_spec (bs : List Byte) :
    ∃ sg, bs = sg ++ (takeSign bs).2 ∧ optionalSign sg ∧ ((takeSign bs).1 = true ↔ sg = [0x2D]) ∧
      (sg = [] → ∀ c cs, (takeSign bs).2 = c :: cs → isSign c = false) := by
  cases bs with
  | nil => exact ⟨[], rfl, .inl rfl, by simp [takeSign], by simp [takeSign]⟩
  | cons b bs =>
    simp only [takeSign]
    split
    · next h => exact ⟨[b], rfl, .inr ⟨b, rfl, h⟩, by simp, by simp⟩
    · next h =>
      refine ⟨[], rfl, .inl rfl, by simp, fun _ c cs hc => ?_⟩
      simp only [List.cons.injEq] at hc
      rw [← hc.1]
      simpa using h

/-- The integer part takes exactly the leading digits, one scanner step each (45_string.md R283). -/
theorem scanInteger_spec (bs : List Byte) (a : Scan) :
    ∃ ds, bs = ds ++ (scanInteger bs a).2 ∧ ds.all isDigit = true ∧
      (scanInteger bs a).1 = ds.foldl (fun a b => a.integerDigit (digitValue b)) a ∧
      ∀ c cs, (scanInteger bs a).2 = c :: cs → isDigit c = false := by
  induction bs generalizing a with
  | nil => exact ⟨[], rfl, rfl, rfl, by simp [scanInteger]⟩
  | cons b bs ih =>
    simp only [scanInteger]
    split
    · next h =>
      obtain ⟨ds, h1, h2, h3, h4⟩ := ih (a.integerDigit (digitValue b))
      exact ⟨b :: ds, by rw [List.cons_append, ← h1], by simp [h, h2], h3, h4⟩
    · next h =>
      refine ⟨[], rfl, rfl, rfl, fun c cs hc => ?_⟩
      simp only [List.cons.injEq] at hc
      rw [← hc.1]
      simpa using h

/-- The fraction takes exactly the leading digits, one scanner step each (45_string.md R283). -/
theorem scanFraction_spec (bs : List Byte) (a : Scan) :
    ∃ ds, bs = ds ++ (scanFraction bs a).2 ∧ ds.all isDigit = true ∧
      (scanFraction bs a).1 = ds.foldl (fun a b => a.fractionDigit (digitValue b)) a ∧
      ∀ c cs, (scanFraction bs a).2 = c :: cs → isDigit c = false := by
  induction bs generalizing a with
  | nil => exact ⟨[], rfl, rfl, rfl, by simp [scanFraction]⟩
  | cons b bs ih =>
    simp only [scanFraction]
    split
    · next h =>
      obtain ⟨ds, h1, h2, h3, h4⟩ := ih (a.fractionDigit (digitValue b))
      exact ⟨b :: ds, by rw [List.cons_append, ← h1], by simp [h, h2], h3, h4⟩
    · next h =>
      refine ⟨[], rfl, rfl, rfl, fun c cs hc => ?_⟩
      simp only [List.cons.injEq] at hc
      rw [← hc.1]
      simpa using h

/-- The exponent's digits: one to three of them, and no fourth (45_string.md R283). -/
theorem scanExponentDigits_ok_iff {bs rest : List Byte} {ev ed v : Nat} (hed : ed ≤ 3) :
    scanExponentDigits bs ev ed = .ok (v, rest) ↔
      ∃ ds, bs = ds ++ rest ∧ ds.all isDigit = true ∧ 1 ≤ ed + ds.length ∧ ed + ds.length ≤ 3 ∧
        v = ds.foldl (fun n b => n * 10 + digitValue b) ev ∧
        ∀ c cs, rest = c :: cs → isDigit c = false := by
  induction bs generalizing ev ed with
  | nil =>
    simp only [scanExponentDigits]
    split
    · next h =>
      simp only [reduceCtorEq, false_iff]
      rintro ⟨ds, h1, -, h3, -⟩
      have : ds = [] := (List.append_eq_nil_iff.1 h1.symm).1
      subst this
      simp at h3
      omega
    · next h =>
      rw [Except.ok.injEq, Prod.mk.injEq]
      constructor
      · rintro ⟨rfl, rfl⟩
        exact ⟨[], rfl, rfl, by simp; omega, by simpa using hed, rfl, by simp⟩
      · rintro ⟨ds, h1, -, -, -, h5, -⟩
        obtain ⟨rfl, rfl⟩ := List.append_eq_nil_iff.1 h1.symm
        exact ⟨h5.symm, rfl⟩
  | cons b bs ih =>
    simp only [scanExponentDigits]
    split
    · next hb =>
      split
      · next h3 =>
        simp only [reduceCtorEq, false_iff]
        rintro ⟨ds, h1, h2, h4, h5, -, h6⟩
        have : ds = [] := List.length_eq_zero_iff.1 (by omega)
        subst this
        rw [List.nil_append] at h1
        rw [h6 b bs h1.symm] at hb
        cases hb
      · next h3 =>
        rw [ih (by omega)]
        constructor
        · rintro ⟨ds, rfl, h2, h4, h5, rfl, h6⟩
          exact ⟨b :: ds, rfl, by simp [hb, h2], by simp; omega, by simp; omega, rfl, h6⟩
        · rintro ⟨ds, h1, h2, h4, h5, h7, h6⟩
          cases ds with
          | nil =>
            rw [List.nil_append] at h1
            rw [h6 b bs h1.symm] at hb
            cases hb
          | cons d ds =>
            simp only [List.cons_append, List.cons.injEq] at h1
            obtain ⟨rfl, rfl⟩ := h1
            simp only [List.all_cons, Bool.and_eq_true] at h2
            simp only [List.length_cons] at h5
            exact ⟨ds, rfl, h2.2, by omega, by omega, h7, h6⟩
    · next hb =>
      split
      · next h0 =>
        simp only [reduceCtorEq, false_iff]
        rintro ⟨ds, h1, h2, h4, -⟩
        cases ds with
        | nil => simp at h4; omega
        | cons d ds =>
          simp only [List.cons_append, List.cons.injEq] at h1
          simp only [List.all_cons, Bool.and_eq_true] at h2
          exact hb (h1.1 ▸ h2.1)
      · next h0 =>
        rw [Except.ok.injEq, Prod.mk.injEq]
        constructor
        · rintro ⟨rfl, rfl⟩
          refine ⟨[], rfl, rfl, by simp; omega, by simpa using hed, rfl, fun c cs hc => ?_⟩
          simp only [List.cons.injEq] at hc
          rw [← hc.1]
          simpa using hb
        · rintro ⟨ds, h1, h2, -, -, h7, -⟩
          cases ds with
          | nil => exact ⟨h7.symm, h1⟩
          | cons d ds =>
            simp only [List.cons_append, List.cons.injEq] at h1
            simp only [List.all_cons, Bool.and_eq_true] at h2
            exact absurd (h1.1 ▸ h2.1) hb

/-- Whatever the scanner finds wrong is E_PARSE (45_string.md R283). -/
theorem scanExponentDigits_error {bs : List Byte} {ev ed : Nat} {c : ErrorCode}
    (h : scanExponentDigits bs ev ed = .error c) : c = .parse := by
  induction bs generalizing ev ed with
  | nil =>
    simp only [scanExponentDigits] at h
    split at h
    · exact (Except.error.inj h).symm
    · cases h
  | cons b bs ih =>
    simp only [scanExponentDigits] at h
    split at h
    · split at h
      · exact (Except.error.inj h).symm
      · exact ih h
    · split at h
      · exact (Except.error.inj h).symm
      · cases h

theorem parseLiteral_error {bs : List Byte} {c : ErrorCode} (h : parseLiteral bs = .error c) :
    c = .parse := by
  unfold parseLiteral at h
  simp only at h
  split at h
  · exact (Except.error.inj h).symm
  · rcases except_bind_error_iff.1 h with h | ⟨e, -, h⟩
    · unfold scanExponent at h
      split at h
      · cases h
      · split at h
        · rcases except_bind_error_iff.1 h with h | ⟨r, -, h⟩
          · exact scanExponentDigits_error h
          · cases h
        · cases h
    · split at h
      · exact (Except.error.inj h).symm
      · cases h

end Sys2Proof.Machine
end

