-- ==== Sys2Proof/Tests/Slice0.lean ====
section
/-! SUPPORT. Tests of the model, each a named theorem. Expected values come from spec/: the fields of
30_encoding.md R91 and R95, the vectors of 95_test_vectors.md section 2 and the tables of 45_string.md R286
and R296. The `witness_` theorems show inputs that meet the hypotheses of the statements in
Certificates/Slice0/Obligations.lean, at boundary values. -/

namespace Sys2Proof.Tests

open Sys2Proof Sys2Proof.Machine

/-! ### Ill-formed commands are refused -/

theorem test_smoke_pow10_immediate : Instr.wellFormed (.pow10 8192) = false := by decide

theorem test_smoke_scale_immediate : Instr.wellFormed (.scale (-8193)) = false := by decide

theorem test_smoke_shupc_immediate : Instr.wellFormed (.shupc 8192) = false := by decide

theorem test_smoke_enc_immediate : Instr.wellFormed (.enc 0 (-8193)) = false := by decide

theorem test_smoke_shl_immediate : Instr.wellFormed (.shl 0 0 8192) = false := by decide

theorem test_smoke_shr_immediate : Instr.wellFormed (.shr 0 0 (-8193)) = false := by decide

theorem test_smoke_rnd_immediate : Instr.wellFormed (.rnd 0 0 .down 8192) = false := by decide

theorem test_smoke_decomp_same_destination : Instr.wellFormed (.decomp 3 0 3) = false := by decide

/-! ### Decoding: the words of every command, written out field by field -/

/-- A command word from its six fields, in the order of 30_encoding.md R91. -/
def word (op : BitVec 6) (rd ra rb rm : BitVec 3) (imm : BitVec 14) : Nat :=
  (op ++ rd ++ ra ++ rb ++ rm ++ imm : BitVec 32).toNat

theorem test_decode_pow10 :
    decodeTableWord 32 (word 0b000001 0b000 0b000 0b000 0b000 0b00000000010010) =
    some (.pow10 18) := by decide

theorem test_decode_scale :
    decodeTableWord 32 (word 0b000010 0b000 0b000 0b000 0b000 0b11111111101111) =
    some (.scale (-17)) := by decide

theorem test_decode_shup16 :
    decodeTableWord 32 (word 0b000011 0b000 0b000 0b000 0b000 0b00000000000000) =
    some .shup16 := by decide

theorem test_decode_shup17 :
    decodeTableWord 32 (word 0b000100 0b000 0b000 0b000 0b000 0b00000000000000) =
    some .shup17 := by decide

theorem test_decode_shup18 :
    decodeTableWord 32 (word 0b000101 0b000 0b000 0b000 0b000 0b00000000000000) =
    some .shup18 := by decide

theorem test_decode_shupc :
    decodeTableWord 32 (word 0b000110 0b000 0b000 0b000 0b000 0b01111111111111) =
    some (.shupc 8191) := by decide

theorem test_decode_enc :
    decodeTableWord 32 (word 0b001000 0b000 0b000 0b000 0b000 0b11111111111101) =
    some (.enc 0 (-3)) := by decide

theorem test_decode_sig :
    decodeTableWord 32 (word 0b001001 0b000 0b001 0b000 0b000 0b00000000000000) =
    some (.sig 1) := by decide

theorem test_decode_exp :
    decodeTableWord 32 (word 0b001010 0b000 0b110 0b000 0b000 0b00000000000000) =
    some (.exp 6) := by decide

theorem test_decode_sgn :
    decodeTableWord 32 (word 0b001011 0b000 0b111 0b000 0b000 0b00000000000000) =
    some (.sgn 7) := by decide

theorem test_decode_norm :
    decodeTableWord 32 (word 0b001100 0b011 0b010 0b000 0b000 0b00000000000000) =
    some (.norm 3 2) := by decide

theorem test_decode_add :
    decodeTableWord 32 (word 0b010000 0b010 0b000 0b001 0b000 0b00000000000000) =
    some (.add 2 0 1) := by decide

theorem test_decode_sub :
    decodeTableWord 32 (word 0b010001 0b100 0b001 0b010 0b000 0b00000000000000) =
    some (.sub 4 1 2) := by decide

theorem test_decode_mul :
    decodeTableWord 32 (word 0b010010 0b111 0b101 0b110 0b000 0b00000000000000) =
    some (.mul 7 5 6) := by decide

theorem test_decode_div :
    decodeTableWord 32 (word 0b010011 0b010 0b001 0b000 0b000 0b00000000000000) =
    some (.div 2 1 0) := by decide

theorem test_decode_neg :
    decodeTableWord 32 (word 0b010100 0b001 0b110 0b000 0b000 0b00000000000000) =
    some (.neg 1 6) := by decide

theorem test_decode_shl :
    decodeTableWord 32 (word 0b010101 0b000 0b011 0b000 0b000 0b00000000000001) =
    some (.shl 0 3 1) := by decide

theorem test_decode_shr :
    decodeTableWord 32 (word 0b010110 0b101 0b010 0b000 0b000 0b10000000000000) =
    some (.shr 5 2 (-8192)) := by decide

theorem test_decode_rnd :
    decodeTableWord 32 (word 0b010111 0b001 0b000 0b000 0b011 0b00000000000111) =
    some (.rnd 1 0 .nearestEven 7) := by decide

theorem test_decode_decomp :
    decodeTableWord 32 (word 0b011000 0b001 0b000 0b010 0b000 0b00000000000000) =
    some (.decomp 1 0 2) := by decide

theorem test_decode_cmpeq :
    decodeTableWord 32 (word 0b100000 0b000 0b010 0b011 0b000 0b00000000000000) =
    some (.cmpeq 2 3) := by decide

theorem test_decode_cmp :
    decodeTableWord 32 (word 0b100001 0b000 0b000 0b010 0b000 0b00000000000000) =
    some (.cmp 0 2) := by decide

theorem test_decode_parse :
    decodeTableWord 32 (word 0b101000 0b101 0b000 0b000 0b000 0b00000000000000) =
    some (.parse 5) := by decide

theorem test_decode_fmt :
    decodeTableWord 32 (word 0b101001 0b000 0b100 0b000 0b000 0b00000000000000) =
    some (.fmt 4) := by decide

/-! ### Decoding: what is refused, and by which name (30_encoding.md R98, 95_test_vectors.md 2.2) -/

theorem test_refuse_upper_bits : decodeCmd 0x0000000104000005 = .error .upperBits := rfl

theorem test_refuse_opcode_zero :
    decodeCmd 0x0000000000000000 = .error (.undefinedOpcode 0x00) := rfl

theorem test_refuse_opcode_0x19 :
    decodeCmd 0x0000000064000000 = .error (.undefinedOpcode 0x19) := rfl

theorem test_refuse_unused_rd : decodeCmd 0x0000000024800000 = .error (.unusedField 0x09) := rfl

theorem test_refuse_unused_imm : decodeCmd 0x000000000C000001 = .error (.unusedField 0x03) := rfl

theorem test_refuse_reserved_rounding :
    decodeCmd 0x000000005C818000 = .error (.reservedRounding 6) := rfl

theorem test_refuse_same_destination :
    decodeCmd 0x0000000060820000 = .error (.sameDestination 1) := rfl

/-! ### One step of every command (95_test_vectors.md section 2) -/

/-- Reset with the words `a` in D0 and `b` in D1, and `v` in DATA. -/
def start (a b v : Word) : State := ((State.reset.writeD 0 a).writeD 1 b).writeData v

/-- What a command leaves of one piece of the state. -/
def after {α : Type} (i : Instr) (s : State) (f : State → α) : Option α := (nextState (exec i s)).map f

/-- RESULT and AUX. -/
def results (s : State) : Word × Word := (s.result, s.aux)

/-- ECODE, and the destination D2. -/
def codeAndD2 (s : State) : BitVec 4 × Word := (s.status.ecode, s.readD 2)

/-- 95 2.3 -/
theorem test_pow10_18 :
    after (.pow10 18) (start 0 0 0) (·.result) =
    some 0x0DE0B6B3A7640000 := by decide

/-- 95 2.3: E_RANGE -/
theorem test_pow10_19 : after (.pow10 19) (start 0 0 0) (·.status.ecode) =
    some 3 := by decide

/-- 95 2.4: toward zero, not floor -/
theorem test_scale_truncates :
    after (.scale (-1)) (start 0 0 0xFFFFFFFFFFFFFF7F) (·.result) =
    some 0xFFFFFFFFFFFFFFF4 := by decide

/-- 95 2.4: E_RANGE -/
theorem test_scale_overflow :
    after (.scale 1) (start 0 0 0x0CCCCCCCCCCCCCCD) (·.status.ecode) =
    some 3 := by decide

/-- 95 2.5 -/
theorem test_shup16_negative :
    after .shup16 (start 0 0 0xFFFFFFFFFFFFFFF9) results =
    some (0xFFE721897E928000, 15) := by decide

/-- 95 2.5: E_RANGE -/
theorem test_shup16_seventeen_digits :
    after .shup16 (start 0 0 0x002386F26FC10000) (·.status.ecode) =
    some 3 := by decide

/-- 95 2.5 -/
theorem test_shup17_123 :
    after .shup17 (start 0 0 0x000000000000007B) results =
    some (0x002BB2C8EABCC000, 14) := by decide

/-- 95 2.5: E_RANGE -/
theorem test_shup17_eighteen_digits :
    after .shup17 (start 0 0 0x016345785D8A0000) (·.status.ecode) =
    some 3 := by decide

/-- 95 2.5 -/
theorem test_shup18_one :
    after .shup18 (start 0 0 0x0000000000000001) results =
    some (0x016345785D8A0000, 17) := by decide

/-- 95 2.5: E_RANGE -/
theorem test_shup18_zero : after .shup18 (start 0 0 0) (·.status.ecode) =
    some 3 := by decide

/-- 95 2.6 -/
theorem test_shupc_capped :
    after (.shupc 3) (start 0 0 0xFFFFFFFFFFFFFFFB) results =
    some (0xFFFFFFFFFFFFEC78, 3) := by decide

/-- 95 2.6: zero reports the limit -/
theorem test_shupc_zero : after (.shupc 7) (start 0 0 0) results =
    some (0, 7) := by decide

/-- 95 2.7 -/
theorem test_enc_negative :
    after (.enc 2 (-3)) (start 0 0 0xFFFFFFFFFFFFF2FB) (·.readD 2) =
    some 0xFFFFFFFFFFE5F503 := by decide

/-- 95 2.7: E_RANGE, D2 unchanged -/
theorem test_enc_exponent_256 :
    after (.enc 2 256) (start 0 0 0x0000000000000001) codeAndD2 =
    some (3, 0) := by decide

/-- 95 2.8 -/
theorem test_sig_negative :
    after (.sig 0) (start 0xFFFFFFFFFFE5F503 0 0) (·.result) =
    some 0xFFFFFFFFFFFFF2FB := by decide

/-- 95 2.8: E_OPERAND -/
theorem test_sig_invalid :
    after (.sig 0) (start 0x0000000000000001 0 0) (·.status.ecode) =
    some 2 := by decide

/-- 95 2.8 -/
theorem test_exp_negative :
    after (.exp 0) (start 0x0000000000000A06 0 0) (·.result) =
    some 0xFFFFFFFFFFFFFF06 := by decide

/-- 95 2.8: E_OPERAND -/
theorem test_exp_invalid :
    after (.exp 0) (start 0x8000000000000000 0 0) (·.status.ecode) =
    some 2 := by decide

/-- 95 2.8 -/
theorem test_sgn_negative :
    after (.sgn 0) (start 0xFFFFFFFFFFFFE6FD 0 0) (·.result) =
    some 1 := by decide

/-- 95 2.8: SGN takes any word -/
theorem test_sgn_invalid_word :
    after (.sgn 0) (start 0x8000000000000000 0 0) (·.result) =
    some 1 := by decide

/-- 95 2.8 -/
theorem test_norm_negative :
    after (.norm 2 0) (start 0xFFFFFFFFFFE5F503 0 0) (·.readD 2) =
    some 0xE8514EEDED5FFF0F := by decide

/-- 95 2.8 -/
theorem test_norm_stops_at_emin :
    after (.norm 2 0) (start 0x0000000000000A06 0 0) (·.readD 2) =
    some 0x0000000098968000 := by decide

/-- 95 2.9 -/
theorem test_add_aligns :
    after (.add 2 0 1) (start 0x00000000006072FE 0xFFFFFFFFFFFFF0FD 0) (·.readD 2) =
    some 0xFFFFFFFFEB03B102 := by decide

/-- 95 2.9: E_OVERFLOW -/
theorem test_add_overflow :
    after (.add 2 0 1) (start 0x470DE4DF81FFFFFD 0x00000000000003FD 0) codeAndD2 =
    some (5, 0) := by decide

/-- 95 2.9 -/
theorem test_sub_cancels :
    after (.sub 2 0 1) (start 0x0000000000000300 0x00000000000002F0 0) (·.readD 2) =
    some 0x470DE4DF81FFFEF0 := by decide

/-- 95 2.9 -/
theorem test_sub_source_is_destination :
    after (.sub 0 0 1) (start 0 0x0000000000000AD8 0) (·.readD 0) =
    some 0xFFFFFFFFFFFFF528 := by decide

/-- 95 2.10: half away from zero -/
theorem test_mul_rounds_away :
    after (.mul 2 0 1) (start 0xEE3C86C81F7FFD00 0x0000000000000B00 0) (·.readD 2) =
    some 0xF71E43640FBFFCFF := by decide

/-- 95 2.10 -/
theorem test_mul_underflow_truncates :
    after (.mul 2 0 1) (start 0x0000000003C48006 0x00000000000002F6 0) (·.readD 2) =
    some 0x0000000000001800 := by decide

/-- 95 2.11 -/
theorem test_div_two_thirds :
    after (.div 2 0 1) (start 0x0000000000000500 0x0000000000000700 0) (·.readD 2) =
    some 0x2F5E9895015556F0 := by decide

/-- 95 2.11: E_DIVZERO -/
theorem test_div_zero_by_zero :
    after (.div 2 0 1) (start 0 0 0) codeAndD2 =
    some (4, 0) := by decide

/-- 95 2.12 -/
theorem test_neg_keeps_exponent :
    after (.neg 2 0) (start 0xFFFFFFFFFFE5F503 0 0) (·.readD 2) =
    some 0x00000000001A0AFD := by decide

/-- 95 2.12 -/
theorem test_neg_zero : after (.neg 2 0) (start 0 0 0) codeAndD2 =
    some (0, 0) := by decide

/-- 95 2.12 -/
theorem test_shl_denormalises :
    after (.shl 2 0 5) (start 0x00000000000003FA 0 0) (·.readD 2) =
    some 0x071AFD498D0001F0 := by decide

/-- 95 2.12: E_OVERFLOW even for N = 0 -/
theorem test_shl_overflow :
    after (.shl 2 0 0) (start 0x470DE4DF81FFFFFF 0 0) codeAndD2 =
    some (5, 0) := by decide

/-- 95 2.12 -/
theorem test_shr_underflow :
    after (.shr 2 0 8) (start 0x0000000003C48006 0 0) (·.readD 2) =
    some 0x000000000009A400 := by decide

/-- 95 2.12 -/
theorem test_shr_negative_count :
    after (.shr 2 0 (-5)) (start 0x0000000000000BFA 0 0) (·.readD 2) =
    some 0x2386F26FC10001F0 := by decide

/-- 95 2.13 -/
theorem test_rnd_ties_to_even :
    after (.rnd 2 0 .nearestEven 0) (start 0x00000000000032FF 0 0) (·.readD 2) =
    some 0x0000000000000500 := by decide

/-- 95 2.13 -/
theorem test_rnd_down_negative :
    after (.rnd 2 0 .down 2) (start 0xFFFFFFFFFC3B8103 0 0) (·.readD 2) =
    some 0xFFFFFFFFFF9F8B02 := by decide

/-- 95 2.13 -/
theorem test_decomp_negative :
    after (.decomp 1 0 2) (start 0xFFFFFFFFFFFD8B02 0 0) (fun t => (t.readD 1, t.readD 2)) =
    some (0xFFFFFFFFFFFFF900, 0x0000000000001CFE) := by decide

/-- 60_exceptions.md R334: E_OPERAND -/
theorem test_decomp_invalid :
    after (.decomp 1 0 2) (start 0x0000000000000001 0 0) (·.status.ecode) =
    some 2 := by decide

/-- 95 2.14 -/
theorem test_cmpeq_other_word :
    after (.cmpeq 0 1) (start 0x0000000000000B00 0x00000000000064FF 0) (·.result) =
    some 1 := by decide

/-- 95 2.14 -/
theorem test_cmpeq_differs :
    after (.cmpeq 0 1) (start 0x000000000000F702 0x0000000000601B00 0) (·.result) =
    some 0 := by decide

/-- 95 2.14 -/
theorem test_cmp_negative :
    after (.cmp 0 1) (start 0xFFFFFFFFFFFFFCFB 0xFFFFFFFFFFFFFCFC 0) (·.result) =
    some 0xFFFFFFFFFFFFFFFF := by decide

/-- 44_compare.md R267: the exact order of the values -/
theorem test_cmp_extremes :
    after (.cmp 0 1) (start 0x470DE4DF81FFFE00 0xB8F21B207E000001 0) (·.result) =
    some 1 := by decide

/-- Reset with a text in the string buffer. -/
def withText (bs : List Byte) : State := State.reset.writeString bs

/-- 95 P5: PARSE of `-3.14` -/
theorem test_parse_decimal :
    after (.parse 2) (withText [0x2D, 0x33, 0x2E, 0x31, 0x34]) (·.readD 2) =
    some 0xFFFFFFFFFFFD8B02 := by decide

/-- 95 2.15: E_PARSE -/
theorem test_parse_trailing_space :
    after (.parse 2) (withText [0x37, 0x20]) codeAndD2 = some (6, 0) := by decide

/-- 95 2.15: FMT gives `1E-8` -/
theorem test_fmt_scientific :
    after (.fmt 0) (start 0x00000000000002F8 0 0) (fun t => (t.str.readBytes 0 5, t.strlen)) =
    some ([0x31, 0x45, 0x2D, 0x38, 0x00], 4) := by decide

/-- 95 P1: FMT gives `-3.333` -/
theorem test_fmt_word :
    after (.fmt 0) (start 0xFFFFFFFFFFE5F503 0 0) (fun t => (t.str.readWord 0, t.strlen)) =
    some (0x00003333332E332D, 6) := by decide

/-! ### The bus, the life cycle and reset (95_test_vectors.md 2.1, 2.2) -/

theorem test_bus_write_data : (busWrite State.reset 0x08 8 5).data = 5 := by decide

theorem test_bus_narrow_write : (busWrite State.reset 0x08 4 5).response = .writeError := by decide

theorem test_bus_misaligned_read : (busRead State.reset 0x0C 8).response = .readError 0 := by decide

theorem test_bus_write_result :
    busWrite State.reset 0x10 8 5 = State.reset.respond .writeError := by decide

theorem test_bus_status_clears_serr :
    (busWrite (State.reset.fail .parse) 0x20 8 0xFFFFFFFFFFFFFFFF).status =
    ⟨false, true, false, 6⟩ := by decide

theorem test_bus_strlen_masks :
    (busRead (busWrite State.reset 0x28 8 0xFFFFFFFFFFFFFFFF) 0x28 8).response =
    .readData 0x7F := by decide

theorem test_bus_busy_d0 :
    (busRead (State.reset.issue 0x04000005) 0x40 8).response = .readError 0 := by decide

theorem test_bus_busy_status :
    (busRead (State.reset.issue 0x04000005) 0x20 8).response = .readData 1 := by decide

theorem test_bus_string_word :
    (busWrite State.reset 0x88 8 0x0000333231353938).str.readBytes 8 7 =
    [0x38, 0x39, 0x35, 0x31, 0x32, 0x33, 0x00] := by decide

theorem test_step_host_write :
    (nextState (step (State.reset.withAgenda [hostWr .data 5]))).map (·.data) = some 5 := by
  rw [step_hostWr rfl]
  rfl

/-- 95 2.2: STATUS = 0x16 after an illegal command -/
theorem test_step_illegal :
    (nextState (step (State.reset.issue 0))).map (·.status.toWord) = some 0x16 := by decide

/-- 70_reset_and_hazards.md R360 -/
theorem test_step_reset_discards :
    nextState (step ((State.reset.issue 0x04000005).withAgenda [.reset])) = some State.reset := by decide

/-- 95 2.2: POW10 #5 -/
theorem test_withFetchWord :
    (nextState (step (State.reset.withFetchWord 32 0x04000005))).map (·.result) =
    some 0x00000000000186A0 := by decide

/-- 10_state.md R43 -/
theorem test_rom_row : digit4 1234 = [0x31, 0x32, 0x33, 0x34] := by decide

/-- 30_encoding.md R101: the destinations come first -/
theorem test_assembly_decomp : assembly (.decomp 1 0 2) = "DECOMP D1, D2, D0" := rfl

/-! ### Inputs that meet the hypotheses of the statements -/

/-- A state with the two words of 95_test_vectors.md 2.9: (12345, −2) and (−7, 3). -/
def sample : State := start 0x00000000006072FE 0xFFFFFFFFFFFFF0FD 0

theorem sample_holds : sample.holds 0 ⟨12345, -2⟩ ∧ sample.holds 1 ⟨-7, 3⟩ := by
  decide

/-- The largest word, (9999999999999999, 255), in D0, and (1, 0) in D1. -/
def largest : State := start 0x470DE4DF81FFFFFF 0x0000000000000300 0

theorem largest_holds : largest.holds 0 ⟨9999999999999999, 255⟩ ∧ largest.holds 1 ⟨1, 0⟩ := by
  decide

theorem witness_DecodeInvertsEncode :
    Instr.wellFormed (.rnd 7 7 .up (-8192)) = true ∧ Instr.wellFormed (.enc 0 8191) = true ∧
      Instr.wellFormed (.decomp 7 0 6) = true := by
  decide

theorem witness_EncodeInvertsDecode : decodeCmd 0x58A02000 = .ok (.shr 1 2 (-8192)) := rfl

/-- A legal word, and a word for each way of being illegal. -/
theorem witness_IllegalExactlyOutsideTheTable :
    ∀ v ∈ ([0x04000005, 0x104000005, 0x64000000, 0x24800000, 0x5C818000, 0x60820000] : List Word),
      (State.reset.issue v).inflight = some v ∧
        (State.reset.issue v).unitTurnNext (State.reset.issue v) ∧
        ((State.reset.issue v).withAgenda [.unitTurn]).unitTurnNext (State.reset.issue v) :=
  fun _ _ => ⟨rfl, .inl ⟨rfl, rfl⟩, .inr ⟨[], rfl, rfl⟩⟩

theorem witness_ResetDiscardsTheCommand :
    ((State.reset.issue 0x04000005).withAgenda [.reset, .unitTurn]).agenda =
      .reset :: [.unitTurn] := rfl

theorem witness_StepRunsTheDecodedCommand :
    (State.reset.issue 0x0C000000).inflight = some 0x0C000000 ∧
      decodeCmd 0x0C000000 = .ok .shup16 ∧ (State.reset.issue 0x0C000000).agenda = [] ∧
      ((State.reset.issue 0x0C000000).withAgenda [.unitTurn]).agenda = .unitTurn :: [] ∧
      decodeTableWord 32 0x0C000000 = some .shup16 :=
  ⟨rfl, rfl, rfl, rfl, rfl⟩

theorem witness_CmdWriteIssuesWhenIdle :
    (∃ s : State, s.agenda = [.write (Config.base + 0x00) 8 5] ∧ s.status.busy = false) ∧
      ∃ s : State, s.agenda = [.write (Config.base + 0x00) 8 5] ∧ s.status.busy = true :=
  ⟨⟨State.reset.withAgenda [.write (Config.base + 0x00) 8 5], rfl, rfl⟩,
    ⟨(State.reset.issue 0).withAgenda [.write (Config.base + 0x00) 8 5], rfl, rfl⟩⟩

/-- Every offset and size is met by some state, idle or busy; the clauses meet at these offsets. -/
theorem witness_BusErrorExactlyWhen :
    (∀ (e : Event) (busy : Bool), ∃ s : State, s.agenda = [e] ∧ s.status.busy = busy) ∧
      (∀ off ∈ [0x30, 0x38], 0x30 ≤ off ∧ off < 0x40) ∧ (∀ off ∈ [0xC0, 0xF8], 0xC0 ≤ off) ∧
      (∀ off ∈ [0x00, 0x20, 0x28, 0x40, 0xB8],
        off < 256 ∧ off % 8 = 0 ∧ ¬(0x30 ≤ off ∧ off < 0x40) ∧ off < 0xC0 ∧ off ≠ 0x10 ∧ off ≠ 0x18) :=
  ⟨fun e busy => ⟨{ State.reset with agenda := [e], status := ⟨busy, false, false, 0⟩ }, rfl, rfl⟩,
    by decide, by decide, by decide⟩

theorem witness_WindowReadsTheRegisters : State.reset.status.busy = false := rfl

theorem witness_WriteIsReadBack :
    State.reset.status.busy = false ∧ State.reset.str.wf = true ∧
      ∀ r ∈ [BusReg.data, .strlen, .d 0, .d 7, .str 0, .str 7],
        r ∉ [BusReg.cmd, .result, .aux, .status] := by
  decide

theorem witness_OnlyStatusWriteOrResetClearsSerr :
    State.reset.status.busy = false ∧
      ∃ s t : State, step s = .next t ∧ s.status.serr = true ∧ t.status.serr = false :=
  ⟨rfl, (State.reset.fail .parse).withAgenda [.reset], _, rfl, rfl, rfl⟩

theorem witness_OnlyStatusWriteOrResetClearsSerr_write :
    ∃ s t : State, step s = .next t ∧ s.status.serr = true ∧ t.status.serr = false :=
  ⟨(State.reset.fail .parse).withAgenda [hostWr .status 4], _, step_hostWr rfl, rfl, rfl⟩

theorem witness_StatusReadWhileBusyShowsHeldFields :
    ((State.reset.fail .unimpl).issue 0).status.busy = true := rfl

theorem witness_ErrorChangesStatusOnly :
    ∃ t, exec (.pow10 19) State.reset = .next t ∧ t.status.err = true := ⟨_, rfl, rfl⟩

theorem witness_ErrorsOfEachCommand :
    ∃ t, exec (.div 0 1 2) State.reset = .next t ∧ t.status.err = true := ⟨_, rfl, rfl⟩

/-- A command in flight that will write the string buffer. -/
theorem witness_StepKeepsTheInvariant :
    (State.reset.issue 0xA4000000).Inv ∧ ∃ t, step (State.reset.issue 0xA4000000) = .next t :=
  ⟨by decide, _, rfl⟩

theorem witness_RunEndsIdle :
    (State.reset.withAgenda [hostRd .status, .unitTurn, .reset]).agendaInWindow = true := by
  simp [State.agendaInWindow, Event.inWindow, hostRd, BusReg.offset, windowOffset_base]

/-- A command in flight and no reset on the agenda: the unit's turn stands on it, or the agenda runs out. -/
theorem witness_RunEndsIdle_completion :
    ∀ es ∈ [[hostRd .status, hostWr .cmd 0, .unitTurn], [hostRd .status]],
      ((State.reset.issue 0x04000005).withAgenda es).agendaInWindow = true ∧
        ((State.reset.issue 0x04000005).withAgenda es).inflight = some 0x04000005 ∧
        ((State.reset.issue 0x04000005).withAgenda es).status.busy = true ∧
        Event.reset ∉ ((State.reset.issue 0x04000005).withAgenda es).agenda := by
  have h := windowOffset_base (off := 0) (by decide)
  simp [State.agendaInWindow, Event.inWindow, hostRd, hostWr, BusReg.offset, windowOffset_base,
    State.issue, Status.issued] at h ⊢
  simp [h]

theorem witness_CommandsKeepDataAndCmd : ∃ t, exec (.add 2 0 1) sample = .next t := ⟨_, rfl⟩

theorem witness_OnlyListedCommandsWriteResultAndAux :
    (∃ t, exec (.add 2 0 1) sample = .next t) ∧ Instr.mnemonic (.add 2 0 1) ∉ resultWriters ∧
      Instr.mnemonic (.add 2 0 1) ∉ auxWriters :=
  ⟨⟨_, rfl⟩, by decide, by decide⟩

theorem witness_OnlyFmtWritesTheString :
    (∃ t, exec (.parse 2) (withText [0x37]) = .next t) ∧ Instr.mnemonic (.parse 2) ≠ "FMT" :=
  ⟨⟨_, rfl⟩, by decide⟩

theorem witness_OnlyDestinationsChangeAndStayCanonical :
    ∃ t, exec (.add 2 0 1) sample = .next t ∧ t.readD 2 ≠ sample.readD 2 ∧
      (3 : Fin 8) ∉ destinations (.add 2 0 1) ∧ (2 : Fin 8) ∈ destinations (.add 2 0 1) ∧
      t.status.err = false :=
  ⟨_, rfl, by decide, by decide, by decide, rfl⟩

theorem witness_Pow10Result : (0 ≤ (18 : Int) ∧ (18 : Int) ≤ 18) ∧ (-1 : Int) < 0 ∧ (18 : Int) < 19 := by
  decide

/-- DATA at the most negative value, and shifts at the ends of each clause. -/
theorem witness_ScaleResult :
    -2 ^ 63 ≤ (start 0 0 0x8000000000000000).data.toInt * 10 ^ (0 : Int).toNat ∧
      (start 0 0 0x8000000000000000).data.toInt * 10 ^ (0 : Int).toNat < 2 ^ 63 ∧
      (start 0 0 0x8000000000000000).data.toInt * 10 ^ (1 : Int).toNat < -2 ^ 63 ∧
      2 ^ 63 ≤ (start 0 0 1).data.toInt * 10 ^ (19 : Int).toNat ∧
      ((-17 : Int) ≤ -17 ∧ (-17 : Int) < 0) ∧ (-18 : Int) < -17 := by
  decide

theorem witness_ShiftUpResult :
    (start 0 0 9999999999999999).data.toInt ≠ 0 ∧
      (start 0 0 9999999999999999).data.toInt.natAbs < 10 ^ 16 ∧
      (start 0 0 0).data.toInt = 0 ∧ 10 ^ 18 ≤ (start 0 0 1000000000000000000).data.toInt.natAbs := by
  decide

theorem witness_ShupcResult :
    (start 0 0 99999999999999999).data.toInt ≠ 0 ∧
      (start 0 0 99999999999999999).data.toInt.natAbs < 10 ^ 17 ∧ (start 0 0 0).data.toInt = 0 ∧
      10 ^ 17 ≤ (start 0 0 100000000000000000).data.toInt.natAbs ∧ (-1 : Int) < 0 := by
  decide

theorem witness_EncResult :
    (start 0 0 9999999999999999).data.toInt.natAbs < 10 ^ 16 ∧ (-256 : Int) ≤ 255 ∧
      10 ^ 16 ≤ (start 0 0 10000000000000000).data.toInt.natAbs ∧ (-257 : Int) < -256 ∧
      (255 : Int) < 256 := by
  decide

theorem witness_AccessorsReadThePair :
    sample.holds 1 ⟨-7, 3⟩ ∧ canonical ((start 1 0 0).readD 0) = false :=
  ⟨sample_holds.2, by decide⟩

theorem witness_NormResult :
    sample.holds 1 ⟨-7, 3⟩ ∧ sample.holds 2 ⟨0, 0⟩ ∧ canonical ((start 1 0 0).readD 0) = false :=
  ⟨sample_holds.2, by decide, by decide⟩

theorem witness_InvalidWordsAreThreeClasses :
    canonical 0x0000000000000200 = true ∧ (0x0000000000000200 : Word) ≠ 0 ∧
      canonical 0xFFFFFFFFFFFFFE01 = false := by
  decide

theorem witness_WordRoundTrip :
    (⟨-9999999999999999, -256⟩ : Decimal).inRange ∧
      decodeDecimal 0xB8F21B207E000200 = some ⟨-9999999999999999, -256⟩ := by
  decide

theorem witness_WordSignIsSignificandSign :
    ∃ w, encodeDecimal (-1) 255 = .ok w := ⟨_, rfl⟩

theorem witness_RenormStaysInRange :
    (∃ w, renorm 99999999999999999 0 = .ok w) ∧ (∃ c, renorm 9999999999999999 254 = .error c) ∧
      (9999999999999999 : Int).natAbs < 10 ^ 16 :=
  ⟨⟨_, rfl⟩, ⟨_, rfl⟩, by decide⟩

theorem witness_RenormRoundsHalfAwayFromZero :
    |(⟨-25000000000000005, -256⟩ : Decimal).value| < overflowBound := by
  norm_num [Decimal.value, overflowBound]

theorem witness_RenormUnderflowTruncates :
    ((-9999999999999999 : Int).natAbs < 10 ^ 16 ∧ (-257 : Int) < -256) ∧
      10 ^ 16 ≤ (-10000000000000000 : Int).natAbs ∧ 10 ^ 16 ≤ (25000000000000005 : Int).natAbs := by
  decide

theorem witness_AddAndSubWithinOneUnit :
    sample.holds 0 ⟨12345, -2⟩ ∧ sample.holds 1 ⟨-7, 3⟩ ∧ (-2 : Int) ≤ 252 ∧ (3 : Int) ≤ 252 ∧
      unitInLastDigit ((⟨12345, -2⟩ : Decimal).value + (⟨-7, 3⟩ : Decimal).value) (-12) :=
  ⟨sample_holds.1, sample_holds.2, by decide, by decide, by
    norm_num [unitInLastDigit, Decimal.value]⟩

/-- (7, 255) in D0 and (3, 253) in D1. -/
def high : State := start 0x0000000000000FFF 0x00000000000007FD 0

theorem high_holds : high.holds 0 ⟨7, 255⟩ ∧ high.holds 1 ⟨3, 253⟩ := by
  decide

/-- Operands with exponents above 252 whose sum does not overflow. -/
theorem witness_AddAndSubWithinOneUnit_high :
    high.holds 0 ⟨7, 255⟩ ∧ high.holds 1 ⟨3, 253⟩ ∧ exec (.add 2 0 1) high ≠ .next (high.errored 5) := by
  refine ⟨high_holds.1, high_holds.2, fun h => ?_⟩
  have h2 := congrArg (fun o => match o with | .next t => t.status.err | _ => true) h
  revert h2
  decide

theorem witness_AddIsExactWhenAligned :
    (⟨-7, 255⟩ : Decimal).inRange ∧ (⟨12345, 239⟩ : Decimal).inRange ∧
      (-7 : Int).natAbs * 10 ^ ((255 : Int) - 239).toNat < 10 ^ 17 := by
  decide

theorem witness_AddAndSubLaws :
    canonical (sample.readD 0) = true ∧ canonical (sample.readD 1) = true ∧ sample.readD 2 = 0 :=
  ⟨by decide, by decide, by decide⟩

theorem witness_InvalidOperandIsRejected : canonical ((start 0x8000000000000000 0 0).readD 0) = false := by
  decide

theorem witness_MulResult :
    (sample.holds 0 ⟨12345, -2⟩ ∧ sample.holds 1 ⟨-7, 3⟩ ∧
      |(⟨12345, -2⟩ : Decimal).value * (⟨-7, 3⟩ : Decimal).value| < overflowBound ∧
      (-256 : Int) ≤ -2 + 3) ∧
    (largest.holds 0 ⟨9999999999999999, 255⟩ ∧ largest.holds 1 ⟨1, 0⟩ ∧
      overflowBound ≤ |(⟨9999999999999999, 255⟩ : Decimal).value * (⟨1, 0⟩ : Decimal).value|) :=
  ⟨⟨sample_holds.1, sample_holds.2, by norm_num [Decimal.value, overflowBound], by decide⟩,
    largest_holds.1, largest_holds.2, by norm_num [Decimal.value, overflowBound]⟩

/-- (25, −256) in D0 and (−4, 200) in D1: their product rounds, and their quotient, below EMIN. -/
def tiny : State := start 0x0000000000003200 0xFFFFFFFFFFFFF638 0

theorem tiny_holds : tiny.holds 0 ⟨25, -256⟩ ∧ tiny.holds 1 ⟨-4, 200⟩ := by
  decide

theorem witness_DivQuotientHasSixteenDigits :
    (1 ≤ 1 ∧ 1 < 10 ^ 16) ∧ (1 ≤ 9999999999999999 ∧ 9999999999999999 < 10 ^ 16) := by
  decide

theorem witness_DivResult :
    sample.holds 0 ⟨12345, -2⟩ ∧ sample.holds 1 ⟨-7, 3⟩ ∧ sample.holds 2 ⟨0, 0⟩ ∧
      (10 : ℚ) ^ (-241 : Int) ≤ |(⟨12345, -2⟩ : Decimal).value / (⟨-7, 3⟩ : Decimal).value| ∧
      |(⟨12345, -2⟩ : Decimal).value / (⟨-7, 3⟩ : Decimal).value| < overflowBound := by
  refine ⟨sample_holds.1, sample_holds.2, by decide, ?_, ?_⟩ <;>
    norm_num [Decimal.value, overflowBound, abs_div]

/-- A quotient below 10^−241. -/
theorem witness_DivResult_underflow :
    tiny.holds 0 ⟨25, -256⟩ ∧ tiny.holds 1 ⟨-4, 200⟩ ∧
      |(⟨25, -256⟩ : Decimal).value / (⟨-4, 200⟩ : Decimal).value| < overflowBound := by
  refine ⟨tiny_holds.1, tiny_holds.2, ?_⟩
  norm_num [Decimal.value, overflowBound, abs_div]

/-- A quotient at the overflow bound or above it. -/
theorem witness_DivResult_overflow :
    largest.holds 0 ⟨9999999999999999, 255⟩ ∧ largest.holds 1 ⟨1, 0⟩ ∧
      overflowBound ≤ |(⟨9999999999999999, 255⟩ : Decimal).value / (⟨1, 0⟩ : Decimal).value| := by
  refine ⟨largest_holds.1, largest_holds.2, ?_⟩
  norm_num [Decimal.value, overflowBound]

theorem witness_NegResult :
    largest.holds 0 ⟨9999999999999999, 255⟩ ∧ canonical ((start 1 0 0).readD 0) = false :=
  ⟨largest_holds.1, by decide⟩

theorem witness_DigitShiftsScaleByPowersOfTen :
    sample.holds 2 ⟨0, 0⟩ ∧
      (sample.holds 0 ⟨12345, -2⟩ ∧
        |(⟨12345, -2⟩ : Decimal).value * 10 ^ (-254 : Int)| < overflowBound ∧
        (-256 : Int) ≤ -2 + -254) ∧
      (tiny.holds 0 ⟨25, -256⟩ ∧ |(⟨25, -256⟩ : Decimal).value * 10 ^ (-1 : Int)| < overflowBound ∧
        (-256 : Int) + -1 < -256) ∧
      (largest.holds 0 ⟨9999999999999999, 255⟩ ∧
        overflowBound ≤ |(⟨9999999999999999, 255⟩ : Decimal).value * 10 ^ (0 : Int)|) := by
  refine ⟨by decide, ⟨sample_holds.1, ?_, by decide⟩, ⟨tiny_holds.1, ?_, by decide⟩, largest_holds.1,
    ?_⟩ <;> norm_num [Decimal.value, overflowBound]

theorem witness_RndRoundsByTheRule :
    sample.holds 0 ⟨12345, -2⟩ ∧ (0 ≤ (-2 : Int) + 2 ∧ (-2 : Int) + 0 < 0) :=
  ⟨sample_holds.1, by decide⟩

theorem witness_RndNegativeScaleIsUnimplemented : (-1 : Int) < 0 := by decide

theorem witness_DecomposeLaw : sample.holds 0 ⟨12345, -2⟩ ∧ (3 : Fin 8) ≠ 4 :=
  ⟨sample_holds.1, by decide⟩

theorem witness_CmpeqIsValueEquality :
    (start 0x0000000000000B00 0x00000000000064FF 0).holds 0 ⟨5, 0⟩ ∧
      (start 0x0000000000000B00 0x00000000000064FF 0).holds 1 ⟨50, -1⟩ := by
  decide

theorem witness_CmpIsValueOrder : sample.holds 0 ⟨12345, -2⟩ ∧ sample.holds 1 ⟨-7, 3⟩ := sample_holds

theorem witness_RelationsReadFromCmp :
    largest.holds 0 ⟨9999999999999999, 255⟩ ∧ largest.holds 1 ⟨1, 0⟩ := largest_holds

/-- The literal `-1.5e-10`, cut into its parts. -/
def literal : Literal :=
  ⟨[], [0x2D], [0x31], [0x2E, 0x35], [0x35], [0x65, 0x2D, 0x31, 0x30], [0x2D], [0x31, 0x30]⟩

theorem literal_legal : literal.Legal :=
  ⟨rfl, .inr ⟨0x2D, rfl, rfl⟩, rfl, .inr ⟨rfl, rfl⟩,
    .inr ⟨0x65, rfl, rfl, .inr ⟨0x2D, rfl, rfl⟩, rfl, by decide, by decide⟩, by decide⟩

/-- LEN = 0, LEN = 64 with a literal of 64 bytes, and LEN = 65. -/
theorem witness_ParseAcceptsExactlyTheGrammar :
    (withText []).strlen.toNat = 0 ∧ (withText (List.replicate 64 0x31)).strlen.toNat = 64 ∧
      64 < (withText (List.replicate 65 0x31)).strlen.toNat ∧
      ∃ l : Literal, l.Legal ∧ l.bytes = (withText (List.replicate 64 0x31)).str.readBytes 0 64 :=
  ⟨by decide, by decide, by decide, ⟨[], [], List.replicate 64 0x31, [], [], [], [], []⟩,
    ⟨rfl, .inl rfl, by decide, .inl ⟨rfl, rfl⟩, .inl ⟨rfl, rfl, rfl⟩, by decide⟩, by decide⟩

theorem witness_ParseGivesTheDecimalSpelled :
    literal.Legal ∧
      literal.bytes = (withText literal.bytes).str.readBytes 0 (withText literal.bytes).strlen.toNat ∧
      (withText literal.bytes).strlen.toNat ≤ 64 ∧
      literal.int.length + literal.fracDigits.length ≤ 18 ∧
      |literal.kept.value| < overflowBound := by
  refine ⟨literal_legal, by decide, by decide, by decide, ?_⟩
  have h : literal.kept = ⟨-15, -11⟩ := by decide
  rw [h]
  norm_num [Decimal.value, overflowBound]

/-- The literal `0012345678901234567890.5`: 23 mantissa digits, 2 leading zeros, and 3 digits after the 18th
significant one. -/
def longLiteral : Literal :=
  ⟨[], [], [0x30, 0x30, 0x31, 0x32, 0x33, 0x34, 0x35, 0x36, 0x37, 0x38, 0x39, 0x30, 0x31, 0x32, 0x33, 0x34,
    0x35, 0x36, 0x37, 0x38, 0x39, 0x30], [0x2E, 0x35], [0x35], [], [], []⟩

theorem witness_ParseGivesTheDecimalSpelled_long :
    longLiteral.Legal ∧ 18 < longLiteral.int.length + longLiteral.fracDigits.length ∧
      longLiteral.kept = ⟨123456789012345678, 2⟩ ∧ |longLiteral.kept.value| < overflowBound := by
  have h : longLiteral.kept = ⟨123456789012345678, 2⟩ := by decide
  refine ⟨⟨rfl, .inl rfl, by decide, .inr ⟨rfl, rfl⟩, .inl ⟨rfl, rfl, rfl⟩, by decide⟩, by decide, h, ?_⟩
  rw [h]
  norm_num [Decimal.value, overflowBound]

/-- The literal `999999999999999999e253`: 18 digits. -/
def hugeLiteral : Literal :=
  ⟨[], [], List.replicate 18 0x39, [], [], [0x65, 0x32, 0x35, 0x33], [], [0x32, 0x35, 0x33]⟩

theorem witness_ParseGivesTheDecimalSpelled_overflow :
    hugeLiteral.Legal ∧
      hugeLiteral.bytes =
        (withText hugeLiteral.bytes).str.readBytes 0 (withText hugeLiteral.bytes).strlen.toNat ∧
      overflowBound ≤ |hugeLiteral.kept.value| := by
  refine ⟨⟨rfl, .inl rfl, rfl, .inl ⟨rfl, rfl⟩,
    .inr ⟨0x65, rfl, rfl, .inl rfl, rfl, by decide, by decide⟩, by decide⟩, by decide, ?_⟩
  have h : hugeLiteral.kept = ⟨999999999999999999, 253⟩ := by decide
  rw [h]
  norm_num [Decimal.value, overflowBound]

theorem witness_FmtWritesTheString :
    sample.holds 1 ⟨-7, 3⟩ ∧ sample.holds 2 ⟨0, 0⟩ ∧ sample.str.wf = true :=
  ⟨sample_holds.2, by decide, rfl⟩

/-- The form of `123.45`, and `0.000005` at the last zero before the scientific form. -/
theorem formatForm_plain :
    formatForm ⟨12345, -2⟩ [0x31, 0x32, 0x33, 0x2E, 0x34, 0x35] ∧
      formatForm ⟨5, -7⟩ [0x30, 0x2E, 0x30, 0x30, 0x30, 0x30, 0x30, 0x30, 0x35] :=
  ⟨⟨12345, 0, [0x31, 0x32, 0x33, 0x34, 0x35], by decide, by decide, by decide,
      ⟨by decide, by decide, by decide⟩, by
        rw [if_pos (by decide), if_pos (by decide), if_pos (by decide)]
        decide⟩,
    ⟨5, 0, [0x35], by decide, by decide, by decide, ⟨by decide, by decide, by decide⟩, by
      rw [if_pos (by decide), if_pos (by decide), if_neg (by decide)]
      decide⟩⟩

/-- The scientific form of 50 · 10^15, `5E+16`. -/
theorem formatForm_sci : formatForm ⟨50, 15⟩ [0x35, 0x45, 0x2B, 0x31, 0x36] :=
  ⟨50, 0, [0x35, 0x30], by decide, by decide, by decide, ⟨by decide, by decide, by decide⟩, by
    rw [if_neg (by decide), if_neg (by decide)]
    exact ⟨5, 1, 0x35, [], [0x31, 0x36], by decide, by decide, ⟨by decide, by decide, by decide⟩,
      ⟨by decide, by decide, by decide⟩, by decide⟩⟩

theorem witness_FormatThenParseKeepsTheValue :
    (start 0x470DE4DF81FFFFFD 0 0).holds 0 ⟨9999999999999999, 253⟩ ∧ (253 : Int) ≤ 253 ∧
      (start 0x470DE4DF81FFFFFD 0 0).str.wf = true :=
  ⟨by decide, le_refl _, rfl⟩

theorem witness_RomDigitsAreTheDigits : 1 ≤ 99999999 ∧ 99999999 < 10000 ^ 2 := by decide

theorem witness_WrstrLoadsTheText :
    State.reset.status.busy = false ∧ State.reset.str.wf = true ∧
      (1 ≤ (List.replicate 64 (0x31 : Byte)).length ∧ (List.replicate 64 (0x31 : Byte)).length ≤ 64) ∧
      State.reset.strlen.toNat = 0 ∧ (withText (List.replicate 64 0x31)).strlen.toNat = 64 ∧
      (withText (List.replicate 64 0x31)).status.busy = false := by
  decide

/-- The host takes the first LEN bytes of the words it read (30_encoding.md R103). -/
theorem test_rdstr_text :
    rdstrText [6, 0x3333332E332D, 0, 0, 0, 0, 0, 0, 0] = [0x2D, 0x33, 0x2E, 0x33, 0x33, 0x33] := by
  decide

/-- A zero operand, a negligible one, a near one below the bound, and a sum at the bound or above it. -/
theorem witness_AddAndSubByCases :
    (sample.holds 0 ⟨12345, -2⟩ ∧ sample.holds 2 ⟨0, 0⟩) ∧
      (negligible ⟨1, 33⟩ ⟨1, 0⟩ ∧ negligible ⟨10 ^ 15, 18⟩ ⟨1, 0⟩ ∧ ¬negligible ⟨1, 32⟩ ⟨1, 0⟩ ∧
        ¬negligible ⟨10 ^ 15, 17⟩ ⟨1, 0⟩) ∧
      (high.holds 0 ⟨7, 255⟩ ∧ high.holds 1 ⟨3, 253⟩ ∧ ¬negligible ⟨7, 255⟩ ⟨3, 253⟩ ∧
        |(alignedSum ⟨7, 255⟩ ⟨3, 253⟩).value| < overflowBound) ∧
      (¬negligible ⟨9999999999999999, 255⟩ ⟨9999999999999999, 255⟩ ∧
        overflowBound ≤ |(alignedSum ⟨9999999999999999, 255⟩ ⟨9999999999999999, 255⟩).value|) := by
  refine ⟨⟨sample_holds.1, by decide⟩, ?_, ⟨high_holds.1, high_holds.2, ?_, ?_⟩, ?_, ?_⟩
  · unfold negligible
    decide
  · unfold negligible
    decide
  · have h : alignedSum ⟨7, 255⟩ ⟨3, 253⟩ = ⟨703, 253⟩ := by decide
    rw [h]
    norm_num [Decimal.value, overflowBound]
  · unfold negligible
    decide
  · have h : alignedSum ⟨9999999999999999, 255⟩ ⟨9999999999999999, 255⟩ = ⟨19999999999999998, 255⟩ := by
      decide
    rw [h]
    norm_num [Decimal.value, overflowBound]

end Sys2Proof.Tests
end

section
/-! PROOFS, 10_state.md. Canonical words: which patterns `decode` accepts, and that the core of every
command answers only such words (10_state.md R49, 41_word_codec.md R157). -/

namespace Sys2Proof.Machine

open Sys2Proof

/-- The canonical words, as arithmetic on `sint` (41_word_codec.md R157). -/
theorem canonical_iff {w : Word} :
    canonical w = true ↔ w = 0 ∨ 512 ≤ (sint w).natAbs ∧ (sint w).natAbs < 10 ^ 16 * 512 := by
  simp only [canonical, Option.isSome_iff_exists, decodeDecimal_some_iff, exists_or, exists_and_left,
    exists_eq, and_true]

theorem canonical_false_iff {w : Word} : canonical w = false ↔ decodeDecimal w = none :=
  Option.isSome_eq_false_iff.trans Option.isNone_iff_eq_none

@[simp] theorem canonical_zero : canonical 0 = true := rfl

theorem canonical_of_decode {w : Word} {a : Decimal} (h : decodeDecimal w = some a) :
    canonical w = true :=
  Option.isSome_iff_exists.2 ⟨a, h⟩

/-- What `decode` gives is in range (41_word_codec.md R153). -/
theorem inRange_of_decode {w : Word} {a : Decimal} (h : decodeDecimal w = some a) : a.inRange := by
  rcases decodeDecimal_some_iff.1 h with ⟨-, rfl⟩ | ⟨h1, h2, rfl⟩
  · decide
  · have hs : (sint w).sign.natAbs = 1 := Int.natAbs_sign_of_ne_zero (by omega)
    have hm : ((sint w).sign * ((sint w).natAbs / 512 : Nat)).natAbs = (sint w).natAbs / 512 := by
      rw [Int.natAbs_mul, hs, one_mul, Int.natAbs_natCast]
    exact ⟨by simp only [hm]; omega, by simp only; omega, by simp only; omega⟩

/-- A signed integer with a canonical magnitude is the value of a canonical word. -/
theorem canonical_word64 {v : Int} (h1 : 512 ≤ v.natAbs) (h2 : v.natAbs < 10 ^ 16 * 512) :
    canonical (word64 v) = true := by
  rw [canonical_iff, sint_word64 (by omega) (by omega)]
  exact .inr ⟨h1, h2⟩

/-- Negating a canonical word gives a canonical word (42_arith.md R196). -/
theorem canonical_neg {w : Word} (h : canonical w = true) : canonical (word64 (-sint w)) = true := by
  rcases canonical_iff.1 h with rfl | ⟨h1, h2⟩
  · rfl
  · exact canonical_word64 (by omega) (by omega)

/-- Every word that a core answers is canonical. -/
def AnswersCanonical (r : Except ErrorCode Word) : Prop := ∀ w, r = .ok w → canonical w = true

namespace AnswersCanonical

theorem zero : AnswersCanonical (.ok 0) := by
  rintro w ⟨⟩
  exact canonical_zero

theorem error (c : ErrorCode) : AnswersCanonical (.error c) := nofun

theorem ite {p : Prop} [Decidable p] {x y : Except ErrorCode Word} (hx : AnswersCanonical x)
    (hy : AnswersCanonical y) : AnswersCanonical (if p then x else y) := by
  split
  · exact hx
  · exact hy

theorem bind {α : Type} {x : Except ErrorCode α} {f : α → Except ErrorCode Word}
    (hf : ∀ a, AnswersCanonical (f a)) : AnswersCanonical (x >>= f) := fun w h =>
  let ⟨a, _, ha⟩ := except_bind_ok_iff.1 h
  hf a w ha

/-- An encoded pair is 0 or has a magnitude word from 512 to 10^16 · 512 (41_word_codec.md R150). -/
theorem encode (s e : Int) : AnswersCanonical (encodeDecimal s e) := by
  intro w h
  obtain ⟨⟨hs, h1, h2⟩, rfl⟩ := encodeDecimal_ok_iff.1 h
  by_cases h0 : s = 0
  · rw [h0, signedMagnitude, Int.sign_zero, zero_mul]
    rfl
  · have hm : (signedMagnitude s e).natAbs = (magnitudeWord s e).natAbs := by
      rw [signedMagnitude, Int.natAbs_mul, Int.natAbs_sign_of_ne_zero h0, one_mul]
    apply canonical_word64 <;> rw [hm, magnitudeWord] <;> omega

theorem renorm (s e : Int) : AnswersCanonical (renorm s e) := by
  unfold Machine.renorm
  exact .ite .zero (.bind fun _ => .ite .zero (.encode _ _))

theorem addAligned (hi lo : Decimal) : AnswersCanonical (addAligned hi lo) := by
  unfold Machine.addAligned
  exact .ite (.encode _ _) (.ite (.encode _ _) (.renorm _ _))

theorem addCore (a b : Decimal) : AnswersCanonical (addCore a b) := by
  unfold Machine.addCore
  exact .ite (.encode _ _) (.ite (.encode _ _)
    (.ite (.renorm _ _) (.ite (.addAligned _ _) (.addAligned _ _))))

theorem mulCore (a b : Decimal) : AnswersCanonical (mulCore a b) := by
  unfold Machine.mulCore
  exact .ite .zero (.renorm _ _)

theorem divCore (a b : Decimal) : AnswersCanonical (divCore a b) := by
  unfold Machine.divCore
  exact .ite (.error _) (.ite .zero (.ite (.renorm _ _) (.renorm _ _)))

theorem shiftCore (a : Decimal) (n : Int) : AnswersCanonical (shiftCore a n) := by
  unfold Machine.shiftCore
  exact .ite .zero (.renorm _ _)

theorem normCore (a : Decimal) : AnswersCanonical (normCore a) := by
  unfold Machine.normCore
  exact .ite .zero (.encode _ _)

theorem roundCore (a : Decimal) (rule : RoundingRule) (n : Int) :
    AnswersCanonical (roundCore a rule n) := by
  unfold Machine.roundCore
  exact .ite (.encode _ _) (.ite .zero (.encode _ _))

theorem parseCore (bs : List Byte) : AnswersCanonical (parseCore bs) := by
  unfold Machine.parseCore
  exact .bind fun _ => .renorm _ _

end AnswersCanonical

/-- Both words of DECOMP are canonical (43_round.md R236). -/
theorem decompCore_canonical {a : Decimal} {p : Word × Word} (h : decompCore a = .ok p) :
    canonical p.1 = true ∧ canonical p.2 = true := by
  obtain ⟨i, dw, diff, h1, -, -, -, h2⟩ := decompCore_ok_iff.1 h
  exact ⟨AnswersCanonical.roundCore _ _ _ _ h1, AnswersCanonical.encode _ _ _ h2⟩

end Sys2Proof.Machine
end

section
/-! PROOFS, 10_state.md. The length of FMT's output (45_string.md R291 to R293). -/

namespace Sys2Proof.Machine

open Sys2Proof

theorem digits_length_le {m n : Nat} (h : m < 10 ^ n) : (digits m).length ≤ n := by
  rw [digits_length]
  rcases eq_or_ne m 0 with rfl | hm
  · simp
  · exact (ndigits_le_iff hm).2 h

/-- The scientific form of at most 16 digits with an exponent of a canonical word. -/
theorem sci_length_le {ds : List Byte} {e : Int} (hd : ds.length ≤ 16) (h1 : -256 ≤ e) (h2 : e ≤ 255) :
    (sci ds e).length ≤ 24 := by
  obtain ⟨k, hk, he, -⟩ := stripZeros_spec ds.reverse e
  have hlen : ds.length = k + (stripZeros ds.reverse e).1.length := by
    simpa using congrArg List.length hk
  have hx : ∀ x : Int, x.natAbs < 10 ^ 3 → (digits x.natAbs).length ≤ 3 := fun _ => digits_length_le
  simp only [sci, he, List.length_append, List.length_take, List.length_reverse, List.length_cons,
    List.length_nil]
  have hfrac : (if (stripZeros ds.reverse e).1.length > 1 then
      0x2E :: (stripZeros ds.reverse e).1.reverse.drop 1 else []).length ≤ 16 := by
    split
    · simp
      omega
    · simp
  have := hx (e + k + (stripZeros ds.reverse e).1.length - 1) (by omega)
  omega

/-- The body of FMT's output takes at most 24 bytes. -/
theorem fmtBody_length_le {ds : List Byte} {e : Int} (hd : ds.length ≤ 16) (h1 : -256 ≤ e)
    (h2 : e ≤ 255) : (fmtBody ds e).length ≤ 24 := by
  have hs := sci_length_le hd h1 h2
  unfold fmtBody
  simp only
  split_ifs
  · simp; omega
  · simp [zeros]; omega
  · exact hs
  · exact hs
  · simp [zeros]; omega

/-- FMT's output takes at most 25 bytes, so it fits the string buffer (45_string.md R293, R295). -/
theorem fmtCore_length_le {a : Decimal} (ha : a.inRange) : (fmtCore a).length ≤ 25 := by
  obtain ⟨hsig, h1, h2⟩ := ha
  unfold fmtCore
  split
  · decide
  · obtain ⟨k, hk, he, hpos, hneg, -⟩ := stripFraction_spec (digits a.sig.natAbs).reverse a.exp
    have hlen : (digits a.sig.natAbs).length =
        k + (stripFraction (digits a.sig.natAbs).reverse a.exp).1.length := by
      simpa using congrArg List.length hk
    have h16 := digits_length_le hsig
    have hb := fmtBody_length_le (ds := (stripFraction (digits a.sig.natAbs).reverse a.exp).1.reverse)
      (e := (stripFraction (digits a.sig.natAbs).reverse a.exp).2) (by simp; omega) (by omega) (by omega)
    simp only [List.length_append]
    split <;> simp <;> omega

end Sys2Proof.Machine
end

section
/-! PROOFS, 10_state.md. What a command writes: one kind of effect per group of commands, with the
registers it reaches (10_state.md R31 to R42). The frame statements of 10_state.md follow from it. -/

namespace Sys2Proof.Machine

open Sys2Proof

variable {s t : State} {i : Instr}

/-- The state after command `i` on `s`: STATUS alone after an error, else the one write of its group, with
what the rules say of who writes it and what is written. The arguments about `i` alone come last: for a given
command they hold by evaluation. -/
inductive CommandEffect (s : State) (i : Instr) : State → Prop
  | failed (c : ErrorCode) : CommandEffect s i (s.fail c)
  | result (w : Word) (hr : i.mnemonic ∈ resultWriters := by simp [Instr.mnemonic, resultWriters])
      (hd : destinations i = [] := by rfl) : CommandEffect s i (s.writeResult w).succeed
  | shift (p : Int × Nat) (hr : i.mnemonic ∈ resultWriters := by simp [Instr.mnemonic, resultWriters])
      (hx : i.mnemonic ∈ auxWriters := by simp [Instr.mnemonic, auxWriters])
      (hd : destinations i = [] := by rfl) : CommandEffect s i (s.writeShift p).succeed
  | word (rd : DReg) (w : Word) (hd : destinations i = [rd]) (hw : canonical w = true) :
      CommandEffect s i (s.writeD rd w).succeed
  | twoWords (rd rb : DReg) (w v : Word) (hd : destinations i = [rd, rb]) (hw : canonical w = true)
      (hv : canonical v = true) : CommandEffect s i ((s.writeD rd w).writeD rb v).succeed
  | string (bs : List Byte) (hi : i.mnemonic = "FMT") (hd : destinations i = []) (hl : bs.length ≤ 25) :
      CommandEffect s i (s.writeString bs).succeed

namespace CommandEffect

/-- A command whose last part computes the word of its one destination. -/
theorem of_core {rd : DReg} {r : Except ErrorCode Word} (hd : destinations i = [rd])
    (hr : AnswersCanonical r)
    (h : (∃ w, r = .ok w ∧ t = (s.writeD rd w).succeed) ∨ (∃ c, r = .error c ∧ t = s.fail c)) :
    CommandEffect s i t := by
  rcases h with ⟨w, hw, rfl⟩ | ⟨c, -, rfl⟩
  · exact .word rd w hd (hr w hw)
  · exact .failed c

/-- A command that computes the word of its one destination from two decoded registers. -/
theorem of_binary {rd ra rb : DReg} {core : Decimal → Decimal → Except ErrorCode Word}
    (hd : destinations i = [rd]) (hr : ∀ a b, AnswersCanonical (core a b))
    (h : (∃ a, decodeDecimal (s.readD ra) = some a ∧
        ((∃ b, decodeDecimal (s.readD rb) = some b ∧
          ((∃ w, core a b = .ok w ∧ t = (s.writeD rd w).succeed) ∨
            (∃ c, core a b = .error c ∧ t = s.fail c))) ∨
        (decodeDecimal (s.readD rb) = none ∧ t = s.fail .operand))) ∨
      (decodeDecimal (s.readD ra) = none ∧ t = s.fail .operand)) :
    CommandEffect s i t := by
  rcases h with ⟨a, -, ⟨b, -, hw⟩ | ⟨-, rfl⟩⟩ | ⟨-, rfl⟩
  · exact of_core hd (hr a b) hw
  · exact .failed _
  · exact .failed _

/-- A command that computes the word of its one destination from one decoded register. -/
theorem of_unary {rd ra : DReg} {core : Decimal → Except ErrorCode Word}
    (hd : destinations i = [rd]) (hr : ∀ a, AnswersCanonical (core a))
    (h : (∃ a, decodeDecimal (s.readD ra) = some a ∧
        ((∃ w, core a = .ok w ∧ t = (s.writeD rd w).succeed) ∨
          (∃ c, core a = .error c ∧ t = s.fail c))) ∨
      (decodeDecimal (s.readD ra) = none ∧ t = s.fail .operand)) :
    CommandEffect s i t := by
  rcases h with ⟨a, -, hw⟩ | ⟨-, rfl⟩
  · exact of_core hd (hr a) hw
  · exact .failed _

/-- A shift command under its guard `p`. -/
theorem of_shift {p : Prop} {r : Int × Nat}
    (h : (¬p ∧ t = (s.writeShift r).succeed) ∨ (p ∧ t = s.fail .range))
    (hr : i.mnemonic ∈ resultWriters := by simp [Instr.mnemonic, resultWriters])
    (hx : i.mnemonic ∈ auxWriters := by simp [Instr.mnemonic, auxWriters])
    (hd : destinations i = [] := by rfl) : CommandEffect s i t := by
  rcases h with ⟨-, rfl⟩ | ⟨-, rfl⟩
  · exact .shift _ hr hx hd
  · exact .failed _

end CommandEffect

/-- Every command has the effect of its group and no other. -/
theorem exec_effect (h : exec i s = .next t) : CommandEffect s i t := by
  cases i with
  | pow10 n =>
    obtain ⟨p, -, rfl⟩ | ⟨-, rfl⟩ := execPow10_next.1 h
    exacts [.result _, .failed _]
  | scale sh =>
    obtain ⟨-, rfl⟩ | ⟨-, rfl⟩ := execScale_next.1 h
    exacts [.result _, .failed _]
  | shup16 => exact .of_shift (shiftUpEffect_next.1 h)
  | shup17 => exact .of_shift (shiftUpEffect_next.1 h)
  | shup18 => exact .of_shift (shiftUpEffect_next.1 h)
  | shupc limit => exact .of_shift (execShupc_next.1 h)
  | enc rd e => exact .of_core rfl (.encode _ _) (execEnc_next.1 h)
  | sig ra =>
    obtain ⟨a, -, rfl⟩ | ⟨-, rfl⟩ := execSig_next.1 h
    exacts [.result _, .failed _]
  | exp ra =>
    obtain ⟨a, -, rfl⟩ | ⟨-, rfl⟩ := execExp_next.1 h
    exacts [.result _, .failed _]
  | sgn ra =>
    obtain rfl := Host.Outcome.next.inj h
    exact .result _
  | norm rd ra => exact .of_unary rfl .normCore (execNorm_next.1 h)
  | add rd ra rb => exact .of_binary rfl .addCore (execAdd_next.1 h)
  | sub rd ra rb => exact .of_binary rfl (fun a b => .addCore a b.negated) (execSub_next.1 h)
  | mul rd ra rb => exact .of_binary rfl .mulCore (execMul_next.1 h)
  | div rd ra rb => exact .of_binary rfl .divCore (execDiv_next.1 h)
  | neg rd ra =>
    obtain ⟨a, ha, rfl⟩ | ⟨-, rfl⟩ := execNeg_next.1 h
    exacts [.word _ _ rfl (canonical_neg (canonical_of_decode ha)), .failed _]
  | shl rd ra n => exact .of_unary rfl (.shiftCore · n) (execShl_next.1 h)
  | shr rd ra n => exact .of_unary rfl (.shiftCore · (-n)) (execShr_next.1 h)
  | rnd rd ra rule n =>
    obtain ⟨a, -, ⟨-, rfl⟩ | ⟨-, hw⟩⟩ | ⟨-, rfl⟩ := execRnd_next.1 h
    exacts [.failed _, .of_core rfl (.roundCore a rule n) hw, .failed _]
  | decomp rd ra rb =>
    obtain ⟨-, rfl⟩ | ⟨-, ⟨a, -, ⟨p, hp, rfl⟩ | ⟨c, -, rfl⟩⟩ | ⟨-, rfl⟩⟩ := execDecomp_next.1 h
    · exact .failed _
    · obtain ⟨hi, hf⟩ := decompCore_canonical hp
      exact .twoWords _ _ _ _ rfl hi hf
    · exact .failed _
    · exact .failed _
  | cmpeq ra rb =>
    obtain ⟨a, -, ⟨b, -, rfl⟩ | ⟨-, rfl⟩⟩ | ⟨-, rfl⟩ := execCmpeq_next.1 h
    exacts [.result _, .failed _, .failed _]
  | cmp ra rb =>
    obtain ⟨a, -, ⟨b, -, rfl⟩ | ⟨-, rfl⟩⟩ | ⟨-, rfl⟩ := execCmp_next.1 h
    exacts [.result _, .failed _, .failed _]
  | parse rd =>
    obtain ⟨bs, -, hw⟩ | ⟨c, -, rfl⟩ := execParse_next.1 h
    exacts [.of_core rfl (.parseCore bs) hw, .failed _]
  | fmt ra =>
    obtain ⟨a, ha, rfl⟩ | ⟨-, rfl⟩ := execFmt_next.1 h
    exacts [.string _ rfl rfl (fmtCore_length_le (inRange_of_decode ha)), .failed _]

/-- No command takes SERR back (10_state.md R39, R40). -/
theorem exec_keeps_serr (h : exec i s = .next t) (hs : s.status.serr = true) :
    t.status.serr = true := by
  cases exec_effect h with
  | failed c => exact Status.failed_serr _ c
  | _ => exact hs

/-- Settles O20: every write of a command is to another register. -/
theorem commandsKeepDataAndCmd : Obligations.CommandsKeepDataAndCmd := by
  intro i s t h
  cases exec_effect h <;> exact ⟨rfl, rfl, rfl, rfl⟩

/-- Settles O21: of the effects, only `result` and `shift` reach RESULT, and only `shift` AUX. -/
theorem onlyListedCommandsWriteResultAndAux : Obligations.OnlyListedCommandsWriteResultAndAux := by
  intro i s t h
  cases exec_effect h with
  | result w hr hd => exact ⟨fun hn => absurd hr hn, fun _ => rfl⟩
  | shift p hr hx hd => exact ⟨fun hn => absurd hr hn, fun hn => absurd hx hn⟩
  | _ => exact ⟨fun _ => rfl, fun _ => rfl⟩

/-- Settles O22: of the effects, only FMT's reaches STR and STRLEN. -/
theorem onlyFmtWritesTheString : Obligations.OnlyFmtWritesTheString := by
  intro i s t h hn
  cases exec_effect h with
  | string bs hi hd hl => exact absurd hi hn
  | _ => exact ⟨rfl, rfl, fun _ => rfl⟩

/-- Settles O23: a word goes to a destination and is canonical; every other register keeps its own. -/
theorem onlyDestinationsChangeAndStayCanonical :
    Obligations.OnlyDestinationsChangeAndStayCanonical := by
  intro i s t h r
  have kept (ht : t.readD r = s.readD r) (hr : r ∈ destinations i → t.status.err = true) :
      (r ∉ destinations i → t.readD r = s.readD r) ∧
      (t.readD r ≠ s.readD r → canonical (t.readD r) = true) ∧
      (r ∈ destinations i → t.status.err = false → canonical (t.readD r) = true) :=
    ⟨fun _ => ht, fun hne => absurd ht hne, fun hm he => by simp [hr hm] at he⟩
  cases exec_effect h with
  | failed c => exact kept rfl fun _ => rfl
  | result w hr hd | shift p hr hx hd | string bs hi hd hl => exact kept rfl (by simp [hd])
  | word rd w hd hw =>
    by_cases hr : r = rd
    · simp [hr, hd, hw]
    · exact kept (State.writeD_readD_ne s rd r w hr) (by simp [hd, hr])
  | twoWords rd rb w v hd hw hv =>
    by_cases hrb : r = rb
    · simp [hrb, hd, hv]
    · have hframe := State.writeD_readD_ne (s.writeD rd w) rb r v hrb
      by_cases hr : r = rd
      · subst hr
        rw [State.writeD_readD_same] at hframe
        simp [hframe, hd, hw]
      · exact kept (hframe.trans (State.writeD_readD_ne s rd r w hr)) (by simp [hd, hr, hrb])

end Sys2Proof.Machine
end

section
/-! PROOFS, 10_state.md. The invariant of the block: what each state operation keeps of it, and that every
step keeps it (10_state.md R37, R42, R44, 70_reset_and_hazards.md R364). -/

namespace Sys2Proof.Machine

open Sys2Proof

variable {s t : State} {i : Instr}

/-- Every error has a code from 1 to 7 (60_exceptions.md R331). -/
theorem ErrorCode.code_bounds (c : ErrorCode) : 1 ≤ c.code.toNat ∧ c.code.toNat ≤ 7 := by
  cases c <;> decide

theorem Status.succeeded_legal (st : Status) : st.succeeded.Legal := ⟨fun _ => rfl, nofun⟩

theorem Status.failed_legal (st : Status) (c : ErrorCode) : (st.failed c).Legal :=
  ⟨nofun, fun _ => c.code_bounds⟩

/-- Settles O18: nothing is in flight after reset, and STATUS and STR hold zeros. -/
theorem resetHasTheInvariant : Obligations.ResetHasTheInvariant :=
  ⟨rfl, .inl rfl, ⟨fun _ => rfl, nofun⟩, Memory.reset_wf⟩

/-- A completion without error needs of the effects only that STR is canonical. -/
theorem State.succeed_inv (h : s.str.wf = true) : s.succeed.Inv :=
  ⟨rfl, .inl rfl, s.status.succeeded_legal, h⟩

theorem State.fail_inv (h : s.str.wf = true) (c : ErrorCode) : (s.fail c).Inv :=
  ⟨rfl, .inl rfl, s.status.failed_legal c, h⟩

/-- A CMD write sets BUSY, the latch and CMD together (70_reset_and_hazards.md R364). -/
theorem State.issue_inv (h : s.Inv) (v : Word) : (s.issue v).Inv := by
  obtain ⟨-, -, hst, hstr⟩ := h
  exact ⟨rfl, .inr rfl, hst, hstr⟩

theorem State.writeStr_inv (h : s.Inv) {m : Memory} (hm : m.wf = true) : (s.writeStr m).Inv := by
  obtain ⟨hbusy, hcmd, hst, -⟩ := h
  exact ⟨hbusy, hcmd, hst, hm⟩

/-- An accepted host write keeps the invariant (20_memory.md R67). -/
theorem writeReg_inv (h : s.Inv) (v : Word) (r : BusReg) : (writeReg s v r).Inv := by
  obtain ⟨-, -, -, hstr⟩ := id h
  cases r with
  | cmd => exact s.issue_inv h v
  | str k => exact s.writeStr_inv h (Memory.writeWord_wf hstr k.isLt v)
  | _ => exact h

/-- A command keeps the invariant: it completes, and only FMT writes STR, with at most 25 bytes. -/
theorem exec_inv (h : exec i s = .next t) (hs : s.str.wf = true) : t.Inv := by
  cases exec_effect h with
  | failed c => exact State.fail_inv hs c
  | string bs hi hd hl => exact State.succeed_inv (Memory.fill_wf hs (by omega))
  | _ => exact State.succeed_inv hs

/-- The unit's turn keeps the invariant (70_reset_and_hazards.md R365). -/
theorem unitMove_inv (h : runMove (unitMove s) = .next t) (hs : s.Inv) : t.Inv := by
  obtain ⟨-, -, -, hstr⟩ := id hs
  obtain ⟨-, hu⟩ | ⟨v, i, -, -, hu⟩ | ⟨v, e, -, -, hu⟩ := unitMove_cases s <;> rw [hu] at h
  · exact Host.Outcome.next.inj h ▸ hs
  · exact exec_inv h hstr
  · exact Host.Outcome.next.inj h ▸ s.fail_inv hstr .illegal

/-- Settles O17: by the kinds of step; the agenda and the response do not occur in the invariant. -/
theorem stepKeepsTheInvariant : Obligations.StepKeepsTheInvariant := by
  intro s t hs h
  rcases step_cases h with ⟨-, hu⟩ | ⟨rest, -, hu⟩ | ⟨rest, -, rfl⟩ | ⟨rest, off, size, -, -, rfl⟩ |
    ⟨rest, off, size, v, -, -, rfl⟩
  case inl => exact unitMove_inv hu hs
  case inr.inl => exact unitMove_inv hu (s := s.withAgenda rest) hs
  case inr.inr.inl => exact resetHasTheInvariant
  case inr.inr.inr.inl =>
    obtain ⟨r, -, -, -, hr⟩ | hr := busRead_cases (s.withAgenda rest) off size <;> rw [hr] <;>
      exact hs
  case inr.inr.inr.inr =>
    obtain ⟨r, -, -, -, hr⟩ | hr := busWrite_cases (s.withAgenda rest) off size v <;> rw [hr]
    · exact writeReg_inv (s := s.withAgenda rest) hs v r
    · exact hs

end Sys2Proof.Machine
end

section
/-! PROOFS, 10_state.md. SERR: a write to STATUS, and which steps clear it (10_state.md R40). -/

namespace Sys2Proof.Machine

open Sys2Proof

variable {s t : State}

/-- The unit's turn never clears SERR. -/
theorem unitMove_keeps_serr (h : runMove (unitMove s) = .next t) (hs : s.status.serr = true) :
    t.status.serr = true := by
  obtain ⟨-, hu⟩ | ⟨v, i, -, -, hu⟩ | ⟨v, e, -, -, hu⟩ := unitMove_cases s <;> rw [hu] at h
  · exact Host.Outcome.next.inj h ▸ hs
  · exact exec_keeps_serr h hs
  · exact Host.Outcome.next.inj h ▸ s.status.failed_serr .illegal

/-- A host read changes no STATUS bit (20_memory.md R67). -/
theorem busRead_status (s : State) (off size : Nat) : (busRead s off size).status = s.status := by
  obtain ⟨r, -, -, -, hr⟩ | hr := busRead_cases s off size <;> rw [hr] <;> rfl

/-- Of the accepted writes only one to STATUS with bit 2 set clears SERR (10_state.md R40). -/
theorem writeReg_clears_serr {v : Word} {r : BusReg} (hs : s.status.serr = true)
    (ht : (writeReg s v r).status.serr = false) : r = .status ∧ v.getLsbD 2 = true := by
  cases r with
  | status => simpa [writeReg, hs] using ht
  | _ => exact absurd ht (by simp [writeReg, hs])

/-- A write that clears SERR is one of 8 bytes to STATUS, with bit 2 set, while no command is in flight. -/
theorem busWrite_clears_serr {off size : Nat} {v : Word} (hs : s.status.serr = true)
    (ht : (busWrite s off size v).status.serr = false) :
    size = 8 ∧ off = BusReg.status.offset ∧ v.getLsbD 2 = true ∧ s.status.busy = false := by
  obtain ⟨r, h8, ho, ha, hr⟩ | hr := busWrite_cases s off size v <;> rw [hr] at ht
  · obtain ⟨rfl, hv⟩ := writeReg_clears_serr hs ht
    exact ⟨h8, ho, hv, (writeAllowed_iff.1 ha).1⟩
  · exact absurd ht (by simp [hs])

/-- A STATUS write, with what it leaves in SERR written out (10_state.md R40). -/
theorem Status.hostWrite_eq (st : Status) (v : Word) :
    st.hostWrite v = { st with serr := if v.getLsbD 2 then false else st.serr } := by
  unfold Status.hostWrite
  cases v.getLsbD 2 <;> simp

/-- Settles O12: a STATUS write while idle is accepted and writes SERR alone; no unit's turn and no other
access clears SERR. -/
theorem onlyStatusWriteOrResetClearsSerr : Obligations.OnlyStatusWriteOrResetClearsSerr := by
  constructor
  · intro s rest v hb
    have hw := busWrite_accepted (s := s.withAgenda rest) (r := .status) v hb nofun nofun
    rw [step_hostWr (s := s.withAgenda _) rfl, State.withAgenda_withAgenda, hw, ← Status.hostWrite_eq]
    rfl
  · intro s t h hs ht
    rcases step_cases h with ⟨-, hu⟩ | ⟨rest, -, hu⟩ | ⟨rest, ha, -⟩ | ⟨rest, off, size, -, -, rfl⟩ |
      ⟨rest, off, size, v, ha, -, rfl⟩
    case inl => exact absurd ht (by simp [unitMove_keeps_serr hu hs])
    case inr.inl => exact absurd ht (by simp [unitMove_keeps_serr (s := s.withAgenda rest) hu hs])
    case inr.inr.inl => exact .inl ⟨rest, ha⟩
    case inr.inr.inr.inl => exact absurd ht (by simp [busRead_status, hs])
    case inr.inr.inr.inr =>
      obtain ⟨rfl, rfl, hv, hb⟩ := busWrite_clears_serr (s := s.withAgenda rest) hs ht
      exact .inr ⟨rest, v, ha, hv, hb⟩

end Sys2Proof.Machine
end

section
/-! PROOFS, 10_state.md. Reset and invalid operands (10_state.md R32, R48, 60_exceptions.md R334). -/

namespace Sys2Proof.Machine

open Sys2Proof

/-- Settles O5: every register holds its reset value. -/
theorem resetLeavesEveryRegisterZero : Obligations.ResetLeavesEveryRegisterZero :=
  ⟨State.reset_readD, rfl, rfl, rfl, rfl, rfl, rfl, fun _ => rfl, rfl⟩

/-- `raise` leaves the state that `State.errored` writes out (60_exceptions.md R333). -/
theorem State.fail_eq_errored (s : State) (c : ErrorCode) : s.fail c = s.errored c.code := by
  simp [State.fail, State.errored, Status.failed, State.errStatus]

theorem complete_error_eq_errored (s : State) (c : ErrorCode) :
    s.complete (.error c) = .next (s.errored c.code) := by
  rw [State.complete_error, State.fail_eq_errored]

/-- Settles O42: with its word invalid, decoding the register raises E_OPERAND as the rule's first part; as
its second part too, since the first part is a decoding that can raise nothing else. -/
theorem invalidOperandIsRejected : Obligations.InvalidOperandIsRejected := by
  intro s rd ra rb n rule hinv
  have hra : s.decimal ra = .error .operand :=
    State.decimal_error_iff.2 ⟨canonical_false_iff.1 hinv, rfl⟩
  have first (f : Decimal → Except ErrorCode State) :
      s.complete (s.decimal ra >>= f) = .next (s.errored 2) := by
    rw [hra]
    exact complete_error_eq_errored s .operand
  have second (f : Decimal → Decimal → Except ErrorCode State) :
      s.complete (s.decimal rb >>= fun b => s.decimal ra >>= f b) = .next (s.errored 2) := by
    cases hrb : s.decimal rb with
    | ok b => exact first (f b)
    | error c =>
      obtain ⟨-, rfl⟩ := State.decimal_error_iff.1 hrb
      exact complete_error_eq_errored s .operand
  have decomp (hne : rd ≠ rb) : exec (.decomp rd ra rb) s = .next (s.errored 2) := by
    simp only [exec, execDecomp, if_neg hne]
    exact first _
  simp only [List.forall_mem_append, List.forall_mem_cons, List.not_mem_nil, IsEmpty.forall_iff,
    implies_true, and_true]
  refine ⟨⟨first _, first _, first _, first _, first _, first _, first _, first _, first _, second _,
    first _, second _, first _, second _, first _, second _, first _, second _, first _, second _⟩, ?_⟩
  split
  · nofun
  · next hne => exact List.forall_mem_singleton.2 (decomp hne)

end Sys2Proof.Machine
end

section
/-! PROOFS, 10_state.md. The digit ROM: a number has one digit string, and the ROM's digits spell the
number (10_state.md R43, 45_string.md R290). -/

namespace Sys2Proof.Machine

open Sys2Proof

theorem digitValue_inj {b c : Byte} (hb : isDigit b = true) (hc : isDigit c = true)
    (h : digitValue b = digitValue c) : b = c := by
  simp only [isDigit, decide_eq_true_eq] at hb hc
  simp only [digitValue] at h
  exact BitVec.eq_of_toNat_eq (by omega)

theorem digitsValue_concat (ds : List Byte) (d : Byte) :
    digitsValue (ds ++ [d]) = digitsValue ds * 10 + digitValue d := by
  simp [digitsValue]

/-- Only the empty string is a digit string of 0. -/
theorem spellsNumber_zero {ds : List Byte} (h : spellsNumber ds 0) : ds = [] := by
  obtain ⟨hd, hv, hz⟩ := h
  cases ds with
  | nil => rfl
  | cons d ds =>
    rw [List.all_cons, Bool.and_eq_true] at hd
    have h0 : digitValue d ≠ digitValue 0x30 := fun he => hz (by rw [digitValue_inj hd.1 rfl he]; rfl)
    have h30 : digitValue 0x30 = 0 := rfl
    have happ := digitsValue_append [d] ds
    have hone : digitsValue [d] = digitValue d := by simp [digitsValue]
    have hpos : 0 < digitValue d * 10 ^ ds.length := Nat.mul_pos (by omega) (by positivity)
    rw [hone, List.singleton_append, hv] at happ
    omega

/-- Without its last digit a digit string spells the number divided by ten. -/
theorem spellsNumber_concat {ds : List Byte} {d : Byte} {n : Nat} (h : spellsNumber (ds ++ [d]) n) :
    spellsNumber ds (n / 10) ∧ isDigit d = true ∧ digitValue d = n % 10 := by
  obtain ⟨hd, hv, hz⟩ := h
  rw [List.all_append, Bool.and_eq_true, List.all_cons, List.all_nil, Bool.and_true] at hd
  have hlt := digitValue_lt hd.2
  rw [digitsValue_concat] at hv
  exact ⟨⟨hd.1, by omega, fun h0 => hz (by rw [List.head?_append, h0]; rfl)⟩, hd.2, by omega⟩

/-- A number has one digit string (45_string.md R290). -/
theorem spellsNumber_unique {xs ys : List Byte} {n : Nat} (hx : spellsNumber xs n)
    (hy : spellsNumber ys n) : xs = ys := by
  induction xs using List.reverseRecOn generalizing ys n with
  | nil =>
    obtain ⟨-, rfl, -⟩ := hx
    exact (spellsNumber_zero hy).symm
  | append_singleton xs x ih =>
    obtain ⟨hxs, hxd, hxv⟩ := spellsNumber_concat hx
    rcases List.eq_nil_or_concat' ys with rfl | ⟨ys, y, rfl⟩
    · obtain ⟨-, rfl, -⟩ := hy
      exact spellsNumber_zero hx
    · obtain ⟨hys, hyd, hyv⟩ := spellsNumber_concat hy
      rw [ih hxs hys, digitValue_inj hxd hyd (hxv.trans hyv.symm)]

/-- Without its leading zeros a string of digits spells its value. -/
theorem dropLeadingZeros_spells {ds : List Byte} (h : ds.all isDigit = true) :
    spellsNumber (dropLeadingZeros ds) (digitsValue ds) := by
  induction ds with
  | nil => exact ⟨rfl, rfl, nofun⟩
  | cons d ds ih =>
    rw [dropLeadingZeros]
    split
    · next hd =>
      subst hd
      have hv : digitsValue (0x30 :: ds) = digitsValue ds := rfl
      rw [hv]
      exact ih (Bool.and_eq_true_iff.1 h).2
    · next hd => exact ⟨h, rfl, by simpa using hd⟩

/-- The row of the ROM at `i`: four digit characters that spell `i` (10_state.md R43). -/
theorem digit4_spec (i : Fin 10000) :
    (digit4 i).length = 4 ∧ (digit4 i).all isDigit = true ∧ digitsValue (digit4 i) = i.val := by
  have h1 : i.val / 1000 < 10 := by omega
  have h2 : i.val / 100 % 10 < 10 := by omega
  have h3 : i.val / 10 % 10 < 10 := by omega
  have h4 : i.val % 10 < 10 := by omega
  refine ⟨rfl, ?_, ?_⟩
  · simp only [digit4, List.all_cons, List.all_nil, isDigit_digitChar, h1, h2, h3, h4, Bool.and_self]
  · simp only [digit4, digitsValue, List.foldl_cons, List.foldl_nil, digitValue_digitChar, h1, h2, h3,
      h4]
    omega

/-- Digits emitted from the ROM are digit characters and spell the number that the chunks cover. -/
theorem romDigits_spec (chunks m : Nat) (h : m < 10000 ^ chunks) :
    (romDigits chunks m).all isDigit = true ∧ digitsValue (romDigits chunks m) = m := by
  induction chunks generalizing m with
  | zero => exact ⟨rfl, by simp_all [romDigits, digitsValue]⟩
  | succ chunks ih =>
    obtain ⟨hd, hv⟩ := ih (m / 10000) (by rw [pow_succ] at h; omega)
    obtain ⟨hlen, hd4, hv4⟩ := digit4_spec (Fin.ofNat 10000 m)
    have hval : (Fin.ofNat 10000 m).val = m % 10000 := rfl
    rw [romDigits, List.all_append, digitsValue_append, hd, hd4, hv, hv4, hlen, hval]
    exact ⟨rfl, by omega⟩

/-- Settles O58: both strings spell `m` and have no leading zero. -/
theorem romDigitsAreTheDigits : Obligations.RomDigitsAreTheDigits := by
  intro chunks m hm h
  obtain ⟨hd, hv⟩ := romDigits_spec chunks m h
  have hrom := dropLeadingZeros_spells hd
  rw [hv] at hrom
  exact spellsNumber_unique hrom (digits_spells (by omega))

end Sys2Proof.Machine
end

section
/-! PROOFS, 20_memory.md. Which accesses of the window the block accepts, by offset and size
(20_memory.md R61, R64 to R66). -/

namespace Sys2Proof.Machine

open Sys2Proof

variable {s : State} {off size : Nat}

theorem busRead_of_selectReg_none (s : State) (h : selectReg off size = none) :
    busRead s off size = s.respond (.readError 0) := by
  simp [busRead, h]

theorem busWrite_of_selectReg_none (s : State) (v : Word) (h : selectReg off size = none) :
    busWrite s off size v = s.respond .writeError := by
  simp [busWrite, h]

/-- A multiple of 8 in the map, outside the reserved gap, is the offset of a register
(20_memory.md R61). -/
theorem exists_reg_of_offset (h8 : off % 8 = 0) (hgap : ¬(0x30 ≤ off ∧ off < 0x40))
    (hlt : off < 0xC0) : ∃ r : BusReg, off = r.offset := by
  cases h : selectReg off 8 with
  | none =>
    have := selectReg_none_iff.1 h
    omega
  | some r => exact ⟨r, (selectReg_some_iff.1 h).2⟩

/-- The reads that get a bus error (20_memory.md R66 items 1, 2 and 4). -/
theorem busRead_error
    (h : selectReg off size = none ∨ s.status.busy = true ∧ off ≠ BusReg.status.offset) :
    busRead s off size = s.respond (.readError 0) := by
  cases hr : selectReg off size with
  | none => exact busRead_of_selectReg_none s hr
  | some r =>
    obtain ⟨rfl, rfl⟩ := selectReg_some_iff.1 hr
    obtain ⟨hb, hoff⟩ := h.resolve_left (by simp [hr])
    exact busRead_rejected hb (ne_of_apply_ne BusReg.offset hoff)

/-- The writes that get a bus error (20_memory.md R66). -/
theorem busWrite_error (v : Word)
    (h : selectReg off size = none ∨ off = BusReg.result.offset ∨ off = BusReg.aux.offset ∨
      s.status.busy = true) :
    busWrite s off size v = s.respond .writeError := by
  cases hr : selectReg off size with
  | none => exact busWrite_of_selectReg_none s v hr
  | some r =>
    obtain ⟨rfl, rfl⟩ := selectReg_some_iff.1 hr
    apply busWrite_rejected
    obtain hres | haux | hb := h.resolve_left (by simp [hr])
    · exact .inr (.inl (BusReg.offset_inj hres))
    · exact .inr (.inr (BusReg.offset_inj haux))
    · exact .inl hb

/-- Settles O9: the error clauses are those of the window's laws, and an access outside them is one to a
register, which the guard of R66 lets through. -/
theorem busErrorExactlyWhen : Obligations.BusErrorExactlyWhen := by
  intro s rest off size v hoff
  constructor <;> intro ha <;> constructor
  · intro herr
    rw [step_read ha hoff, busRead_error]
    · rfl
    · simp only [selectReg_none_iff, or_assoc]
      exact herr
  · rintro rfl h8 hgap hlt hbusy
    obtain ⟨r, rfl⟩ := exists_reg_of_offset h8 hgap hlt
    have hr : s.status.busy = false ∨ r = .status :=
      (Bool.eq_false_or_eq_true _).symm.imp_right fun hb => BusReg.offset_inj (hbusy hb)
    rw [step_read ha hoff, busRead_accepted (s := s.withAgenda rest) hr]
    exact ⟨_, rfl⟩
  · intro herr
    rw [step_write ha hoff, busWrite_error]
    · rfl
    · simp only [selectReg_none_iff, or_assoc]
      exact herr
  · rintro rfl h8 hgap hlt hres haux hb
    obtain ⟨r, rfl⟩ := exists_reg_of_offset h8 hgap hlt
    rw [step_write ha hoff, busWrite_accepted (s := s.withAgenda rest) v hb
      (ne_of_apply_ne BusReg.offset hres) (ne_of_apply_ne BusReg.offset haux)]
    exact ⟨_, rfl, rfl⟩

end Sys2Proof.Machine
end

section
/-! PROOFS, 20_memory.md. What the registers of the window read as, and which of them a host write changes
(20_memory.md R61, R63, R67). -/

namespace Sys2Proof.Machine

open Sys2Proof

variable {s : State}

@[simp] theorem readReg_withAgenda (s : State) (es : List Event) (r : BusReg) :
    readReg (s.withAgenda es) r = readReg s r := by
  cases r <;> rfl

@[simp] theorem readReg_respond (s : State) (x : Response) (r : BusReg) :
    readReg (s.respond x) r = readReg s r := by
  cases r <;> rfl

/-- An accepted read of a register at its offset (20_memory.md R61, R67). -/
theorem readsAs_offset {r : BusReg} (h : s.status.busy = false ∨ r = .status) :
    s.readsAs r.offset (readReg s r) := by
  intro rest
  have hoff := r.offset_bounds
  rw [step_read rfl (by omega), State.withAgenda_withAgenda,
    busRead_accepted (s := s.withAgenda rest) h, readReg_withAgenda]
  rfl

/-- Settles O10: each offset of the map is that of its register. -/
theorem windowReadsTheRegisters : Obligations.WindowReadsTheRegisters := by
  intro s hb
  have hread : ∀ r : BusReg, s.readsAs r.offset (readReg s r) := fun _ => readsAs_offset (.inl hb)
  exact ⟨hread .cmd, hread .data, hread .result, hread .aux, hread .status, hread .strlen,
    fun i => hread (.d i),
    fun k => ⟨s.str.readWord k.val, hread (.str k), fun _ hj => s.str.readWord_byte k.val hj⟩⟩

@[simp] theorem writeReg_agenda (s : State) (v : Word) (r : BusReg) :
    (writeReg s v r).agenda = s.agenda := by
  cases r <;> rfl

/-- Of the host's writes only one to CMD sets the latch (70_reset_and_hazards.md R364). -/
theorem writeReg_inflight {r : BusReg} (v : Word) (h : r ≠ .cmd) :
    (writeReg s v r).inflight = s.inflight := by
  cases r with
  | cmd => exact absurd rfl h
  | _ => rfl

/-- STRLEN holds bits 6:0 of what was written (10_state.md R41). -/
theorem State.writeStrlen_strlenWord (s : State) (v : Word) :
    (s.writeStrlen v).strlenWord = v &&& 0x7F := by
  apply BitVec.eq_of_toNat_eq
  have hmask : v.toNat &&& 0x7F = v.toNat % 128 := Nat.and_two_pow_sub_one_eq_mod v.toNat 7
  simp only [State.strlenWord, State.writeStrlen_strlen, BitVec.toNat_setWidth, BitVec.toNat_and,
    BitVec.reduceToNat, hmask]
  omega

/-- A storing register reads as it was written (20_memory.md R67). -/
theorem readReg_writeReg_same {r : BusReg} (v : Word) (hwf : s.str.wf = true)
    (hr : r ∉ [BusReg.cmd, .result, .aux, .status]) :
    readReg (writeReg s v r) r = if r = .strlen then v &&& 0x7F else v := by
  cases r with
  | cmd | result | aux | status => exact absurd hr (by decide)
  | data => rfl
  | strlen => exact s.writeStrlen_strlenWord v
  | d i => exact s.writeD_readD_same i v
  | str k => exact (Memory.readWord_writeWord hwf k.isLt v).trans (if_pos rfl)

/-- A write to another register than CMD changes no register but its own (20_memory.md R67). -/
theorem readReg_writeReg_ne {r r' : BusReg} (v : Word) (hwf : s.str.wf = true) (hr : r ≠ .cmd)
    (hne : r' ≠ r) : readReg (writeReg s v r) r' = readReg s r' := by
  cases r with
  | cmd => exact absurd rfl hr
  | result | aux => rfl
  | data =>
    cases r' with
    | data => exact absurd rfl hne
    | _ => rfl
  | status =>
    cases r' with
    | status => exact absurd rfl hne
    | _ => rfl
  | strlen =>
    cases r' with
    | strlen => exact absurd rfl hne
    | _ => rfl
  | d i =>
    cases r' with
    | d j => exact s.writeD_readD_ne i j v (ne_of_apply_ne BusReg.d hne)
    | _ => rfl
  | str k =>
    cases r' with
    | str j =>
      have hjk : j.val ≠ k.val := fun h => hne (congrArg BusReg.str (Fin.ext h))
      exact (Memory.readWord_writeWord hwf k.isLt v).trans (if_neg hjk)
    | _ => rfl

/-- Settles O11: the write is accepted, and what it leaves is the register's own laws. -/
theorem writeIsReadBack : Obligations.WriteIsReadBack := by
  intro s rest r v hb hwf hr
  have hkind : r ≠ .cmd ∧ r ≠ .result ∧ r ≠ .aux ∧ r ≠ .status := by simpa using hr
  obtain ⟨hcmd, hres, haux, -⟩ := hkind
  refine ⟨(writeReg (s.withAgenda rest) v r).respond .writeAccepted, ?_, rfl, ?_, ?_, ?_, ?_⟩
  · rw [step_hostWr (s := s.withAgenda _) rfl, State.withAgenda_withAgenda,
      busWrite_accepted (s := s.withAgenda rest) v hb hres haux]
  · simp
  · exact writeReg_inflight (s := s.withAgenda rest) v hcmd
  · rw [readReg_respond, readReg_writeReg_same (s := s.withAgenda rest) v hwf hr]
  · intro r' hne
    rw [readReg_respond, readReg_writeReg_ne (s := s.withAgenda rest) v hwf hcmd hne,
      readReg_withAgenda]

end Sys2Proof.Machine
end

section
/-! PROOFS, 30_encoding.md. The decoder and the encoder are inverse to each other: a set of fields decodes to
a command exactly when they are the command's own (30_encoding.md R90 to R96, R104). -/

namespace Sys2Proof

/-- A command comes out exactly when the fields it does not use are zero (30_encoding.md R96). -/
theorem ifUnusedZero_ok_iff {f : CmdFields} {unusedZero : Bool} {i j : Instr} :
    ifUnusedZero f unusedZero i = .ok j ↔ unusedZero = true ∧ i = j := by
  cases unusedZero <;> simp [ifUnusedZero]

/-- Decoding the fields of a well-formed command gives it back: its own opcode selects its row, the fields
that the row leaves out are zero, and each operand survives the round trip through its field. -/
theorem decodeFields_fields {i : Instr} (h : i.wellFormed = true) : decodeFields i.fields = .ok i := by
  cases i with
  | pow10 | scale | shupc | enc | shl | shr =>
    simp [decodeFields, Instr.fields, ifUnusedZero, immOfBits_immToBits h]
  | rnd rd ra rule n =>
    simp [decodeFields, Instr.fields, ifUnusedZero, immOfBits_immToBits (n := n) h]
  | decomp rd ra rb =>
    have hne : rd ≠ rb := of_decide_eq_true h
    simp [decodeFields, Instr.fields, ifUnusedZero, regToBits_inj, hne]
  | _ => simp [decodeFields, Instr.fields, ifUnusedZero]

/-- An opcode is the 6-bit number that the decoder matches it with (30_encoding.md R95). -/
theorem opcode_eq {op : BitVec 6} {n : Nat} (h : op.toNat = n) : op = BitVec.ofNat 6 n := by
  rw [← h, BitVec.ofNat_toNat, BitVec.setWidth_eq]

/-- Fields that decode are those of the command: an immediate field holds an immediate in range, and the
unused fields are zero as the command's are. -/
theorem fields_of_decodeFields {f : CmdFields} {i : Instr} (h : decodeFields f = .ok i) :
    i.wellFormed = true ∧ i.fields = f := by
  obtain ⟨op, rd, ra, rb, rm, imm⟩ := f
  simp only [decodeFields] at h
  split at h
  -- RND
  case h_19 hop =>
    cases hrule : RoundingRule.ofCode rm with
    | none => simp [hrule] at h
    | some rule =>
      simp only [hrule, ifUnusedZero_ok_iff, beq_iff_eq] at h
      obtain ⟨hrb, rfl⟩ := h
      simp [Instr.wellFormed, Instr.fields, immOfBits_inRange, RoundingRule.code_of_ofCode hrule, hrb,
        opcode_eq hop]
  -- DECOMP
  case h_20 hop =>
    split at h
    · cases h
    · next hne =>
      simp only [ifUnusedZero_ok_iff, Bool.and_eq_true, beq_iff_eq] at h
      obtain ⟨⟨hrm, himm⟩, rfl⟩ := h
      have hreg : regOfBits rd ≠ regOfBits rb := fun he => hne (by simpa using congrArg regToBits he)
      simp [Instr.wellFormed, Instr.fields, hreg, hrm, himm, opcode_eq hop]
  -- no opcode of the table
  case h_25 => cases h
  all_goals
    next hop =>
    simp only [ifUnusedZero_ok_iff, Bool.and_eq_true, beq_iff_eq] at h
    obtain ⟨hzero, rfl⟩ := h
    simp [Instr.wellFormed, Instr.fields, immOfBits_inRange, hzero, opcode_eq hop]

/-- The decoder's answer on a set of fields (30_encoding.md R95, R96, R98): a well-formed command with
exactly those fields. -/
theorem decodeFields_ok_iff {f : CmdFields} {i : Instr} :
    decodeFields f = .ok i ↔ i.wellFormed = true ∧ i.fields = f := by
  refine ⟨fields_of_decodeFields, ?_⟩
  rintro ⟨hwf, rfl⟩
  exact decodeFields_fields hwf

/-- What the decoder accepts (30_encoding.md R90, R100): no bit above the command word, and a command word
whose fields decode. -/
theorem decodeCmd_ok_iff {v : Word} {i : Instr} :
    decodeCmd v = .ok i ↔
      v.extractLsb' 32 32 = 0 ∧ decodeFields (CmdFields.ofWord (v.extractLsb' 0 32)) = .ok i := by
  unfold decodeCmd
  split <;> simp_all [decodeWord]

/-- A CMD value with a zero high half is its low half (30_encoding.md R90). -/
theorem setWidth_low_of_high_zero {v : Word} (h : v.extractLsb' 32 32 = 0) :
    (v.extractLsb' 0 32).setWidth 64 = v := by
  have hhigh : (v.extractLsb' 32 32).toNat = 0 := by rw [h]; rfl
  simp only [BitVec.extractLsb'_toNat, Nat.shiftRight_eq_div_pow] at hhigh
  apply BitVec.eq_of_toNat_eq
  simp only [BitVec.toNat_setWidth, BitVec.extractLsb'_toNat, Nat.shiftRight_zero]
  omega

end Sys2Proof

namespace Sys2Proof.Machine

open Sys2Proof

/-- Settles O2: the encoding carries the command's fields, and these decode to it. -/
theorem decodeInvertsEncode : Obligations.DecodeInvertsEncode := fun i hwf =>
  (decodeCmd_encode i).trans (decodeFields_fields hwf)

/-- Settles O3: the fields of the value are those of the command, so packing them gives the value's low half,
and its high half is zero. -/
theorem encodeInvertsDecode : Obligations.EncodeInvertsDecode := by
  intro v i h
  obtain ⟨hhigh, hfields⟩ := decodeCmd_ok_iff.1 h
  obtain ⟨hwf, hf⟩ := decodeFields_ok_iff.1 hfields
  refine ⟨hwf, ?_⟩
  calc encode i = (CmdFields.ofWord (v.extractLsb' 0 32)).toWord.setWidth 64 := by
        rw [encode, encodeWord, hf]
    _ = v := by rw [CmdFields.toWord_ofWord, setWidth_low_of_high_zero hhigh]

/-- A word found as the encoding of a well-formed command decodes to it. -/
theorem decodeCmd_of_encode_eq {i : Instr} {v : Word} (hwf : i.wellFormed = true) (h : encode i = v) :
    decodeCmd v = .ok i :=
  h ▸ decodeInvertsEncode i hwf

/-- Settles O1: each worked command is well-formed and encodes to its word of R104, which therefore decodes to
it. -/
theorem workedEncodings : Obligations.WorkedEncodings := by
  have hadd : encode (.add 2 0 1) = 0x41020000 := by decide
  have henc : encode (.enc 0 (-3)) = 0x20003FFD := by decide
  have hrnd : encode (.rnd 1 0 .nearestEven 7) = 0x5C80C007 := by decide
  exact ⟨hadd, decodeCmd_of_encode_eq rfl hadd, henc, decodeCmd_of_encode_eq rfl henc, hrnd,
    decodeCmd_of_encode_eq rfl hrnd⟩

end Sys2Proof.Machine
end

section
/-! PROOFS, 30_encoding.md. The decoder against the opcode table: a value decodes exactly when it spells a row
and neither reserved case of R98 holds (30_encoding.md R95 to R100). -/

namespace Sys2Proof

theorem OpcodeRow.spells_iff {row : OpcodeRow} {w : BitVec 32} :
    row.spells w = true ↔ w &&& row.mask = row.pattern := beq_iff_eq

/-- The bits that two command words have in common, field by field. -/
def CmdFields.and (f g : CmdFields) : CmdFields :=
  ⟨f.op &&& g.op, f.rd &&& g.rd, f.ra &&& g.ra, f.rb &&& g.rb, f.rm &&& g.rm, f.imm &&& g.imm⟩

/-- Masking a command word masks each of its fields (30_encoding.md R91). -/
theorem CmdFields.ofWord_and (w m : BitVec 32) : ofWord (w &&& m) = (ofWord w).and (ofWord m) := by
  simp [ofWord, CmdFields.and, BitVec.extractLsb'_and]

/-- The fields of a word that spells a row, under the mask, are those of the row's pattern. -/
theorem fields_of_spells {row : OpcodeRow} {w : BitVec 32} (h : row.spells w = true) :
    (CmdFields.ofWord w).and (CmdFields.ofWord row.mask) = CmdFields.ofWord row.pattern := by
  rw [← CmdFields.ofWord_and, OpcodeRow.spells_iff.1 h]

/-- Every row fixes all six bits of the opcode. -/
theorem opcode_of_spells {row : OpcodeRow} {w : BitVec 32} (hrow : row ∈ opcodeRows)
    (h : row.spells w = true) : (CmdFields.ofWord w).op = (CmdFields.ofWord row.pattern).op := by
  have hmask : ∀ row ∈ opcodeRows, (CmdFields.ofWord row.mask).op = BitVec.allOnes 6 := by decide
  rw [← fields_of_spells h, CmdFields.and, hmask row hrow, BitVec.and_allOnes]

/-- A word spells at most one row: no two rows have the same opcode (30_encoding.md R97). -/
theorem row_unique {row row' : OpcodeRow} {w : BitVec 32} (hrow : row ∈ opcodeRows)
    (hrow' : row' ∈ opcodeRows) (h : row.spells w = true) (h' : row'.spells w = true) : row = row' := by
  have hnodup : (opcodeRows.map fun r => (CmdFields.ofWord r.pattern).op).Nodup := by decide
  exact List.inj_on_of_nodup_map hnodup hrow hrow'
    ((opcode_of_spells hrow h).symm.trans (opcode_of_spells hrow' h'))

/-- The encoding of every command spells the row with its mnemonic (30_encoding.md R95). -/
theorem encodesItsRow (i : Instr) : Laws.EncodesItsRow.Statement i := by
  open Laws.EncodesItsRow in
  cases i with
  | pow10 n => exact pow10 n
  | scale sh => exact scale sh
  | shup16 => exact shup16
  | shup17 => exact shup17
  | shup18 => exact shup18
  | shupc limit => exact shupc limit
  | enc rd e => exact enc rd e
  | sig ra => exact sig ra
  | exp ra => exact exp ra
  | sgn ra => exact sgn ra
  | norm rd ra => exact norm rd ra
  | add rd ra rb => exact add rd ra rb
  | sub rd ra rb => exact sub rd ra rb
  | mul rd ra rb => exact mul rd ra rb
  | div rd ra rb => exact div rd ra rb
  | neg rd ra => exact neg rd ra
  | shl rd ra n => exact shl rd ra n
  | shr rd ra n => exact shr rd ra n
  | rnd rd ra rule n => exact rnd rd ra rule n
  | decomp rd ra rb => exact decomp rd ra rb
  | cmpeq ra rb => exact cmpeq ra rb
  | cmp ra rb => exact cmp ra rb
  | parse rd => exact parse rd
  | fmt ra => exact fmt ra

/-- The row that a command's encoding spells has the command's mnemonic. -/
theorem mnemonic_of_spells {row : OpcodeRow} {i : Instr} (hrow : row ∈ opcodeRows)
    (h : row.spells (encodeWord i) = true) : i.mnemonic = row.mnemonic := by
  obtain ⟨row', hrow', hm, h'⟩ := encodesItsRow i
  rw [← hm, row_unique hrow hrow' h h']

/-- A word that spells a row decodes, but for the reserved codes of RND and equal destinations of DECOMP: the
row fixes the opcode and the zero fields, which is all that the opcode's arm of the decoder tests
(30_encoding.md R95, R96, R98). -/
theorem decodeFields_of_spells {row : OpcodeRow} {w : BitVec 32} (hrow : row ∈ opcodeRows)
    (h : row.spells w = true)
    (hrnd : row.mnemonic = "RND" → (CmdFields.ofWord w).rm.toNat < 6)
    (hdecomp : row.mnemonic = "DECOMP" → (CmdFields.ofWord w).rd ≠ (CmdFields.ofWord w).rb) :
    ∃ i, decodeFields (CmdFields.ofWord w) = .ok i := by
  have hf := fields_of_spells h
  generalize CmdFields.ofWord w = f at *
  obtain ⟨op, rd, ra, rb, rm, imm⟩ := f
  have hop : op &&& 63#6 = op := BitVec.and_allOnes
  have hreg (x : BitVec 3) : x &&& 7#3 = x := BitVec.and_allOnes
  have himm : imm &&& 16383#14 = imm := BitVec.and_allOnes
  simp only [opcodeRows, List.mem_cons, List.not_mem_nil, or_false] at hrow
  rcases hrow with rfl | rfl | rfl | rfl | rfl | rfl | rfl | rfl | rfl | rfl | rfl | rfl | rfl | rfl | rfl |
    rfl | rfl | rfl | rfl | rfl | rfl | rfl | rfl | rfl
  all_goals simp [CmdFields.ofWord, CmdFields.and, hop, hreg, himm] at hf
  -- RND, the 19th row: a code below 6 names a rule.
  on_goal 19 =>
    cases hrule : RoundingRule.ofCode rm with
    | none => exact absurd ((RoundingRule.ofCode_none_iff rm).1 hrule) (Nat.not_le.2 (hrnd rfl))
    | some rule => simp [decodeFields, ifUnusedZero, hf, hrule]
  -- DECOMP, the row after it.
  on_goal 19 =>
    have hne : rd ≠ rb := hdecomp rfl
    simp [decodeFields, ifUnusedZero, hf, hne]
  all_goals simp [decodeFields, ifUnusedZero, hf]

/-- The code of a rounding rule is none of the reserved ones (30_encoding.md R94). -/
theorem RoundingRule.code_lt (rule : RoundingRule) : rule.code.toNat < 6 := by
  cases rule <;> decide

/-- A command with RND's mnemonic has a legal rounding code (30_encoding.md R94). -/
theorem Instr.rm_lt_of_mnemonic_rnd {i : Instr} (h : i.mnemonic = "RND") : i.fields.rm.toNat < 6 := by
  cases i with
  | rnd rd ra rule n => exact rule.code_lt
  | _ => simp [Instr.mnemonic] at h

/-- A well-formed command with DECOMP's mnemonic names two destinations (30_encoding.md R98). -/
theorem Instr.rd_ne_rb_of_mnemonic_decomp {i : Instr} (hwf : i.wellFormed = true)
    (h : i.mnemonic = "DECOMP") : i.fields.rd ≠ i.fields.rb := by
  cases i with
  | decomp rd ra rb => exact fun he => of_decide_eq_true hwf (regToBits_inj.1 he)
  | _ => simp [Instr.mnemonic] at h

/-- The values that decode, by the opcode table (30_encoding.md R98, R100). -/
theorem decodeCmd_isOk_iff {v : Word} :
    (∃ i, decodeCmd v = .ok i) ↔
      v.extractLsb' 32 32 = 0 ∧ (∃ row ∈ opcodeRows, row.spells (v.extractLsb' 0 32) = true) ∧
        (∀ row ∈ opcodeRows, row.spells (v.extractLsb' 0 32) = true → row.mnemonic = "RND" →
          (v.extractLsb' 14 3).toNat < 6) ∧
        (∀ row ∈ opcodeRows, row.spells (v.extractLsb' 0 32) = true → row.mnemonic = "DECOMP" →
          v.extractLsb' 23 3 ≠ v.extractLsb' 17 3) := by
  have field (start len : Nat) (h : start + len ≤ 32) :
      v.extractLsb' start len = (v.extractLsb' 0 32).extractLsb' start len := by
    apply BitVec.eq_of_getLsbD_eq
    intro j hj
    simp [hj, show start + j < 32 by omega]
  rw [field 14 3 (by decide), field 23 3 (by decide), field 17 3 (by decide)]
  simp only [decodeCmd_ok_iff, exists_and_left]
  refine and_congr_right fun _ => ?_
  generalize v.extractLsb' 0 32 = w
  constructor
  · rintro ⟨i, hi⟩
    obtain ⟨hwf, hf⟩ := decodeFields_ok_iff.1 hi
    have hw : encodeWord i = w := by rw [encodeWord, hf, CmdFields.toWord_ofWord]
    have hmnemonic {row : OpcodeRow} (hrow : row ∈ opcodeRows) (h : row.spells w = true) :
        i.mnemonic = row.mnemonic := mnemonic_of_spells hrow (hw.symm ▸ h)
    obtain ⟨row, hrow, -, hspells⟩ := encodesItsRow i
    refine ⟨⟨row, hrow, hw ▸ hspells⟩, fun r hr hs hm => ?_, fun r hr hs hm => ?_⟩
    · have := Instr.rm_lt_of_mnemonic_rnd ((hmnemonic hr hs).trans hm)
      rwa [hf] at this
    · have := Instr.rd_ne_rb_of_mnemonic_decomp hwf ((hmnemonic hr hs).trans hm)
      rwa [hf] at this
  · rintro ⟨⟨row, hrow, h⟩, hrnd, hdecomp⟩
    exact decodeFields_of_spells hrow h (hrnd row hrow h) (hdecomp row hrow h)

end Sys2Proof
end

section
/-! PROOFS, 30_encoding.md. Which completions have E_ILLEGAL: no rule raises it, so it comes from the decoder
alone (30_encoding.md R98, 60_exceptions.md R332, R333). -/

namespace Sys2Proof.Machine

open Sys2Proof

/-- The rule does not raise E_ILLEGAL. -/
def NeverIllegal {α : Type} (r : Except ErrorCode α) : Prop := r ≠ .error .illegal

namespace NeverIllegal

theorem ok {α : Type} (a : α) : NeverIllegal (.ok a) := nofun

theorem error {α : Type} {c : ErrorCode} (h : c ≠ .illegal := by decide) :
    NeverIllegal (.error c : Except ErrorCode α) := fun he => h (Except.error.inj he)

theorem ite {α : Type} {p : Prop} [Decidable p] {x y : Except ErrorCode α} (hx : NeverIllegal x)
    (hy : NeverIllegal y) : NeverIllegal (if p then x else y) := by
  split
  · exact hx
  · exact hy

theorem bind {α β : Type} {x : Except ErrorCode α} {f : α → Except ErrorCode β} (hx : NeverIllegal x)
    (hf : ∀ a, NeverIllegal (f a)) : NeverIllegal (x >>= f) := fun h =>
  (except_bind_error_iff.1 h).elim hx fun ⟨a, _, ha⟩ => hf a ha

/-- A computed value that the rule then only writes. -/
theorem map {α β : Type} {x : Except ErrorCode α} {f : α → β} (hx : NeverIllegal x) :
    NeverIllegal (x >>= fun a => pure (f a)) := bind hx fun _ => ok _

theorem decimal (s : State) (r : Fin 8) : NeverIllegal (s.decimal r) := fun h =>
  absurd (State.decimal_error_iff.1 h).2 (by decide)

theorem encode (s e : Int) : NeverIllegal (encodeDecimal s e) := fun h =>
  absurd (encodeDecimal_error_iff.1 h).2 (by decide)

theorem renorm (s e : Int) : NeverIllegal (renorm s e) := by
  unfold Machine.renorm
  exact ite (ok 0) (bind (fun h => absurd (denormalise_error h) (by decide))
    fun _ => ite (ok 0) (encode _ _))

theorem addAligned (hi lo : Decimal) : NeverIllegal (addAligned hi lo) := by
  unfold Machine.addAligned
  exact ite (encode _ _) (ite (encode _ _) (renorm _ _))

theorem addCore (a b : Decimal) : NeverIllegal (addCore a b) := by
  unfold Machine.addCore
  exact ite (encode _ _) (ite (encode _ _) (ite (renorm _ _) (ite (addAligned _ _) (addAligned _ _))))

theorem mulCore (a b : Decimal) : NeverIllegal (mulCore a b) := by
  unfold Machine.mulCore
  exact ite (ok 0) (renorm _ _)

theorem divCore (a b : Decimal) : NeverIllegal (divCore a b) := by
  unfold Machine.divCore
  exact ite error (ite (ok 0) (ite (renorm _ _) (renorm _ _)))

theorem shiftCore (a : Decimal) (n : Int) : NeverIllegal (shiftCore a n) := by
  unfold Machine.shiftCore
  exact ite (ok 0) (renorm _ _)

theorem normCore (a : Decimal) : NeverIllegal (normCore a) := by
  unfold Machine.normCore
  exact ite (ok 0) (encode _ _)

theorem roundCore (a : Decimal) (rule : RoundingRule) (n : Int) : NeverIllegal (roundCore a rule n) := by
  unfold Machine.roundCore
  exact ite (encode _ _) (ite (ok 0) (encode _ _))

theorem decodeResult (w : Word) : NeverIllegal (decodeResult w) := fun h =>
  absurd (decodeResult_error_iff.1 h).2 (by decide)

theorem decompCore (x : Decimal) : NeverIllegal (decompCore x) :=
  bind (roundCore _ _ _) fun _ => bind (decodeResult _) fun _ => bind (addCore _ _) fun _ =>
    bind (decodeResult _) fun _ => map (encode _ _)

theorem parseCore (bs : List Byte) : NeverIllegal (parseCore bs) :=
  bind (fun h => absurd (parseLiteral_error h) (by decide)) fun _ => renorm _ _

theorem inputBytes (s : State) : NeverIllegal s.inputBytes := fun h =>
  absurd (State.inputBytes_error_iff.1 h).2 (by decide)

theorem shiftUpEffect (k : Nat) (s : State) : NeverIllegal (shiftUpEffect k s) := ite error (ok _)

/-- A command with one decoded operand. -/
theorem unary {s : State} {ra : Fin 8} {f : Decimal → Except ErrorCode State}
    (hf : ∀ a, NeverIllegal (f a)) : NeverIllegal (s.decimal ra >>= f) := bind (decimal s ra) hf

/-- A command with two decoded operands. -/
theorem binary {s : State} {ra rb : Fin 8} {f : Decimal → Decimal → Except ErrorCode State}
    (hf : ∀ a b, NeverIllegal (f a b)) :
    NeverIllegal (s.decimal ra >>= fun a => s.decimal rb >>= f a) := unary fun a => unary (hf a)

end NeverIllegal

/-- The rule of every well-formed command never raises E_ILLEGAL: DECOMP alone tests for it, with equal
destinations (43_round.md R236). -/
theorem exec_neverIllegal {i : Instr} (s : State) (hwf : i.wellFormed = true) :
    ∃ r, exec i s = s.complete r ∧ NeverIllegal r := by
  cases i with
  | pow10 n =>
    refine ⟨_, rfl, ?_⟩
    split
    · exact .ok _
    · exact .error
  | scale sh => exact ⟨_, rfl, .ite .error (.ok _)⟩
  | shup16 => exact ⟨_, rfl, .shiftUpEffect 16 s⟩
  | shup17 => exact ⟨_, rfl, .shiftUpEffect 17 s⟩
  | shup18 => exact ⟨_, rfl, .shiftUpEffect 18 s⟩
  | shupc limit => exact ⟨_, rfl, .ite .error (.ite .error (.ok _))⟩
  | enc rd e => exact ⟨_, rfl, .map (.encode _ _)⟩
  | sig ra => exact ⟨_, rfl, .unary fun _ => .ok _⟩
  | exp ra => exact ⟨_, rfl, .unary fun _ => .ok _⟩
  | sgn ra => exact ⟨_, rfl, .ok _⟩
  | norm rd ra => exact ⟨_, rfl, .unary fun a => .map (.normCore a)⟩
  | add rd ra rb => exact ⟨_, rfl, .binary fun a b => .map (.addCore a b)⟩
  | sub rd ra rb => exact ⟨_, rfl, .binary fun a b => .map (.addCore a b.negated)⟩
  | mul rd ra rb => exact ⟨_, rfl, .binary fun a b => .map (.mulCore a b)⟩
  | div rd ra rb => exact ⟨_, rfl, .binary fun a b => .map (.divCore a b)⟩
  | neg rd ra => exact ⟨_, rfl, .unary fun _ => .ok _⟩
  | shl rd ra n => exact ⟨_, rfl, .unary fun a => .map (.shiftCore a n)⟩
  | shr rd ra n => exact ⟨_, rfl, .unary fun a => .map (.shiftCore a (-n))⟩
  | rnd rd ra rule n => exact ⟨_, rfl, .unary fun a => .ite .error (.map (.roundCore a rule n))⟩
  | decomp rd ra rb =>
    refine ⟨_, rfl, ?_⟩
    rw [if_neg (of_decide_eq_true hwf)]
    exact .unary fun a => .map (.decompCore a)
  | cmpeq ra rb => exact ⟨_, rfl, .binary fun _ _ => .ok _⟩
  | cmp ra rb => exact ⟨_, rfl, .binary fun _ _ => .ok _⟩
  | parse rd => exact ⟨_, rfl, .bind (.inputBytes s) fun bs => .map (.parseCore bs)⟩
  | fmt ra => exact ⟨_, rfl, .unary fun _ => .ok _⟩

theorem ErrorCode.code_eq_one_iff {c : ErrorCode} : c.code = 1 ↔ c = .illegal := by
  cases c <;> decide

/-- A well-formed command completes with another code than that of E_ILLEGAL. -/
theorem exec_ecode_ne_one {i : Instr} (s : State) (hwf : i.wellFormed = true) :
    ∃ t, exec i s = .next t ∧ t.status.ecode ≠ 1 := by
  obtain ⟨r, hr, hnever⟩ := exec_neverIllegal s hwf
  rw [hr]
  cases r with
  | ok s' => exact ⟨_, rfl, by simp⟩
  | error c => exact ⟨_, rfl, fun h => hnever (congrArg _ (ErrorCode.code_eq_one_iff.1 h))⟩

/-- What the unit's turn leaves, by whether the value in flight decodes: code 1 exactly when it does not. -/
theorem unitMove_ecode_one_iff {s : State} {v : Word} (h : s.inflight = some v) :
    ∃ t, runMove (unitMove s) = .next t ∧ (t.status.ecode = 1 ↔ ¬∃ i, decodeCmd v = .ok i) ∧
      (t.status.ecode = 1 → t = s.errored 1) := by
  cases hv : decodeCmd v with
  | ok i =>
    obtain ⟨-, hfields⟩ := decodeCmd_ok_iff.1 hv
    obtain ⟨t, ht, hne⟩ := exec_ecode_ne_one s (decodeFields_ok_iff.1 hfields).1
    exact ⟨t, (unitMove_legal h hv).trans ht, by simpa using hne, fun he => absurd he hne⟩
  | error e =>
    exact ⟨_, unitMove_illegal h hv, by simp [ErrorCode.code], fun _ => State.fail_eq_errored s .illegal⟩

/-- Settles O4: E_ILLEGAL comes from the decoder alone, and a value decodes exactly when none of the cases of
R98 holds. -/
theorem illegalExactlyOutsideTheTable : Obligations.IllegalExactlyOutsideTheTable := by
  intro s u v hv hu
  have hv' : u.inflight = some v := by
    obtain ⟨-, rfl⟩ | ⟨rest, -, rfl⟩ := hu <;> exact hv
  obtain ⟨t, ht, hiff, herr⟩ := unitMove_ecode_one_iff hv'
  refine ⟨t, (step_unitTurnNext hu).trans ht, hiff.trans ?_, herr⟩
  rw [decodeCmd_isOk_iff, not_and_or, not_and_or, not_and_or]
  simp only [not_exists, not_and, not_forall, Bool.not_eq_true, exists_prop, not_lt, ne_eq, not_not]

end Sys2Proof.Machine
end

section
/-! PROOFS, 30_encoding.md. The relations that a host reads after CMP (30_encoding.md R103): ordering by keys
is the sign of the difference of the values (44_compare.md R264 to R267). -/

namespace Sys2Proof.Machine

open Sys2Proof

variable {a b : Decimal}

/-- A value has the sign of its significand. -/
theorem Decimal.sign_value (a : Decimal) : SignType.sign a.value = SignType.sign a.sig := by
  have hpow : (0 : ℚ) < 10 ^ a.exp := by positivity
  rw [Decimal.value, sign_mul, sign_pos hpow, mul_one, sign_intCast]

theorem Decimal.abs_value (a : Decimal) : |a.value| = a.sig.natAbs * 10 ^ a.exp := by
  have hpow : (0 : ℚ) < 10 ^ a.exp := by positivity
  rw [Decimal.value, abs_mul, abs_of_pos hpow, Nat.cast_natAbs, Int.cast_abs]

/-- A value is its magnitude with the sign of its significand. -/
theorem Decimal.sign_mul_abs_value (a : Decimal) : (a.sig.sign : ℚ) * |a.value| = a.value := by
  rw [Int.sign_eq_sign, SignType.intCast_cast, ← a.sign_value, sign_mul_abs]

/-- Values at one exponent differ as their significands do. -/
theorem sign_value_sub_of_exp_eq (h : a.exp = b.exp) :
    SignType.sign (a.value - b.value) = SignType.sign (a.sig - b.sig) := by
  have hsub : a.value - b.value = (⟨a.sig - b.sig, b.exp⟩ : Decimal).value := by
    simp only [Decimal.value, h, Int.cast_sub, sub_mul]
  rw [hsub, Decimal.sign_value]

/-- Of two 16-digit significands the one at the larger exponent has the larger magnitude. -/
theorem abs_value_lt_of_exp_lt (ha : a.sig.natAbs < 10 ^ 16) (hb : 10 ^ 15 ≤ b.sig.natAbs)
    (h : a.exp < b.exp) : |a.value| < |b.value| := by
  have ha' : (a.sig.natAbs : ℚ) < 10 ^ 16 := by exact_mod_cast ha
  have hb' : (10 : ℚ) ^ 15 ≤ b.sig.natAbs := by exact_mod_cast hb
  rw [Decimal.abs_value, Decimal.abs_value]
  calc (a.sig.natAbs : ℚ) * 10 ^ a.exp < 10 ^ 16 * 10 ^ a.exp := by gcongr
    _ = 10 ^ 15 * 10 ^ (a.exp + 1) := by rw [zpow_add_one₀ (by norm_num)]; ring
    _ ≤ 10 ^ 15 * 10 ^ b.exp := by gcongr <;> [norm_num; omega]
    _ ≤ b.sig.natAbs * 10 ^ b.exp := by gcongr

/-- The key's sign is that of the significand, of a zero too (44_compare.md R265). -/
theorem cmpKey_sign (a : Decimal) (h16 : a.sig.natAbs < 10 ^ 16) : (cmpKey a).sign = a.sig.sign := by
  by_cases h : a.sig = 0
  · rw [cmpKey_zero h, h, Int.sign_zero]
  · exact (cmpKey_spec h h16).1

/-- Numbers of different signs are ordered as their signs are. -/
theorem sign_sub_of_sign_ne {x y : ℚ} (h : SignType.sign x ≠ SignType.sign y) :
    (SignType.sign (x - y) : ℤ) = ((SignType.sign x : ℤ) - SignType.sign y).sign := by
  rcases h.lt_or_gt with hlt | hgt
  · rw [sign_neg (sub_neg.2 (SignType.sign.monotone.reflect_lt hlt))]
    generalize SignType.sign x = s, SignType.sign y = t at hlt
    decide +revert
  · rw [sign_pos (sub_pos.2 (SignType.sign.monotone.reflect_lt hgt))]
    generalize SignType.sign x = s, SignType.sign y = t at hgt
    decide +revert

/-- Magnitudes of 16 digits at different exponents are ordered as the exponents are. -/
theorem sign_abs_sub_of_exp_ne (ha : sixteenDigits a.sig) (hb : sixteenDigits b.sig) (h : a.exp ≠ b.exp) :
    (SignType.sign (|a.value| - |b.value|) : ℤ) = (a.exp - b.exp).sign := by
  rcases h.lt_or_gt with hlt | hgt
  · rw [sign_neg (sub_neg.2 (abs_value_lt_of_exp_lt ha.2 hb.1 hlt)),
      Int.sign_eq_neg_one_of_neg (by omega)]
    rfl
  · rw [sign_pos (sub_pos.2 (abs_value_lt_of_exp_lt hb.2 ha.1 hgt)), Int.sign_eq_one_of_pos (by omega)]
    rfl

/-- Values of one sign follow their magnitudes, or are ordered the other way round when it is negative
(44_compare.md R266). -/
theorem sign_sub_of_exp_ne (ha : sixteenDigits a.sig) (hb : sixteenDigits b.sig)
    (hs : a.sig.sign = b.sig.sign) (h : a.exp ≠ b.exp) :
    (SignType.sign (a.value - b.value) : ℤ) = a.sig.sign * (a.exp - b.exp).sign := by
  have hsub : a.value - b.value = (a.sig.sign : ℚ) * (|a.value| - |b.value|) := by
    rw [mul_sub, a.sign_mul_abs_value, hs, b.sign_mul_abs_value]
  rw [hsub, sign_mul, SignType.coe_mul, sign_intCast, ← Int.sign_eq_sign, Int.sign_sign,
    sign_abs_sub_of_exp_ne ha hb h]

/-- `ordCore` is the sign of the difference of the values (44_compare.md R266, R267). -/
theorem ordCore_eq_sign (ha : a.sig.natAbs < 10 ^ 16) (hb : b.sig.natAbs < 10 ^ 16) :
    ordCore a b = SignType.sign (a.value - b.value) := by
  unfold ordCore
  simp only [cmpKey_sign a ha, cmpKey_sign b hb]
  by_cases hs : a.sig.sign = b.sig.sign
  · by_cases h0 : a.sig = 0
    · have hb0 : b.sig = 0 := by rwa [h0, Int.sign_zero, eq_comm, Int.sign_eq_zero_iff_zero] at hs
      simp [h0, hb0, Decimal.value]
    · have h0' : a.sig.sign ≠ 0 := mt Int.sign_eq_zero_iff_zero.1 h0
      have hb0 : b.sig ≠ 0 := mt Int.sign_eq_zero_iff_zero.2 (hs ▸ h0')
      obtain ⟨-, hsa, ha1, ha2, hva⟩ := cmpKey_spec h0 ha
      obtain ⟨-, hsb, hb1, hb2, hvb⟩ := cmpKey_spec hb0 hb
      rw [if_neg (not_not.2 hs), if_neg h0', ← hva, ← hvb]
      split
      · next he =>
        rw [sign_sub_of_exp_ne ⟨ha1, ha2⟩ ⟨hb1, hb2⟩ (hsa.trans (hs.trans hsb.symm)) he, hsa]
        rcases lt_or_gt_of_ne h0 with hneg | hpos
        · simp [Int.sign_eq_neg_one_of_neg hneg]
        · simp [Int.sign_eq_one_of_pos hpos]
      · next he => rw [sign_value_sub_of_exp_eq (not_not.1 he), Int.sign_eq_sign]
  · have hs' : SignType.sign a.value ≠ SignType.sign b.value := by
      rw [Decimal.sign_value, Decimal.sign_value]
      exact fun h => hs (by rw [Int.sign_eq_sign, Int.sign_eq_sign, h])
    rw [if_pos hs, sign_sub_of_sign_ne hs', Decimal.sign_value, Decimal.sign_value, Int.sign_eq_sign a.sig,
      Int.sign_eq_sign b.sig]

/-- What CMP leaves in RESULT: the sign of the difference of the values (44_compare.md R264, R267). -/
theorem exec_cmp_of_holds {s : State} {ra rb : Fin 8} (ha : s.holds ra a) (hb : s.holds rb b) :
    exec (.cmp ra rb) s =
      .next (s.writeResult (word64 (SignType.sign (a.value - b.value) : SignType))).succeed := by
  rw [← ordCore_eq_sign (inRange_of_decode ha).1 (inRange_of_decode hb).1]
  exact execCmp_next.2 (.inl ⟨a, ha, .inl ⟨b, hb, rfl⟩⟩)

/-- The host's tests on a RESULT of −1, 0 or 1 are comparisons of that number with 0 (30_encoding.md R103). -/
theorem Relation.holds_word64_sign (rel : Relation) (g : SignType) :
    rel.holds (word64 (g : ℤ)) = match rel with
      | .lt => decide (g = -1)
      | .le => decide (g ≠ 1)
      | .gt => decide (g = 1)
      | .ge => decide (g ≠ -1)
      | .eq => decide (g = 0)
      | .ne => decide (g ≠ 0) := by
  cases rel <;> decide +revert

/-- Settles O53: the sign of the difference of two values says how they stand to each other. -/
theorem relationsReadFromCmp : Obligations.RelationsReadFromCmp := by
  intro s ra rb a b ha hb
  refine ⟨_, exec_cmp_of_holds ha hb, ?_⟩
  simp only [State.succeed_result, State.writeResult_result, Relation.holds_word64_sign, decide_eq_true_eq,
    ne_eq, sign_eq_neg_one_iff, sign_eq_one_iff, sign_eq_zero_iff, sub_neg, sub_pos, sub_eq_zero, not_lt,
    and_self]

end Sys2Proof.Machine
end

section
/-! PROOFS, 30_encoding.md. The string pseudo-instructions WRSTR and RDSTR (30_encoding.md R103,
20_memory.md R63): the buffer after a run of STR words was written, and the bytes of those that are read. -/

namespace Sys2Proof.Machine

open Sys2Proof

/-! ### Words and bytes -/

/-- Byte j of the word of a byte list is its j-th byte (20_memory.md R63). -/
theorem bytesWord_byte (bs : List Byte) {j : Nat} (hj : j < 8) :
    (bytesWord bs).extractLsb' (8 * j) 8 = bs.getD j 0 := by
  apply BitVec.eq_of_getLsbD_eq
  intro i hi
  rw [BitVec.getLsbD_extractLsb', decide_eq_true hi, Bool.true_and, bytesWord_getLsbD _ _ (by omega)]
  congr 2 <;> omega

/-- Byte j of word k of a text is its byte 8k + j, 0 after its end (30_encoding.md R103). -/
theorem textWord_byte (text : List Byte) (k : Nat) {j : Nat} (hj : j < 8) :
    (textWord text k).extractLsb' (8 * j) 8 = text.getD (8 * k + j) 0 := by
  rw [textWord, bytesWord_byte _ hj]
  simp [List.getD_eq_getElem?_getD, hj]

/-- The bytes of STR word k (20_memory.md R63). -/
theorem wordBytes_readWord (m : Memory) (k : Nat) :
    wordBytes (m.readWord k) = m.readBytes (8 * k) 8 := by
  apply List.ext_getElem
  · rw [wordBytes_length, Memory.readBytes_length]
  · intro j hj _
    rw [wordBytes_length] at hj
    simp [wordBytes, Memory.readWord_byte m k hj, Memory.readBytes_getElem]

theorem Memory.readBytes_append (m : Memory) (j a b : Nat) :
    m.readBytes j (a + b) = m.readBytes j a ++ m.readBytes (j + a) b := by
  induction a generalizing j with
  | zero => simp [Memory.readBytes]
  | succ a ih =>
    rw [show a + 1 + b = (a + b) + 1 by omega, Memory.readBytes, ih, Memory.readBytes, List.cons_append,
      show j + 1 + a = j + (a + 1) by omega]

/-- The bytes of the first n STR words are the first 8n bytes of the buffer. -/
theorem flatMap_wordBytes_readWord (m : Memory) (n : Nat) :
    ((List.range n).map m.readWord).flatMap wordBytes = m.readBytes 0 (8 * n) := by
  induction n with
  | zero => rfl
  | succ n ih =>
    rw [List.range_succ, List.map_append, List.flatMap_append, ih, Nat.mul_succ,
      Memory.readBytes_append, Nat.zero_add]
    simp [wordBytes_readWord]

theorem Memory.take_readBytes (m : Memory) (j : Nat) {n l : Nat} (h : l ≤ n) :
    (m.readBytes j n).take l = m.readBytes j l := by
  obtain ⟨k, rfl⟩ := Nat.exists_eq_add_of_le h
  rw [Memory.readBytes_append, List.take_left' (Memory.readBytes_length m j l)]

/-! ### WRSTR -/

/-- The buffer after the host wrote `f k` to STR word k, for each k of a list. -/
def Memory.writeWords (m : Memory) (ks : List (Fin 8)) (f : Fin 8 → Word) : Memory :=
  ks.foldl (fun m k => m.writeWord k.val (f k)) m

theorem Memory.writeWords_wf {m : Memory} (h : m.wf = true) (ks : List (Fin 8)) (f : Fin 8 → Word) :
    (m.writeWords ks f).wf = true := by
  induction ks generalizing m with
  | nil => exact h
  | cons k ks ih => exact ih (Memory.writeWord_wf h k.isLt (f k))

/-- A byte of a word in the list is that of the word written there; any other byte stays. -/
theorem Memory.read_writeWords {m : Memory} (h : m.wf = true) (ks : List (Fin 8)) (f : Fin 8 → Word)
    (k : Fin 8) {j : Nat} (hj : j < 8) :
    (m.writeWords ks f).read (8 * k.val + j) =
      if k ∈ ks then (f k).extractLsb' (8 * j) 8 else m.read (8 * k.val + j) := by
  induction ks generalizing m with
  | nil => rfl
  | cons k' ks ih =>
    have htail : (m.writeWords (k' :: ks) f).read (8 * k.val + j) =
        if k ∈ ks then (f k).extractLsb' (8 * j) 8
        else (m.writeWord k'.val (f k')).read (8 * k.val + j) :=
      ih (Memory.writeWord_wf h k'.isLt (f k'))
    rw [htail, Memory.read_writeWord h k'.isLt]
    by_cases hk : k = k'
    · subst hk
      simp [hj]
    · have hout : ¬(8 * k'.val ≤ 8 * k.val + j ∧ 8 * k.val + j < 8 * k'.val + 8) := by
        have := Fin.val_ne_of_ne hk
        omega
      simp [hk, hout]

/-- An accepted host write is one step (30_encoding.md R102, 20_memory.md R67). -/
theorem step_hostWr_idle {s : State} {r : BusReg} (v : Word) (rest : List Event)
    (hb : s.status.busy = false) (hres : r ≠ .result) (haux : r ≠ .aux) :
    step (s.withAgenda (hostWr r v :: rest)) =
      .next (((writeReg s v r).respond .writeAccepted).withAgenda rest) := by
  rw [step_hostWr (s := s.withAgenda _) rfl, State.withAgenda_withAgenda,
    busWrite_accepted (s := s.withAgenda rest) v hb hres haux]
  cases r <;> rfl

/-- A block of host writes of STR words: they are all accepted, and STR holds the words written. -/
theorem run_hostWr_str (f : Fin 8 → Word) (rest : List Event) (n : Nat) (ks : List (Fin 8)) (s : State)
    (hb : s.status.busy = false) :
    ∃ t : State, Host.Core.run Sys2Proof.core (ks.length + n)
        (s.withAgenda (ks.map (fun k => hostWr (.str k) (f k)) ++ rest)) =
          Host.Core.run Sys2Proof.core n (t.withAgenda rest) ∧
      t.status.busy = false ∧ t.str = s.str.writeWords ks f := by
  induction ks generalizing s with
  | nil => exact ⟨s, by simp, hb, rfl⟩
  | cons k ks ih =>
    obtain ⟨t, ht, htb, hstr⟩ := ih ((writeReg s (f k) (.str k)).respond .writeAccepted) hb
    refine ⟨t, ?_, htb, hstr⟩
    rw [← ht, List.length_cons, Nat.add_right_comm]
    exact run_next _ (step_hostWr_idle (f k) _ hb nofun nofun)

/-- The eight words of a text, written to the eight STR words, put the text at the start of the buffer. -/
theorem readBytes_writeWords_textWord {m : Memory} (h : m.wf = true) {text : List Byte}
    (hl : text.length ≤ 64) :
    (m.writeWords (List.finRange 8) fun k => textWord text k.val).readBytes 0 text.length = text := by
  apply List.ext_getElem (Memory.readBytes_length _ _ _)
  intro i h1 h2
  have hi : 0 + i = 8 * (⟨i / 8, by omega⟩ : Fin 8).val + i % 8 := by simp only; omega
  rw [Memory.readBytes_getElem, hi, Memory.read_writeWords h _ _ _ (Nat.mod_lt i (by decide)),
    if_pos (List.mem_finRange _), textWord_byte _ _ (Nat.mod_lt i (by decide)), ← hi, Nat.zero_add,
    List.getD_eq_getElem _ _ h2]

/-- The nine writes of WRSTR leave the text as PARSE's input (30_encoding.md R103, 45_string.md R282). -/
theorem run_hostWrstr {s : State} {text : List Byte} (hb : s.status.busy = false) (hwf : s.str.wf = true)
    (h1 : 1 ≤ text.length) (h64 : text.length ≤ 64) :
    ∃ t, Host.Core.run Sys2Proof.core 9 (s.withAgenda (hostWrstr text)) = .next t ∧
      t.inputBytes = .ok text ∧ t.agenda = [] := by
  obtain ⟨u, hu, hub, hstr⟩ := run_hostWr_str (fun k => textWord text k.val)
    [hostWr .strlen (BitVec.ofNat 64 text.length)] 1 (List.finRange 8) s hb
  have hrun := hu.trans (run_next 0 (step_hostWr_idle _ _ hub nofun nofun))
  refine ⟨_, hrun, ?_, rfl⟩
  have hlen : (BitVec.setWidth 7 (BitVec.ofNat 64 text.length)).toNat = text.length := by
    simp only [BitVec.toNat_setWidth, BitVec.toNat_ofNat]
    omega
  rw [State.inputBytes_ok_iff]
  simp only [State.withAgenda_strlen, State.withAgenda_str, State.respond_strlen, State.respond_str, writeReg,
    State.writeStrlen_strlen, State.writeStrlen_str, hlen, hstr, readBytes_writeWords_textWord hwf h64]
  exact ⟨by omega, h64, trivial⟩

/-! ### RDSTR -/

/-- A block of host reads answers the registers' values, in order (30_encoding.md R102). -/
theorem hostReads_map_hostRd (rs : List BusReg) (s : State) (hb : s.status.busy = false) :
    hostReads rs.length (s.withAgenda (rs.map hostRd)) = rs.map (readReg s) := by
  induction rs generalizing s with
  | nil => rfl
  | cons r rs ih =>
    have htail := ih (s.respond (.readData (readReg s r))) hb
    rw [show readReg (s.respond _) = readReg s from funext (readReg_respond s _)] at htail
    rw [List.length_cons, List.map_cons, hostReads_hostRd (s := s.withAgenda _) _ rfl (.inl hb),
      State.withAgenda_withAgenda, readReg_withAgenda, List.map_cons, ← htail]
    rfl

/-- The nine answers to RDSTR: LEN and the eight words of the buffer (30_encoding.md R103). -/
theorem hostReads_hostRdstr {s : State} (hb : s.status.busy = false) :
    hostReads 9 (s.withAgenda hostRdstr) = s.strlenWord :: (List.range 8).map s.str.readWord :=
  hostReads_map_hostRd (.strlen :: (List.finRange 8).map .str) s hb

/-- Settles O59: WRSTR's words are the text's, and RDSTR's answers are LEN and the words of the buffer. -/
theorem wrstrLoadsTheText : Obligations.WrstrLoadsTheText := by
  refine ⟨fun s text hb hwf h1 h64 => run_hostWrstr hb hwf h1 h64, fun s hb hlen => ?_⟩
  have hword : s.strlenWord.toNat = s.strlen.toNat := BitVec.toNat_setWidth_of_le (by decide)
  rw [hostReads_hostRdstr hb, rdstrText, flatMap_wordBytes_readWord, hword, Memory.take_readBytes _ _ hlen]

end Sys2Proof.Machine
end

section
/-! PROOFS, 40_digit_shift.md. The power-of-ten table and scaling (40_digit_shift.md R120 to R122, R127): what
each computes by the range of its argument, and that the word written spells it. -/

namespace Sys2Proof.Machine

open Sys2Proof

/-- `succeed` leaves the state that `State.completed` writes out (10_state.md R39). -/
theorem State.succeed_eq_completed (s : State) : s.succeed = s.completed := rfl

/-! ### The table -/

theorem powerOfTen_of_le {n : Int} (h0 : 0 ≤ n) (h18 : n ≤ 18) : powerOfTen n = some (10 ^ n.toNat) :=
  if_neg (by omega)

theorem powerOfTen_eq_none {n : Int} (h : n < 0 ∨ 18 < n) : powerOfTen n = none :=
  if_pos h

/-- A word holds every natural number below 2^64 unchanged (00_scope.md R8). -/
theorem toNat_word64 {p : Nat} (h : p < 2 ^ 64) : (word64 p).toNat = p := by
  rw [word64, BitVec.ofInt_natCast, BitVec.toNat_ofNat, Nat.mod_eq_of_lt h]

/-- Settles O24: the command reads the table, and every entry of the table fits a word. -/
theorem pow10Result : Obligations.Pow10Result := by
  refine fun s n => ⟨fun h0 h18 => ?_, fun h => ?_⟩
  · have hfit : 10 ^ n.toNat ≤ 10 ^ 18 := Nat.pow_le_pow_right (by decide) (by omega)
    exact ⟨word64 (10 ^ n.toNat : Nat), toNat_word64 (by omega),
      execPow10_next.2 (.inl ⟨_, powerOfTen_of_le h0 h18, rfl⟩)⟩
  · exact execPow10_next.2 (.inr ⟨powerOfTen_eq_none h, (s.fail_eq_errored .range).symm⟩)

/-! ### Scaling -/

theorem scaleByDigits_of_nonneg (v : Int) {sh : Int} (h : 0 ≤ sh) :
    scaleByDigits v sh = v * 10 ^ sh.toNat := by
  rw [scaleByDigits, if_neg (by omega), if_neg (by omega)]

theorem scaleByDigits_of_neg (v : Int) {sh : Int} (h17 : -17 ≤ sh) (h : sh < 0) :
    scaleByDigits v sh = v.tdiv (10 ^ sh.natAbs) := by
  rw [scaleByDigits, if_neg (by omega), if_pos h, show (-sh).toNat = sh.natAbs by omega]

theorem scaleByDigits_of_lt (v : Int) {sh : Int} (h : sh < -17) : scaleByDigits v sh = 0 :=
  if_pos h

/-- A quotient truncated toward zero, by its magnitude and its sign. -/
theorem tdiv_pow_ten_spec (v : Int) (k : Nat) :
    (v.tdiv (10 ^ k)).natAbs * 10 ^ k ≤ v.natAbs ∧
      v.natAbs < ((v.tdiv (10 ^ k)).natAbs + 1) * 10 ^ k ∧
      (v.tdiv (10 ^ k) = 0 ∨ (v.tdiv (10 ^ k)).sign = v.sign) := by
  have habs : (v.tdiv (10 ^ k)).natAbs = v.natAbs / 10 ^ k := by
    rw [Int.natAbs_tdiv, Int.natAbs_pow]
    rfl
  have hsign : (10 ^ k : Int).sign = 1 := Int.sign_eq_one_of_pos (by positivity)
  rw [habs]
  refine ⟨Nat.div_mul_le_self _ _, ?_, ?_⟩
  · exact (Nat.div_lt_iff_lt_mul (by positivity)).1 (Nat.lt_succ_self _)
  · rw [← Int.sign_eq_zero_iff_zero, Int.sign_tdiv, hsign, mul_one]
    split <;> simp

/-- SCALE with a value that fits 64 signed bits writes that value to RESULT (40_digit_shift.md R122). -/
theorem exec_scale_of_fits {s : State} {sh v : Int} (hv : scaleByDigits s.data.toInt sh = v)
    (h1 : -2 ^ 63 ≤ v) (h2 : v < 2 ^ 63) :
    (word64 v).toInt = v ∧
      exec (.scale sh) s = .next ({ s with result := word64 v } : State).completed := by
  subst hv
  have hfit : ¬(scaleByDigits s.integer sh < -2 ^ 63 ∨ scaleByDigits s.integer sh > 2 ^ 63 - 1) := by
    simp only [State.integer, sint]
    omega
  exact ⟨sint_word64 h1 h2, execScale_next.2 (.inl ⟨hfit, rfl⟩)⟩

/-- SCALE with any other value raises E_RANGE (40_digit_shift.md R122). -/
theorem exec_scale_of_overflow {s : State} {sh v : Int} (hv : scaleByDigits s.data.toInt sh = v)
    (h : v < -2 ^ 63 ∨ 2 ^ 63 ≤ v) : exec (.scale sh) s = .next (s.errored 3) := by
  subst hv
  have hover : scaleByDigits s.integer sh < -2 ^ 63 ∨ scaleByDigits s.integer sh > 2 ^ 63 - 1 := by
    simp only [State.integer, sint]
    omega
  exact execScale_next.2 (.inr ⟨hover, (s.fail_eq_errored .range).symm⟩)

/-- Settles O25: by the sign of the shift; a quotient by ten or more always fits. -/
theorem scaleResult : Obligations.ScaleResult := by
  refine fun s sh => ⟨fun h h1 h2 => ?_, fun h hover => ?_, fun h17 hneg => ?_, fun h => ?_⟩
  · exact ⟨_, exec_scale_of_fits (scaleByDigits_of_nonneg _ h) h1 h2⟩
  · exact exec_scale_of_overflow (scaleByDigits_of_nonneg _ h) hover
  · obtain ⟨hle, hlt, hsign⟩ := tdiv_pow_ten_spec s.data.toInt sh.natAbs
    have hten : 10 ^ 1 ≤ 10 ^ sh.natAbs := Nat.pow_le_pow_right (by decide) (by omega)
    have hmul := Nat.mul_le_mul_left (s.data.toInt.tdiv (10 ^ sh.natAbs)).natAbs hten
    have hmin := s.data.le_toInt
    have hmax := s.data.toInt_lt
    obtain ⟨hw, hexec⟩ := exec_scale_of_fits (scaleByDigits_of_neg s.data.toInt h17 hneg)
      (by omega) (by omega)
    exact ⟨_, by rwa [hw], by rwa [hw], by rwa [hw], hexec⟩
  · exact (exec_scale_of_fits (scaleByDigits_of_lt _ h) (by decide) (by decide)).2

end Sys2Proof.Machine
end

section
/-! PROOFS, 40_digit_shift.md. The shifts up to a number of digits (40_digit_shift.md R123 to R126, R128,
R129): which operands a rule refuses, and the digits that the shifted value has. -/

namespace Sys2Proof.Machine

open Sys2Proof

/-- What a shift command writes: the value to RESULT and the count to AUX (10_state.md R34, R35). -/
theorem State.writeShift_eq (s : State) (v : Int) (k : Nat) :
    s.writeShift (v, k) = { s with result := word64 v, aux := BitVec.ofNat 64 k } := by
  rw [State.writeShift, word64, word64, BitVec.ofInt_natCast]
  rfl

/-- Both length tests of a shift up to `t ≤ 18` digits together refuse more than `t` digits. -/
theorem shift_refused_iff {m t : Nat} (hm : m ≠ 0) (ht : t ≤ 18) :
    m ≥ 10 ^ 18 ∨ ndigits m > t ↔ 10 ^ t ≤ m := by
  have hle : 10 ^ t ≤ 10 ^ 18 := Nat.pow_le_pow_right (by decide) ht
  rw [gt_iff_lt, lt_ndigits_iff hm]
  omega

/-- The magnitude of a value shifted by `k` digits has `k` digits more. -/
theorem ndigits_natAbs_mul_pow {v : Int} (hv : v ≠ 0) (k : Nat) :
    ndigits (v * 10 ^ k).natAbs = ndigits v.natAbs + k := by
  rw [Int.natAbs_mul, Int.natAbs_pow]
  exact ndigits_mul_pow (Int.natAbs_ne_zero.2 hv) k

theorem mul_pow_ten_ne_zero {v : Int} (hv : v ≠ 0) (k : Nat) : v * 10 ^ k ≠ 0 :=
  mul_ne_zero hv (by positivity)

/-! ### SHUP16, SHUP17 and SHUP18 -/

/-- A value shifted up to `t` digits lies in the decade of `t`-digit numbers (40_digit_shift.md R128). -/
theorem shiftUpToDigits_bounds {v : Int} {t : Nat} (hv : v ≠ 0) (hlt : v.natAbs < 10 ^ t) :
    10 ^ (t - 1) ≤ (shiftUpToDigits v t).1.natAbs ∧ (shiftUpToDigits v t).1.natAbs < 10 ^ t := by
  have hne : (shiftUpToDigits v t).1.natAbs ≠ 0 := Int.natAbs_ne_zero.2 (mul_pow_ten_ne_zero hv _)
  obtain ⟨hlo, hhi, -⟩ := ndigits_bounds hne
  rw [shiftUpToDigits_digits hv ((ndigits_le_iff (Int.natAbs_ne_zero.2 hv)).2 hlt)] at hlo hhi
  exact ⟨hlo, hhi⟩

/-- The three commands run one rule, each with its target. -/
theorem exec_shup {i : Instr} {t : Nat}
    (h : (i = .shup16 ∧ t = 16) ∨ (i = .shup17 ∧ t = 17) ∨ (i = .shup18 ∧ t = 18)) (s : State) :
    t ≤ 18 ∧ exec i s = s.complete (shiftUpEffect t s) := by
  rcases h with ⟨rfl, rfl⟩ | ⟨rfl, rfl⟩ | ⟨rfl, rfl⟩ <;> exact ⟨by decide, rfl⟩

/-- The rule refuses zero and every value of more than `t` digits (40_digit_shift.md R123 to R125). -/
theorem shiftUp_refused_iff {v : Int} {t : Nat} (ht : t ≤ 18) :
    v = 0 ∨ v.natAbs ≥ 10 ^ 18 ∨ ndigits v.natAbs > t ↔ v = 0 ∨ 10 ^ t ≤ v.natAbs :=
  or_congr_right' fun hv => shift_refused_iff (Int.natAbs_ne_zero.2 hv) ht

/-- Settles O26: of the values that the rule accepts, the shifted one fits a word, as it is below 10^18. -/
theorem shiftUpResult : Obligations.ShiftUpResult := by
  intro s i t hi
  obtain ⟨ht, hexec⟩ := exec_shup hi s
  rw [hexec]
  refine ⟨fun hv hlt => ?_, fun h => ?_⟩
  · obtain ⟨hlo, hhi⟩ := shiftUpToDigits_bounds hv hlt
    have hpow : 10 ^ t ≤ 10 ^ 18 := Nat.pow_le_pow_right (by decide) ht
    have hw : (word64 (shiftUpToDigits s.data.toInt t).1).toInt = (shiftUpToDigits s.data.toInt t).1 :=
      sint_word64 (by omega) (by omega)
    have hacc : ¬(s.data.toInt = 0 ∨ 10 ^ t ≤ s.data.toInt.natAbs) := by omega
    rw [← hw] at hlo hhi
    refine ⟨_, _, hw, hlo, hhi, shiftUpEffect_next.2 (.inl ⟨(shiftUp_refused_iff ht).not.2 hacc, ?_⟩)⟩
    rw [← State.writeShift_eq]
    rfl
  · exact shiftUpEffect_next.2
      (.inr ⟨(shiftUp_refused_iff ht).2 h, (s.fail_eq_errored .range).symm⟩)

/-! ### SHUPC -/

@[simp] theorem shiftUpToDigitsCapped_zero (limit : Nat) : shiftUpToDigitsCapped 0 limit = (0, limit) :=
  if_pos rfl

/-- The capped shift keeps 17 digits, and it reaches them unless the limit stops it
(40_digit_shift.md R129). -/
theorem shiftUpToDigitsCapped_bounds {v : Int} (hv : v ≠ 0) (hlt : v.natAbs < 10 ^ 17) (limit : Nat) :
    (shiftUpToDigitsCapped v limit).1.natAbs < 10 ^ 17 ∧
      ((shiftUpToDigitsCapped v limit).2 = limit ∨
        10 ^ 16 ≤ (shiftUpToDigitsCapped v limit).1.natAbs) := by
  have hdigits : ndigits v.natAbs ≤ 17 := (ndigits_le_iff (Int.natAbs_ne_zero.2 hv)).2 hlt
  have hne (k : Nat) : (v * 10 ^ k).natAbs ≠ 0 := Int.natAbs_ne_zero.2 (mul_pow_ten_ne_zero hv k)
  rw [shiftUpToDigitsCapped, if_neg hv, ← ndigits_le_iff (hne _), ← lt_ndigits_iff (hne _),
    ndigits_natAbs_mul_pow hv]
  omega

/-- The rule refuses a negative limit and every value of more than 17 digits (40_digit_shift.md R126). -/
theorem shupc_refused_iff {limit v : Int} :
    limit < 0 ∨ v ≠ 0 ∧ (v.natAbs ≥ 10 ^ 18 ∨ ndigits v.natAbs > 17) ↔
      limit < 0 ∨ 10 ^ 17 ≤ v.natAbs := by
  by_cases hv : v = 0
  · simp [hv]
  · rw [shift_refused_iff (Int.natAbs_ne_zero.2 hv) (by decide), and_iff_right hv]

/-- SHUPC on an operand that its rule accepts (40_digit_shift.md R126). -/
theorem exec_shupc_of_accepted {s : State} {limit : Int}
    (h : ¬(limit < 0 ∨ 10 ^ 17 ≤ s.data.toInt.natAbs)) :
    exec (.shupc limit) s = .next ({ s with
      result := word64 (shiftUpToDigitsCapped s.data.toInt limit.toNat).1,
      aux := BitVec.ofNat 64 (shiftUpToDigitsCapped s.data.toInt limit.toNat).2 } : State).completed := by
  rw [← State.writeShift_eq]
  exact execShupc_next.2 (.inl ⟨shupc_refused_iff.not.2 h, rfl⟩)

/-- Settles O27: the three clauses are the accepted nonzero values, zero, and the refused operands. -/
theorem shupcResult : Obligations.ShupcResult := by
  refine fun s limit => ⟨fun h0 hv hlt => ?_, fun h0 hz => ?_, fun h => ?_⟩
  · have hexec := exec_shupc_of_accepted (s := s) (limit := limit) (by omega)
    have hvalue := shiftUpToDigitsCapped_value s.data.toInt limit.toNat
    have hcount := shiftUpToDigitsCapped_le s.data.toInt limit.toNat
    obtain ⟨hhi, hreach⟩ := shiftUpToDigitsCapped_bounds hv hlt limit.toNat
    generalize shiftUpToDigitsCapped s.data.toInt limit.toNat = r at *
    have hw : (word64 r.1).toInt = r.1 := sint_word64 (by omega) (by omega)
    refine ⟨word64 r.1, r.2, hw.trans hvalue, by omega, by rwa [hw], ?_, hexec⟩
    rw [hw]
    omega
  · rw [exec_shupc_of_accepted (by omega), hz, shiftUpToDigitsCapped_zero]
    rfl
  · exact execShupc_next.2 (.inr ⟨shupc_refused_iff.2 h, (s.fail_eq_errored .range).symm⟩)

end Sys2Proof.Machine
end

section
/-! PROOFS, 41_word_codec.md. The layout of the decimal word: the integer that an encoded pair spells, the round
trip and the invalid words (41_word_codec.md R150 to R157). -/

namespace Sys2Proof.Machine

open Sys2Proof

/-! ### The signed magnitude -/

theorem signedMagnitude_zero (e : Int) : signedMagnitude 0 e = 0 := by
  rw [signedMagnitude, Int.sign_zero, zero_mul]

theorem natAbs_signedMagnitude {s e : Int} (hs : s ≠ 0) (h : -256 ≤ e) :
    ((signedMagnitude s e).natAbs : Int) = s.natAbs * 512 + (e + 256) := by
  rw [signedMagnitude, magnitudeWord, Int.natAbs_mul, Int.natAbs_sign_of_ne_zero hs, one_mul]
  omega

/-- The biased exponent is never negative, so it does not disturb the sign (41_word_codec.md R154). -/
theorem sign_signedMagnitude {s e : Int} (h : -256 ≤ e) : (signedMagnitude s e).sign = s.sign := by
  by_cases hs : s = 0
  · rw [hs, signedMagnitude_zero]
  · have hpos : 0 < magnitudeWord s e := by
      rw [magnitudeWord]
      omega
    rw [signedMagnitude, Int.sign_mul, Int.sign_sign, Int.sign_eq_one_of_pos hpos, mul_one]

/-- The integer of an encoded word (41_word_codec.md R150): the magnitude words all fit 63 bits. -/
theorem sint_of_encode {s e : Int} {w : Word} (h : encodeDecimal s e = .ok w) :
    sint w = signedMagnitude s e := by
  obtain ⟨⟨hs, h1, h2⟩, rfl⟩ := encodeDecimal_ok_iff.1 h
  by_cases h0 : s = 0
  · rw [h0, signedMagnitude_zero]
    rfl
  · have hm := natAbs_signedMagnitude h0 h1
    exact sint_word64 (by omega) (by omega)

/-! ### The round trip -/

/-- Every zero encodes to the word 0 (41_word_codec.md R151). -/
theorem word_eq_zero_of_encode_zero {e : Int} {w : Word} (h : encodeDecimal 0 e = .ok w) : w = 0 := by
  have hsint := sint_of_encode h
  rwa [signedMagnitude_zero, sint_eq_zero_iff] at hsint

/-- `decode` undoes `encode`: MAG and EB of the magnitude are the parts of the pair
(41_word_codec.md R156). -/
theorem decode_of_encode {s e : Int} {w : Word} (h0 : s ≠ 0) (h : encodeDecimal s e = .ok w) :
    decodeDecimal w = some ⟨s, e⟩ := by
  obtain ⟨⟨hs, h1, h2⟩, -⟩ := encodeDecimal_ok_iff.1 h
  have hm := natAbs_signedMagnitude h0 h1
  have hmag : (signedMagnitude s e).natAbs / 512 = s.natAbs := by omega
  have heb : (((signedMagnitude s e).natAbs % 512 : Nat) : Int) - 256 = e := by omega
  rw [decodeDecimal_some_iff, sint_of_encode h, sign_signedMagnitude h1, hmag, heb, Int.sign_mul_natAbs]
  exact .inr ⟨by omega, by omega, rfl⟩

/-- MAG and EB together are the whole magnitude (41_word_codec.md R153). -/
theorem signedMagnitude_fields {x : Int} (h : 512 ≤ x.natAbs) :
    signedMagnitude (x.sign * (x.natAbs / 512 : Nat)) ((x.natAbs % 512 : Nat) - 256) = x := by
  have hsign : x.sign.natAbs = 1 := Int.natAbs_sign_of_ne_zero (by omega)
  have hpos : (0 : Int) < (x.natAbs / 512 : Nat) := by omega
  have hfields : ((x.natAbs / 512 : Nat) : Int) * 512 + ((x.natAbs % 512 : Nat) - 256 + 256) = x.natAbs := by
    omega
  rw [signedMagnitude, magnitudeWord, Int.natAbs_mul, hsign, one_mul, Int.natAbs_natCast, hfields,
    Int.sign_mul, Int.sign_sign, Int.sign_eq_one_of_pos hpos, mul_one, Int.sign_mul_natAbs]

/-- `encode` undoes `decode` (41_word_codec.md R156). -/
theorem encode_of_decode {w : Word} {a : Decimal} (h : decodeDecimal w = some a) :
    encodeDecimal a.sig a.exp = .ok w := by
  refine encodeDecimal_ok_iff.2 ⟨inRange_of_decode h, ?_⟩
  rcases decodeDecimal_some_iff.1 h with ⟨rfl, rfl⟩ | ⟨h1, -, rfl⟩
  · rfl
  · rw [signedMagnitude_fields h1, word64_sint]

/-- Settles O33, by the two directions of the round trip. -/
theorem wordRoundTrip : Obligations.WordRoundTrip := by
  refine ⟨fun a ⟨hs, h1, h2⟩ => ?_, fun w a h => ⟨inRange_of_decode h, encode_of_decode h⟩⟩
  have henc := encodeDecimal_of_inRange hs h1 h2
  refine ⟨_, henc, ?_⟩
  split
  · next h0 =>
    rw [h0] at henc ⊢
    rw [word_eq_zero_of_encode_zero henc]
    rfl
  · next h0 => exact decode_of_encode h0 henc

/-! ### The invalid words -/

/-- Only the word 0 decodes to a zero significand, and to the exponent 0 (41_word_codec.md R151). -/
theorem eq_zero_of_decode_sig_zero {w : Word} {a : Decimal} (h : decodeDecimal w = some a)
    (h0 : a.sig = 0) : w = 0 ∧ a = ⟨0, 0⟩ := by
  have henc := encode_of_decode h
  rw [h0] at henc
  obtain rfl := word_eq_zero_of_encode_zero henc
  exact ⟨rfl, (Option.some.inj h).symm⟩

/-- The classes of 41_word_codec.md R157; the third contains the first. -/
theorem canonical_false_iff_classes {w : Word} :
    canonical w = false ↔
      w = 0x8000000000000000 ∨ (0 < w.toInt.natAbs ∧ w.toInt.natAbs < 512) ∨
        10 ^ 16 * 512 ≤ w.toInt.natAbs := by
  have hmin : w = 0x8000000000000000 → 10 ^ 16 * 512 ≤ w.toInt.natAbs := by
    rintro rfl
    decide
  rw [or_iff_right_of_imp fun h => Or.inr (hmin h), ← Bool.not_eq_true, canonical_iff,
    ← sint_eq_zero_iff, sint]
  omega

/-- Settles O32: a canonical word encodes the pair that it decodes to, and no other nonzero one. -/
theorem invalidWordsAreThreeClasses : Obligations.InvalidWordsAreThreeClasses := by
  refine ⟨fun _ => canonical_false_iff_classes, fun w hcan hw => ?_⟩
  obtain ⟨a, ha⟩ := Option.isSome_iff_exists.1 hcan
  refine ⟨a, ⟨fun h0 => hw (eq_zero_of_decode_sig_zero ha h0).1, encode_of_decode ha⟩, ?_⟩
  rintro b ⟨hb, henc⟩
  exact Option.some.inj ((decode_of_encode hb henc).symm.trans ha)

/-! ### The sign of a word -/

/-- Bit 63 is the sign of the word as an integer (41_word_codec.md R154). -/
theorem signBit_iff {w : Word} : signBit w = true ↔ w.toInt < 0 := by
  rw [signBit, ← decide_eq_true_iff (p := w.toInt < 0), ← BitVec.msb_eq_toInt, BitVec.msb_eq_getLsbD_last]

/-- Settles O34: the word is the signed magnitude, whose sign and size are known. -/
theorem wordSignIsSignificandSign : Obligations.WordSignIsSignificandSign := by
  intro a w h0 henc
  have hsint := sint_of_encode henc
  obtain ⟨⟨-, h1, -⟩, -⟩ := encodeDecimal_ok_iff.1 henc
  have hm := natAbs_signedMagnitude h0 h1
  have hsign := sign_signedMagnitude (s := a.sig) h1
  rw [← hsint, sint] at hm hsign
  refine ⟨hsign, by omega, signBit_iff.trans ?_⟩
  rw [← Int.sign_eq_neg_one_iff_neg, hsign, Int.sign_eq_neg_one_iff_neg]

end Sys2Proof.Machine
end

section
/-! PROOFS, 41_word_codec.md. The commands ENC, SIG, EXP, SGN and NORM (41_word_codec.md R158 to R163). -/

namespace Sys2Proof.Machine

open Sys2Proof

/-- Settles O28: ENC is `encode` of DATA and the immediate, which answers the signed magnitude or E_RANGE. -/
theorem encResult : Obligations.EncResult := by
  refine fun s rd e => ⟨fun hs h1 h2 => ?_, fun h => ?_⟩
  · have henc := encodeDecimal_of_inRange (s := s.integer) hs h1 h2
    exact ⟨_, sint_of_encode henc, execEnc_next.2 (.inl ⟨_, henc, rfl⟩)⟩
  · have hrange : ¬(s.integer.natAbs < 10 ^ 16 ∧ -256 ≤ e ∧ e ≤ 255) := by
      simp only [State.integer, sint]
      omega
    have herr := encodeDecimal_error_iff.2 ⟨hrange, rfl⟩
    exact execEnc_next.2 (.inr ⟨_, herr, (s.fail_eq_errored .range).symm⟩)

/-- Settles O29: both parts of a decoded pair fit a word. -/
theorem accessorsReadThePair : Obligations.AccessorsReadThePair := by
  refine fun s ra => ⟨fun a ha => ?_, fun hinv => ?_⟩
  · obtain ⟨hs, h1, h2⟩ := inRange_of_decode ha
    exact ⟨⟨_, sint_word64 (by omega) (by omega), execSig_next.2 (.inl ⟨a, ha, rfl⟩)⟩,
      ⟨_, sint_word64 (by omega) (by omega), execExp_next.2 (.inl ⟨a, ha, rfl⟩)⟩⟩
  · have hnone := canonical_false_iff.1 hinv
    have hfail := (s.fail_eq_errored .operand).symm
    exact ⟨execSig_next.2 (.inr ⟨hnone, hfail⟩), execExp_next.2 (.inr ⟨hnone, hfail⟩)⟩

/-- Settles O30: SGN tests bit 63, which is the sign of the raw word. -/
theorem sgnReadsTheRawSign : Obligations.SgnReadsTheRawSign := by
  intro s ra
  simp only [← signBit_iff]
  rfl

/-! ### NORM -/

/-- NORM's shift stays within 16 digits and above EMIN, and it reaches one of the two limits
(41_word_codec.md R163). -/
theorem normShift_spec {a : Decimal} (ha : a.inRange) (h0 : a.sig ≠ 0) :
    ndigits a.sig.natAbs + normShift a ≤ 16 ∧ -256 ≤ a.exp - normShift a ∧
      (ndigits a.sig.natAbs + normShift a = 16 ∨ a.exp - normShift a = -256) := by
  obtain ⟨hs, h1, -⟩ := ha
  have hdigits : ndigits a.sig.natAbs ≤ 16 := (ndigits_le_iff (Int.natAbs_ne_zero.2 h0)).2 hs
  rw [normShift]
  omega

/-- Digits moved from the exponent into the significand keep the value (41_word_codec.md R163). -/
theorem value_mul_pow_ten (a : Decimal) (k : Nat) :
    (⟨a.sig * 10 ^ k, a.exp - k⟩ : Decimal).value = a.value := by
  simp only [Decimal.value]
  push_cast
  rw [zpow_sub₀ (by norm_num), zpow_natCast]
  field_simp

/-- What NORM writes for a nonzero pair always encodes (41_word_codec.md R163). -/
theorem normCore_of_ne_zero {a : Decimal} (ha : a.inRange) (h0 : a.sig ≠ 0) :
    ∃ (w : Word) (b : Decimal), normCore a = .ok w ∧ decodeDecimal w = some b ∧
      b.value = a.value ∧ b.exp ≤ a.exp ∧ (10 ^ 15 ≤ b.sig.natAbs ∨ b.exp = -256) := by
  have ⟨_, _, hmax⟩ := ha
  obtain ⟨hdigits, hexp, hlimit⟩ := normShift_spec ha h0
  have hne : a.sig * 10 ^ normShift a ≠ 0 := mul_pow_ten_ne_zero h0 _
  have hne' : (a.sig * 10 ^ normShift a).natAbs ≠ 0 := Int.natAbs_ne_zero.2 hne
  rw [← ndigits_natAbs_mul_pow h0] at hdigits hlimit
  have henc := encodeDecimal_of_inRange ((ndigits_le_iff hne').1 hdigits) hexp (by omega)
  exact ⟨_, _, (if_neg h0).trans henc, decode_of_encode hne henc,
    value_mul_pow_ten a _, by simp, hlimit.imp_left fun h => (lt_ndigits_iff hne').1 (by omega)⟩

/-- Settles O31: a zero operand is the pair (0, 0), which NORM keeps. -/
theorem normResult : Obligations.NormResult := by
  refine fun s rd ra => ⟨fun a ha => ?_, fun hinv => ?_⟩
  · by_cases h0 : a.sig = 0
    · obtain ⟨-, rfl⟩ := eq_zero_of_decode_sig_zero ha h0
      exact ⟨0, ⟨0, 0⟩, execNorm_next.2 (.inl ⟨_, ha, .inl ⟨0, rfl, rfl⟩⟩), rfl, rfl, le_rfl,
        fun h => absurd rfl h⟩
    · obtain ⟨w, b, hcore, hdec, hvalue, hexp, hlimit⟩ := normCore_of_ne_zero (inRange_of_decode ha) h0
      exact ⟨w, b, execNorm_next.2 (.inl ⟨a, ha, .inl ⟨w, hcore, rfl⟩⟩), hdec, hvalue, hexp,
        fun _ => hlimit⟩
  · exact execNorm_next.2 (.inr ⟨canonical_false_iff.1 hinv, (s.fail_eq_errored .operand).symm⟩)

end Sys2Proof.Machine
end

section
/-! PROOFS, 42_arith.md. Rounding to 16 digits as a relation between rational numbers (42_arith.md R182 item 3):
the decade of a number, the half-up rounding of its 16 leading digits, and where the rounded number reaches the
overflow bound. -/

namespace Sys2Proof.Machine

open Sys2Proof

theorem zpow_ten_pos (x : Int) : (0 : ℚ) < 10 ^ x := zpow_pos (by norm_num) x

theorem zpow_ten_lt_iff {x y : Int} : (10 : ℚ) ^ x < 10 ^ y ↔ x < y :=
  zpow_lt_zpow_iff_right₀ (by norm_num)

theorem zpow_ten_le_iff {x y : Int} : (10 : ℚ) ^ x ≤ 10 ^ y ↔ x ≤ y :=
  zpow_le_zpow_iff_right₀ (by norm_num)

/-- A power of ten with a part of its exponent written as a natural number. -/
theorem zpow_ten_add_nat (x : Int) (n : Nat) : (10 : ℚ) ^ (x + n) = 10 ^ n * 10 ^ x := by
  rw [zpow_add₀ (by norm_num), zpow_natCast, mul_comm]

theorem ten_mul_zpow_le {x y : Int} (h : x < y) : 10 * (10 : ℚ) ^ x ≤ 10 ^ y := by
  rw [mul_comm, ← zpow_add_one₀ (by norm_num), zpow_ten_le_iff]
  omega

/-! ### The unit of the 16th digit -/

/-- The decade of a number, as 16 digits before the point at one unit of the last. -/
theorem unitInLastDigit_iff {v : ℚ} {x : Int} :
    unitInLastDigit v x ↔ 10 ^ 15 * 10 ^ x ≤ |v| ∧ |v| < 10 ^ 16 * 10 ^ x := by
  rw [unitInLastDigit, ← zpow_ten_add_nat, ← zpow_ten_add_nat]
  rfl

theorem not_unitInLastDigit_zero (x : Int) : ¬unitInLastDigit 0 x := fun h => by
  have := zpow_ten_pos (x + 15)
  rw [unitInLastDigit, abs_zero] at h
  exact absurd h.1 (not_le.2 this)

/-- Of two numbers the one with the larger unit is in the higher decade. -/
theorem unit_le_of_abs_lt {v : ℚ} {x y : Int} (h : unitInLastDigit v x) (hv : |v| < 10 ^ 16 * 10 ^ y) :
    x ≤ y := by
  rw [← zpow_ten_add_nat] at hv
  have := zpow_ten_lt_iff.1 (h.1.trans_lt hv)
  omega

theorem le_unit_of_le_abs {v : ℚ} {x y : Int} (h : unitInLastDigit v x) (hv : 10 ^ 15 * 10 ^ y ≤ |v|) :
    y ≤ x := by
  rw [← zpow_ten_add_nat] at hv
  have := zpow_ten_lt_iff.1 (hv.trans_lt h.2)
  omega

theorem unitInLastDigit_unique {v : ℚ} {x y : Int} (hx : unitInLastDigit v x)
    (hy : unitInLastDigit v y) : x = y :=
  le_antisymm (unit_le_of_abs_lt hx (unitInLastDigit_iff.1 hy).2)
    (unit_le_of_abs_lt hy (unitInLastDigit_iff.1 hx).2)

theorem exists_unitInLastDigit {v : ℚ} (h : v ≠ 0) : ∃ x, unitInLastDigit v x := by
  obtain ⟨n, hlo, hhi⟩ := exists_mem_Ico_zpow (abs_pos.2 h) (y := 10) (by norm_num)
  refine ⟨n - 15, ?_, ?_⟩
  · rwa [show n - 15 + 15 = n by ring]
  · rwa [show n - 15 + 16 = n + 1 by ring]

/-! ### Rounded numbers -/

/-- It is enough to look at the one unit that a number has. -/
theorem roundsTo_of_unit {v c : ℚ} {x : Int} (hx : unitInLastDigit v x) (hmul : ∃ n : Int, c = n * 10 ^ x)
    (hle : |c - v| ≤ 10 ^ x / 2) (htie : |c - v| = 10 ^ x / 2 → |v| < |c|) : roundsTo v c := by
  refine ⟨?_, fun y hy => ?_⟩
  · rintro rfl
    exact absurd hx (not_unitInLastDigit_zero x)
  · rw [unitInLastDigit_unique hy hx]
    exact ⟨hmul, hle, htie⟩

theorem roundsTo_zero : roundsTo 0 0 :=
  ⟨fun _ => rfl, fun x hx => absurd hx (not_unitInLastDigit_zero x)⟩

/-- A number that is a multiple of its unit is its own rounding. -/
theorem roundsTo_self_of_multiple {v : ℚ} (h : ∀ x, unitInLastDigit v x → ∃ n : Int, v = n * 10 ^ x) :
    roundsTo v v := by
  refine ⟨id, fun x hx => ⟨h x hx, ?_, fun htie => ?_⟩⟩ <;> rw [sub_self, abs_zero] at *
  · exact (half_pos (zpow_ten_pos x)).le
  · exact absurd htie (half_pos (zpow_ten_pos x)).ne

/-- A bound by a power of ten that a natural number misses by less than one holds. -/
theorem cast_le_of_lt_add_one {q n : Nat} (h : (10 : ℚ) ^ n < q + 1) : (10 : ℚ) ^ n ≤ q := by
  exact_mod_cast Nat.lt_succ_iff.1 (by exact_mod_cast h)

/-- `q` is the half-up rounding of `y`, which has 16 digits before the point. -/
structure RoundsHalfUp (y : ℚ) (q : Nat) : Prop where
  low : 10 ^ 15 ≤ y
  high : y < 10 ^ 16
  le : 2 * (q : ℚ) ≤ 2 * y + 1
  lt : 2 * y < 2 * (q : ℚ) + 1

theorem RoundsHalfUp.low_le {y : ℚ} {q : Nat} (h : RoundsHalfUp y q) : (10 : ℚ) ^ 15 ≤ q := by
  have hlo := h.low
  have hlt := h.lt
  exact cast_le_of_lt_add_one (by linarith)

/-- Half up on the magnitude, at any exponent and with either sign, is the rounding of R182 item 3. -/
theorem RoundsHalfUp.roundsTo {y : ℚ} {q : Nat} (h : RoundsHalfUp y q) {g : Int} (hg : |(g : ℚ)| = 1)
    (x : Int) : roundsTo (g * (y * 10 ^ x)) (g * (q * 10 ^ x)) := by
  obtain ⟨hlo, hhi, hle, hlt⟩ := h
  have hx := zpow_ten_pos x
  have hv : |(g : ℚ) * (y * 10 ^ x)| = y * 10 ^ x := by
    rw [abs_mul, hg, one_mul, abs_of_nonneg (by positivity)]
  have hc : |(g : ℚ) * (q * 10 ^ x)| = q * 10 ^ x := by
    rw [abs_mul, hg, one_mul, abs_of_nonneg (by positivity)]
  have hd : |(g : ℚ) * (q * 10 ^ x) - g * (y * 10 ^ x)| = |q - y| * 10 ^ x := by
    rw [← mul_sub, ← sub_mul, abs_mul, abs_mul, hg, one_mul, abs_of_pos hx]
  refine roundsTo_of_unit (x := x) (unitInLastDigit_iff.2 ?_) ⟨g * q, by push_cast; ring⟩ ?_ ?_
  · rw [hv]
    exact ⟨by gcongr, by gcongr⟩
  · have hhalf : |(q : ℚ) - y| ≤ 1 / 2 := abs_le.2 ⟨by linarith, by linarith⟩
    rw [hd, div_eq_mul_one_div, mul_comm]
    gcongr
  · intro htie
    rw [hd, div_eq_mul_one_div, mul_comm, mul_right_inj' hx.ne'] at htie
    rw [hv, hc]
    rcases (abs_eq (by norm_num)).1 htie with h | h
    · gcongr
      linarith
    · linarith

theorem overflowBound_eq : overflowBound = (10 ^ 16 - 1 / 2) * (10 : ℚ) ^ (253 : Int) := by
  rw [overflowBound]
  norm_cast

/-- The rounded number is 10^(EMAX_ARITH + 16) or more exactly from the overflow bound on
(42_arith.md R182 item 4): both hold above the decade of the bound, neither holds below it, and in it the rounding
has to carry. -/
theorem RoundsHalfUp.overflow_iff {y : ℚ} {q : Nat} (h : RoundsHalfUp y q) (x : Int) :
    10 ^ 16 * (10 : ℚ) ^ (253 : Int) ≤ q * 10 ^ x ↔ overflowBound ≤ y * 10 ^ x := by
  have hu := zpow_ten_pos 253
  have hx := zpow_ten_pos x
  have hqlo := h.low_le
  obtain ⟨hlo, hhi, hle, hlt⟩ := h
  rw [overflowBound_eq]
  rcases lt_trichotomy x 253 with hlt' | rfl | hgt
  · have hstep := ten_mul_zpow_le hlt'
    exact iff_of_false (not_le.2 (by nlinarith)) (not_le.2 (by nlinarith))
  · rw [mul_le_mul_iff_left₀ hu, mul_le_mul_iff_left₀ hu]
    exact ⟨fun h => by linarith, fun h => cast_le_of_lt_add_one (by linarith)⟩
  · have hstep := ten_mul_zpow_le hgt
    exact iff_of_true (by nlinarith) (by nlinarith)

/-- A 16-digit significand is at an exponent above EMAX_ARITH exactly when its value is
10^(EMAX_ARITH + 16) or more. -/
theorem exp_gt_iff_of_sixteenDigits {q : Int} (hq : sixteenDigits q) (x : Int) :
    253 < x ↔ 10 ^ 16 * (10 : ℚ) ^ (253 : Int) ≤ |(⟨q, x⟩ : Decimal).value| := by
  have hlo : (10 : ℚ) ^ 15 ≤ q.natAbs := by exact_mod_cast hq.1
  have hhi : (q.natAbs : ℚ) < 10 ^ 16 := by exact_mod_cast hq.2
  rw [Decimal.abs_value]
  constructor
  · intro h
    calc (10 : ℚ) ^ 16 * 10 ^ (253 : Int) = 10 ^ 15 * (10 * 10 ^ (253 : Int)) := by ring
      _ ≤ (q.natAbs : ℚ) * 10 ^ x := by gcongr; exact ten_mul_zpow_le h
  · intro h
    have hlt : 10 ^ 16 * (10 : ℚ) ^ (253 : Int) < 10 ^ 16 * 10 ^ x :=
      h.trans_lt (mul_lt_mul_of_pos_right hhi (zpow_ten_pos x))
    exact zpow_ten_lt_iff.1 (lt_of_mul_lt_mul_left hlt (by positivity))

/-- A 16-digit significand overflows exactly from the bound on: it is its own rounding. -/
theorem overflow_iff_of_sixteenDigits {q : Int} (hq : sixteenDigits q) (x : Int) :
    253 < x ↔ overflowBound ≤ |(⟨q, x⟩ : Decimal).value| := by
  have hself : RoundsHalfUp q.natAbs q.natAbs :=
    ⟨by exact_mod_cast hq.1, by exact_mod_cast hq.2, by linarith, by linarith⟩
  rw [exp_gt_iff_of_sixteenDigits hq, Decimal.abs_value, hself.overflow_iff]

end Sys2Proof.Machine
end

section
/-! PROOFS, 42_arith.md. renorm (42_arith.md R180 to R183): the pair that its steps 2 and 3 make, whose exponent
says whether it overflows, and which step 4 truncates. -/

namespace Sys2Proof.Machine

open Sys2Proof

/-! ### Encoding what renorm leaves -/

/-- What an encoded pair decodes to: the pair itself, or (0, 0) for a zero (41_word_codec.md R151, R156). -/
theorem exists_decode_of_encode {s e : Int} {w : Word} (h : encodeDecimal s e = .ok w) :
    ∃ c, decodeDecimal w = some c ∧ c.value = (⟨s, e⟩ : Decimal).value ∧ (c = ⟨0, 0⟩ ∨ c = ⟨s, e⟩) := by
  by_cases h0 : s = 0
  · subst h0
    obtain rfl := word_eq_zero_of_encode_zero h
    exact ⟨⟨0, 0⟩, rfl, by simp [Decimal.value], .inl rfl⟩
  · exact ⟨⟨s, e⟩, decode_of_encode h0 h, rfl, .inr rfl⟩

theorem truncatedAtEmin_of_le {q x : Int} (h : -256 ≤ x) : truncatedAtEmin q x = ⟨q, x⟩ :=
  if_neg (by omega)

theorem truncatedAtEmin_of_lt {q x : Int} (h : x < -256) :
    truncatedAtEmin q x = ⟨Int.tdiv q (10 ^ (-256 - x).toNat), -256⟩ :=
  if_pos h

theorem natAbs_tdiv_le (q d : Int) : (Int.tdiv q d).natAbs ≤ q.natAbs := by
  rw [Int.natAbs_tdiv]
  exact Nat.div_le_self _ _

/-- A truncated pair has a word, at an exponent of at most EMAX_ARITH (42_arith.md R180 step 5). -/
theorem encode_truncatedAtEmin {q x : Int} (hq : q.natAbs < 10 ^ 16) (hx : x ≤ 253) :
    (truncatedAtEmin q x).exp ≤ 253 ∧
      ∃ w, encodeDecimal (truncatedAtEmin q x).sig (truncatedAtEmin q x).exp = .ok w := by
  by_cases h : x < -256
  · rw [truncatedAtEmin_of_lt h]
    exact ⟨by norm_num, _,
      encodeDecimal_of_inRange ((natAbs_tdiv_le _ _).trans_lt hq) le_rfl (by norm_num)⟩
  · rw [truncatedAtEmin_of_le (not_lt.1 h)]
    exact ⟨hx, _, encodeDecimal_of_inRange hq (not_lt.1 h) (by simp only; omega)⟩

/-! ### The steps of renorm -/

/-- The answer of renorm's steps 3 to 5 on a pair of which step 3 keeps or refuses the exponent
(42_arith.md R180). -/
def settle (q x : Int) : Except ErrorCode Word :=
  if 253 < x then .error .overflow
  else encodeDecimal (truncatedAtEmin q x).sig (truncatedAtEmin q x).exp

theorem settle_of_gt {q x : Int} (h : 253 < x) : settle q x = .error .overflow := if_pos h

theorem settle_of_le {q x : Int} (h : x ≤ 253) :
    settle q x = encodeDecimal (truncatedAtEmin q x).sig (truncatedAtEmin q x).exp :=
  if_neg (by omega)

theorem settle_zero_of_le {x : Int} (h : x ≤ 253) : settle 0 x = .ok 0 := by
  obtain ⟨-, w, hw⟩ := encode_truncatedAtEmin (q := 0) (by decide) h
  have hzero : (truncatedAtEmin 0 x).sig = 0 := by
    rw [truncatedAtEmin]
    split
    · simp only [Int.zero_tdiv]
    · rfl
  rw [settle_of_le h, hw]
  rw [hzero] at hw
  rw [word_eq_zero_of_encode_zero hw]

/-- renorm of a pair that step 2 leaves with at most 16 digits at an exponent that step 3 keeps. -/
theorem renorm_of_rounded {s : Int} {e x : Int} {m : Nat} (hs : s ≠ 0) (hr : roundToSixteen s.natAbs e = (m, x))
    (h0 : m ≠ 0) (hm : m < 10 ^ 16) (hx : x ≤ 253) : renorm s e = settle (s.sign * m) x := by
  rw [renorm_of_ne_zero hs, hr, denormalise_of_le hx, settle_of_le hx]
  exact encode_shiftOut x hs h0 hm

/-- renorm of a pair whose exponent step 3 lowers: the significand is shifted up to 16 digits. -/
theorem renorm_of_high {s : Int} {e x : Int} {m : Nat} (hs : s ≠ 0) (hr : roundToSixteen s.natAbs e = (m, x))
    (h0 : m ≠ 0) (hm : m < 10 ^ 16) (hx : 253 < x) :
    renorm s e = settle (s.sign * (m * 10 ^ (16 - ndigits m) : Nat)) (x - (16 - ndigits m : Nat)) := by
  have hdig : ndigits m ≤ 16 := (ndigits_le_iff h0).2 hm
  have h0' : m * 10 ^ (16 - ndigits m) ≠ 0 := by positivity
  have hm' : m * 10 ^ (16 - ndigits m) < 10 ^ 16 := by
    rw [← ndigits_le_iff h0', ndigits_mul_pow h0]
    omega
  rw [renorm_of_ne_zero hs, hr, denormalise_of_gt hx]
  split
  · next hgt => rw [settle_of_gt hgt]; rfl
  · next hle =>
    rw [settle_of_le (not_lt.1 hle)]
    exact encode_shiftOut _ hs h0' hm'

/-- renorm of a significand of at most 16 digits at an exponent of at most EMAX_ARITH. -/
theorem renorm_short {s e : Int} (hs : s.natAbs < 10 ^ 16) (he : e ≤ 253) : renorm s e = settle s e := by
  by_cases h0 : s = 0
  · rw [h0, renorm_zero, settle_zero_of_le he]
  · rw [renorm_of_rounded h0 (roundToSixteen_short e hs) (Int.natAbs_ne_zero.2 h0) hs he,
      Int.sign_mul_natAbs]

/-- renorm of a significand of at most 16 digits at a larger exponent. -/
theorem renorm_short_high {s e : Int} (h0 : s ≠ 0) (hs : s.natAbs < 10 ^ 16) (he : 253 < e) :
    renorm s e = settle (s * 10 ^ (16 - ndigits s.natAbs)) (e - (16 - ndigits s.natAbs : Nat)) := by
  rw [renorm_of_high h0 (roundToSixteen_short e hs) (Int.natAbs_ne_zero.2 h0) hs he]
  push_cast
  rw [← mul_assoc, ← Int.natCast_natAbs, Int.sign_mul_natAbs]

theorem renorm_of_rounded_to_sixteen {s e x : Int} {m : Nat} (hs : s ≠ 0)
    (hr : roundToSixteen s.natAbs e = (m, x)) (h1 : 10 ^ 15 ≤ m) (h2 : m < 10 ^ 16) :
    renorm s e = settle (s.sign * m) x := by
  rcases le_or_gt x 253 with hx | hx
  · exact renorm_of_rounded hs hr (by omega) h2 hx
  · rw [renorm_of_high hs hr (by omega) h2 hx, ndigits_eq h1 h2]
    simp

/-- renorm of a 16-digit significand. -/
theorem renorm_sixteenDigits {q : Int} (hq : sixteenDigits q) (x : Int) : renorm q x = settle q x := by
  have h0 : q ≠ 0 := by
    rintro rfl
    exact absurd hq.1 (by decide)
  rw [renorm_of_rounded_to_sixteen h0 (roundToSixteen_short x hq.2) hq.1 hq.2, Int.sign_mul_natAbs]

/-! ### The pair that is settled -/

/-- `(q, x)` is the pair that steps 2 and 3 of renorm make of `(s, e)`: the value rounded to 16 digits, with an
exponent above EMAX_ARITH exactly when the value overflows (42_arith.md R180, R182). -/
structure RenormPair (s e q x : Int) : Prop where
  renorm_eq : renorm s e = settle q x
  natAbs_lt : q.natAbs < 10 ^ 16
  rounds : roundsTo (⟨s, e⟩ : Decimal).value (⟨q, x⟩ : Decimal).value
  value_eq : s.natAbs < 10 ^ 16 → (⟨q, x⟩ : Decimal).value = (⟨s, e⟩ : Decimal).value
  sixteen : 10 ^ 16 ≤ s.natAbs → sixteenDigits q
  exp_ge : -256 ≤ e → -256 ≤ x
  overflow_iff : 253 < x ↔ overflowBound ≤ |(⟨s, e⟩ : Decimal).value|

/-- A value with at most 16 digits is its own rounding (42_arith.md R182 item 3). -/
theorem roundsTo_self_of_short {s : Int} (e : Int) (hs : s.natAbs < 10 ^ 16) :
    roundsTo (⟨s, e⟩ : Decimal).value (⟨s, e⟩ : Decimal).value := by
  have hs' : (s.natAbs : ℚ) < 10 ^ 16 := by exact_mod_cast hs
  refine roundsTo_self_of_multiple fun x hx => ?_
  have hle : x ≤ e := unit_le_of_abs_lt hx (by
    rw [Decimal.abs_value]
    exact mul_lt_mul_of_pos_right hs' (zpow_ten_pos e))
  obtain ⟨k, rfl⟩ := Int.exists_add_of_le hle
  exact ⟨s * 10 ^ k, by rw [Decimal.value, zpow_ten_add_nat]; push_cast; ring⟩

/-- A value with at most 16 digits and an exponent of at most EMAX_ARITH does not overflow. -/
theorem abs_value_lt_bound_of_short {s e : Int} (hs : s.natAbs < 10 ^ 16) (he : e ≤ 253) :
    |(⟨s, e⟩ : Decimal).value| < overflowBound := by
  have hs' : (s.natAbs : ℚ) + 1 ≤ 10 ^ 16 := by exact_mod_cast hs
  have hpos := zpow_ten_pos 253
  rw [Decimal.abs_value, overflowBound_eq]
  calc (s.natAbs : ℚ) * 10 ^ e ≤ s.natAbs * 10 ^ (253 : Int) := by gcongr; norm_num
    _ < (10 ^ 16 - 1 / 2) * 10 ^ (253 : Int) := by
      gcongr
      linarith

theorem renormPair_short {s e : Int} (hs : s.natAbs < 10 ^ 16) (he : e ≤ 253) : RenormPair s e s e where
  renorm_eq := renorm_short hs he
  natAbs_lt := hs
  rounds := roundsTo_self_of_short e hs
  value_eq _ := rfl
  sixteen h := absurd hs (not_lt.2 h)
  exp_ge := id
  overflow_iff := iff_of_false (not_lt.2 he) (not_le.2 (abs_value_lt_bound_of_short hs he))

theorem renormPair_zero (e : Int) : RenormPair 0 e 0 0 := by
  have hv (x : Int) : (⟨0, x⟩ : Decimal).value = 0 := by simp [Decimal.value]
  refine ⟨?_, by decide, ?_, fun _ => ?_, fun h => absurd h (by decide), fun _ => by decide, ?_⟩
  · rw [renorm_zero, settle_zero_of_le (by decide)]
  · rw [hv, hv]
    exact roundsTo_zero
  · rw [hv, hv]
  · rw [hv, abs_zero, overflowBound]
    norm_num

theorem renormPair_short_high {s e : Int} (h0 : s ≠ 0) (hs : s.natAbs < 10 ^ 16) (he : 253 < e) :
    RenormPair s e (s * 10 ^ (16 - ndigits s.natAbs)) (e - (16 - ndigits s.natAbs : Nat)) := by
  have hv := value_mul_pow_ten ⟨s, e⟩ (16 - ndigits s.natAbs)
  have hq : sixteenDigits (s * 10 ^ (16 - ndigits s.natAbs)) := shiftUpToDigits_bounds h0 hs
  refine ⟨renorm_short_high h0 hs he, hq.2, ?_, fun _ => hv, fun _ => hq, fun _ => by omega, ?_⟩
  · have hself := roundsTo_self_of_short e hs
    rwa [← hv] at hself ⊢
  · rw [overflow_iff_of_sixteenDigits hq, hv]

/-- renorm step 2 on more than 16 digits, as a rounding half up of the leading 16 digits
(42_arith.md R180): a carry into the next decade keeps the value. -/
theorem roundToSixteen_roundsHalfUp {m : Nat} (e : Int) (h : 10 ^ 16 ≤ m) :
    ∃ (u : Int) (y : ℚ) (q : Nat), RoundsHalfUp y q ∧ (m : ℚ) * 10 ^ e = y * 10 ^ u ∧
      ((roundToSixteen m e).1 : ℚ) * 10 ^ (roundToSixteen m e).2 = q * 10 ^ u := by
  obtain ⟨p, k, hlo, hhi, hexp, hk, -, -, -, hle, hlt⟩ := roundToSixteen_long e h
  obtain ⟨j, rfl⟩ : ∃ j, k = p + j := ⟨k - p, by omega⟩
  have hp : (0 : ℚ) < 10 ^ p := by positivity
  have hpow : 2 * ((roundToSixteen m e).1 * 10 ^ (p + j)) = 2 * ((roundToSixteen m e).1 * 10 ^ j) * 10 ^ p := by
    ring
  rw [hpow] at hle hlt
  refine ⟨e + p, m / 10 ^ p, (roundToSixteen m e).1 * 10 ^ j, ⟨?_, ?_, ?_, ?_⟩, ?_, ?_⟩
  · rw [le_div_iff₀ hp, ← pow_add, add_comm]
    exact_mod_cast hlo
  · rw [div_lt_iff₀ hp, ← pow_add, add_comm]
    exact_mod_cast hhi
  · rw [← mul_div_assoc, div_add_one hp.ne', le_div_iff₀ hp]
    exact_mod_cast hle
  · rw [← mul_div_assoc, div_lt_iff₀ hp, add_mul, one_mul]
    exact_mod_cast hlt
  · rw [zpow_ten_add_nat]
    field_simp
  · rw [hexp, zpow_ten_add_nat, zpow_ten_add_nat]
    push_cast
    ring

theorem renormPair_long {s : Int} (e : Int) (hs : 10 ^ 16 ≤ s.natAbs) :
    RenormPair s e (s.sign * (roundToSixteen s.natAbs e).1) (roundToSixteen s.natAbs e).2 := by
  have h0 : s ≠ 0 := by
    rintro rfl
    exact absurd hs (by decide)
  obtain ⟨p, k, -, -, hexp, -, -, hlo, hhi, -, -⟩ := roundToSixteen_long e hs
  obtain ⟨u, y, q, hround, hv, hc⟩ := roundToSixteen_roundsHalfUp e hs
  have hsign : s.sign.natAbs = 1 := Int.natAbs_sign_of_ne_zero h0
  have hsignQ : |(s.sign : ℚ)| = 1 := by
    rw [← Int.cast_abs, Int.abs_eq_natAbs, hsign]
    norm_num
  have habs : (s.sign * ((roundToSixteen s.natAbs e).1 : Int)).natAbs = (roundToSixteen s.natAbs e).1 := by
    rw [Int.natAbs_mul, hsign, one_mul, Int.natAbs_natCast]
  have hq : sixteenDigits (s.sign * (roundToSixteen s.natAbs e).1) := by
    rw [sixteenDigits, habs]
    exact ⟨hlo, hhi⟩
  have hvs : (⟨s, e⟩ : Decimal).value = s.sign * (y * 10 ^ u) := by
    rw [← hv, ← Decimal.sign_mul_abs_value, Decimal.abs_value]
  refine ⟨renorm_of_rounded_to_sixteen h0 rfl hlo hhi, hq.2, ?_, fun h => absurd hs (not_le.2 h), fun _ => hq,
    fun _ => by omega, ?_⟩
  · have hcs : (⟨s.sign * (roundToSixteen s.natAbs e).1, (roundToSixteen s.natAbs e).2⟩ : Decimal).value =
        s.sign * (q * 10 ^ u) := by
      rw [← hc, Decimal.value]
      push_cast
      ring
    rw [hvs, hcs]
    exact hround.roundsTo hsignQ u
  · rw [exp_gt_iff_of_sixteenDigits hq, Decimal.abs_value, Decimal.abs_value, habs, hc, hv,
      hround.overflow_iff]

/-- Every pair has the one that renorm settles: by its digits and its exponent. -/
theorem exists_renormPair (s e : Int) : ∃ q x, RenormPair s e q x := by
  rcases le_or_gt (10 ^ 16) s.natAbs with hs | hs
  · exact ⟨_, _, renormPair_long e hs⟩
  · rcases le_or_gt e 253 with he | he
    · exact ⟨s, e, renormPair_short hs he⟩
    · by_cases h0 : s = 0
      · exact ⟨0, 0, h0 ▸ renormPair_zero e⟩
      · exact ⟨_, _, renormPair_short_high h0 hs he⟩

namespace RenormPair

variable {s e q x : Int} (h : RenormPair s e q x)

include h

theorem renorm_error (hover : overflowBound ≤ |(⟨s, e⟩ : Decimal).value|) : renorm s e = .error .overflow := by
  rw [h.renorm_eq, settle_of_gt (h.overflow_iff.2 hover)]

/-- Below the bound the pair is truncated at EMIN and encoded (42_arith.md R180 steps 4 and 5). -/
theorem renorm_ok (hlt : |(⟨s, e⟩ : Decimal).value| < overflowBound) :
    ∃ w, renorm s e = .ok w ∧
      encodeDecimal (truncatedAtEmin q x).sig (truncatedAtEmin q x).exp = .ok w := by
  have hx : x ≤ 253 := not_lt.1 (h.overflow_iff.not.2 (not_le.2 hlt))
  obtain ⟨-, w, hw⟩ := encode_truncatedAtEmin h.natAbs_lt hx
  exact ⟨w, by rw [h.renorm_eq, settle_of_le hx, hw], hw⟩

/-- A word that renorm answers for an exponent of EMIN or more has the value of the pair. -/
theorem exists_decode (he : -256 ≤ e) {w : Word}
    (hw : encodeDecimal (truncatedAtEmin q x).sig (truncatedAtEmin q x).exp = .ok w) :
    ∃ c, decodeDecimal w = some c ∧ c.value = (⟨q, x⟩ : Decimal).value := by
  rw [truncatedAtEmin_of_le (h.exp_ge he)] at hw
  obtain ⟨c, hc, hv, -⟩ := exists_decode_of_encode hw
  exact ⟨c, hc, hv⟩

end RenormPair

/-- renorm below the overflow bound at an exponent of EMIN or more: a word of the rounded value. -/
theorem exists_renorm_rounds {s e : Int} (he : -256 ≤ e) (hlt : |(⟨s, e⟩ : Decimal).value| < overflowBound) :
    ∃ (w : Word) (b : Decimal), renorm s e = .ok w ∧ decodeDecimal w = some b ∧
      roundsTo (⟨s, e⟩ : Decimal).value b.value ∧
      (s.natAbs < 10 ^ 16 → b.value = (⟨s, e⟩ : Decimal).value) := by
  obtain ⟨q, x, h⟩ := exists_renormPair s e
  obtain ⟨w, hw, henc⟩ := h.renorm_ok hlt
  obtain ⟨b, hb, hv⟩ := h.exists_decode he henc
  refine ⟨w, b, hw, hb, ?_, ?_⟩ <;> rw [hv]
  · exact h.rounds
  · exact h.value_eq

/-- Settles O36, with the pair that renorm settles. -/
theorem renormRoundsHalfAwayFromZero : Obligations.RenormRoundsHalfAwayFromZero :=
  fun _ _ => exists_renorm_rounds

theorem renorm_error_of_bound_le {a : Decimal} (h : overflowBound ≤ |a.value|) :
    renorm a.sig a.exp = .error .overflow :=
  let ⟨_, _, hp⟩ := exists_renormPair a.sig a.exp
  hp.renorm_error h

theorem exists_renorm_ok {a : Decimal} (h : |a.value| < overflowBound) :
    ∃ w, renorm a.sig a.exp = .ok w :=
  let ⟨_, _, hp⟩ := exists_renormPair a.sig a.exp
  let ⟨w, hw, _⟩ := hp.renorm_ok h
  ⟨w, hw⟩

/-- Settles O38: below the bound renorm answers a word. -/
theorem renormOverflowsExactlyAtTheBound : Obligations.RenormOverflowsExactlyAtTheBound := by
  refine fun s e => ⟨fun herr => ?_, renorm_error_of_bound_le (a := ⟨s, e⟩)⟩
  by_contra hlt
  obtain ⟨w, hw⟩ := exists_renorm_ok (not_le.1 hlt)
  exact absurd (herr.symm.trans hw) nofun

/-- Settles O37: a short pair is settled as it is, a long one as the pair that step 2 leaves. -/
theorem renormUnderflowTruncates : Obligations.RenormUnderflowTruncates := by
  refine fun s e => ⟨fun hs he => ?_, fun hs => ?_⟩
  · rw [renorm_short hs (by omega), settle_of_le (by omega), truncatedAtEmin_of_lt he]
  · have h := renormPair_long e hs
    exact ⟨_, _, h.sixteen hs, h.rounds, h.renorm_eq⟩

theorem renorm_inRange {s e : Int} (hs : s.natAbs < 10 ^ 16) (h1 : -256 ≤ e) (h2 : e ≤ 253) :
    renorm s e = encodeDecimal s e := by
  rw [renorm_short hs h2, settle_of_le h2, truncatedAtEmin_of_le h1]

/-- renorm answers E_OVERFLOW, or a word with an exponent of at most EMAX_ARITH
(42_arith.md R182 items 1 and 2). -/
theorem renorm_cases (s e : Int) : renorm s e = .error .overflow ∨
    ∃ w b, renorm s e = .ok w ∧ decodeDecimal w = some b ∧ b.exp ≤ 253 := by
  obtain ⟨q, x, h⟩ := exists_renormPair s e
  rcases le_or_gt x 253 with hx | hx
  · obtain ⟨hexp, w, hw⟩ := encode_truncatedAtEmin h.natAbs_lt hx
    obtain ⟨b, hb, -, hor⟩ := exists_decode_of_encode hw
    refine .inr ⟨w, b, by rw [h.renorm_eq, settle_of_le hx, hw], hb, ?_⟩
    rcases hor with rfl | rfl
    · decide
    · exact hexp
  · exact .inl (by rw [h.renorm_eq, settle_of_gt hx])

/-- Settles O35, by the two answers that renorm has. -/
theorem renormStaysInRange : Obligations.RenormStaysInRange := by
  intro s e
  refine ⟨fun w hw => ?_, fun c hc => ?_, renorm_inRange⟩
  · rcases renorm_cases s e with h | ⟨w', b, h, hb, hexp⟩ <;> rw [h] at hw <;> cases hw
    exact ⟨b, hb, hexp⟩
  · rcases renorm_cases s e with h | ⟨w', b, h, -, -⟩ <;> rw [h] at hc <;> cases hc
    rfl

end Sys2Proof.Machine
end

section
/-! PROOFS, 42_arith.md. MUL, NEG, SHL and SHR (42_arith.md R189, R190, R196, R198, R199): one renorm of the exact
result, or the negated word. -/

namespace Sys2Proof.Machine

open Sys2Proof

variable {s : State} {rd ra rb : Fin 8} {a b : Decimal}

/-! ### A command that writes one word -/

/-- The completion of a command that writes the word of `r` to one decimal register. -/
def State.completeWord (s : State) (rd : Fin 8) (r : Except ErrorCode Word) :
    Host.Outcome State Fault Refusal :=
  s.complete (r >>= fun w => pure (s.writeD rd w))

@[simp] theorem State.completeWord_ok (s : State) (rd : Fin 8) (w : Word) :
    s.completeWord rd (.ok w) = .next (s.writeD rd w).completed := rfl

@[simp] theorem State.completeWord_error (s : State) (rd : Fin 8) (c : ErrorCode) :
    s.completeWord rd (.error c) = .next (s.errored c.code) :=
  complete_error_eq_errored s c

/-- A rule that decodes one canonical register. -/
theorem complete_decimal_of_holds (ha : s.holds ra a) (f : Decimal → Except ErrorCode State) :
    s.complete (s.decimal ra >>= f) = s.complete (f a) := by
  rw [State.decimal_ok_iff.2 ha, except_ok_bind]

/-- A rule that decodes two canonical registers. -/
theorem complete_decimals_of_holds (ha : s.holds ra a) (hb : s.holds rb b)
    (f : Decimal → Decimal → Except ErrorCode State) :
    s.complete (s.decimal ra >>= fun a => s.decimal rb >>= f a) = s.complete (f a b) := by
  rw [complete_decimal_of_holds ha, complete_decimal_of_holds hb]

theorem exec_add_of_holds (ha : s.holds ra a) (hb : s.holds rb b) :
    exec (.add rd ra rb) s = s.completeWord rd (addCore a b) :=
  complete_decimals_of_holds ha hb _

theorem exec_sub_of_holds (ha : s.holds ra a) (hb : s.holds rb b) :
    exec (.sub rd ra rb) s = s.completeWord rd (addCore a b.negated) :=
  complete_decimals_of_holds ha hb _

theorem exec_mul_of_holds (ha : s.holds ra a) (hb : s.holds rb b) :
    exec (.mul rd ra rb) s = s.completeWord rd (mulCore a b) :=
  complete_decimals_of_holds ha hb _

theorem exec_div_of_holds (ha : s.holds ra a) (hb : s.holds rb b) :
    exec (.div rd ra rb) s = s.completeWord rd (divCore a b) :=
  complete_decimals_of_holds ha hb _

/-- SHL by `k`, and SHR by `-k` (42_arith.md R198, R199). -/
theorem exec_shift_of_holds {i : Instr} {n k : Int} (ha : s.holds ra a)
    (hi : (i = .shl rd ra n ∧ k = n) ∨ (i = .shr rd ra n ∧ k = -n)) :
    exec i s = s.completeWord rd (shiftCore a k) := by
  rcases hi with ⟨rfl, rfl⟩ | ⟨rfl, rfl⟩
  · exact complete_decimal_of_holds ha _
  · exact complete_decimal_of_holds ha _

/-! ### MUL -/

/-- renorm takes zero to zero, so the core's zero case is no exception (42_arith.md R189). -/
theorem mulCore_eq_renorm (a b : Decimal) : mulCore a b = renorm (a.sig * b.sig) (a.exp + b.exp) := by
  by_cases h : a.sig = 0 ∨ b.sig = 0
  · rw [mulCore_of_zero h, mul_eq_zero.2 h, renorm_zero]
  · obtain ⟨ha, hb⟩ := not_or.1 h
    exact mulCore_of_ne_zero ha hb

/-- The exact product (42_arith.md R189). -/
theorem value_mul (a b : Decimal) :
    (⟨a.sig * b.sig, a.exp + b.exp⟩ : Decimal).value = a.value * b.value := by
  simp only [Decimal.value]
  rw [zpow_add₀ (by norm_num)]
  push_cast
  ring

/-- Settles O43: the core is one renorm of the exact product. -/
theorem mulResult : Obligations.MulResult := by
  intro s rd ra rb a b ha hb
  rw [exec_mul_of_holds ha hb, mulCore_eq_renorm, ← value_mul]
  obtain ⟨q, x, hp⟩ := exists_renormPair (a.sig * b.sig) (a.exp + b.exp)
  refine ⟨fun hlt => ?_, fun hover => ?_⟩
  · obtain ⟨w, hw, henc⟩ := hp.renorm_ok hlt
    refine ⟨w, q, x, hw, by rw [hw, State.completeWord_ok], hp.rounds, henc, fun he => ?_⟩
    obtain ⟨c, hc, hv⟩ := hp.exists_decode he henc
    exact ⟨c, hc, hv ▸ hp.rounds⟩
  · rw [hp.renorm_error hover, State.completeWord_error]
    rfl

/-! ### SHL and SHR -/

theorem shiftCore_eq_renorm (a : Decimal) (k : Int) : shiftCore a k = renorm a.sig (a.exp + k) := by
  by_cases h : a.sig = 0
  · rw [shiftCore_of_zero h, h, renorm_zero]
  · exact shiftCore_of_ne_zero h k

/-- The exact product by a power of ten (42_arith.md R198). -/
theorem value_shift (a : Decimal) (k : Int) :
    (⟨a.sig, a.exp + k⟩ : Decimal).value = a.value * 10 ^ k := by
  rw [Decimal.value, zpow_add₀ (by norm_num), ← mul_assoc, Decimal.value]

/-- Settles O47: an operand has at most 16 digits, so renorm keeps its value or truncates it. -/
theorem digitShiftsScaleByPowersOfTen : Obligations.DigitShiftsScaleByPowersOfTen := by
  intro s rd ra n k i a ha hi
  have hs : a.sig.natAbs < 10 ^ 16 := (inRange_of_decode ha).1
  rw [exec_shift_of_holds ha hi, shiftCore_eq_renorm, ← value_shift]
  obtain ⟨q, x, hp⟩ := exists_renormPair a.sig (a.exp + k)
  refine ⟨fun h0 => ?_, fun hlt => ?_, fun hover => ?_⟩
  · rw [h0, renorm_zero, State.completeWord_ok]
  · obtain ⟨w, hw, henc⟩ := hp.renorm_ok hlt
    refine ⟨w, hw, by rw [hw, State.completeWord_ok], fun he => ?_, fun he => ?_⟩
    · obtain ⟨c, hc, hv⟩ := hp.exists_decode he henc
      exact ⟨c, hc, hv.trans (hp.value_eq hs)⟩
    · rw [← (renormUnderflowTruncates a.sig (a.exp + k)).1 hs he, hw]
  · rw [hp.renorm_error hover, State.completeWord_error]
    rfl

/-! ### NEG -/

theorem signedMagnitude_neg (s e : Int) : signedMagnitude (-s) e = -signedMagnitude s e := by
  rw [signedMagnitude, signedMagnitude, magnitudeWord, magnitudeWord, Int.natAbs_neg, Int.sign_neg, Int.neg_mul]

/-- The negated word is that of the negated significand at the same exponent (41_word_codec.md R155). -/
theorem encode_negated {w : Word} (h : decodeDecimal w = some a) :
    encodeDecimal (-a.sig) a.exp = .ok (word64 (-sint w)) := by
  rw [encodeDecimal_ok_iff, Int.natAbs_neg, signedMagnitude_neg, sint_of_encode (encode_of_decode h)]
  exact ⟨inRange_of_decode h, rfl⟩

theorem decode_negated {w : Word} (h : decodeDecimal w = some a) :
    decodeDecimal (word64 (-sint w)) = some ⟨-a.sig, a.exp⟩ := by
  by_cases h0 : a.sig = 0
  · obtain ⟨rfl, rfl⟩ := eq_zero_of_decode_sig_zero h h0
    rfl
  · exact decode_of_encode (neg_ne_zero.2 h0) (encode_negated h)

theorem toInt_negated {w : Word} (h : decodeDecimal w = some a) : (word64 (-sint w)).toInt = -w.toInt := by
  have hsint := sint_of_encode (encode_negated h)
  rwa [signedMagnitude_neg, ← sint_of_encode (encode_of_decode h)] at hsint

/-- Settles O46: a word and its negation are those of a significand and its negation. -/
theorem negResult : Obligations.NegResult := by
  refine fun s rd ra => ⟨fun a ha => ?_, fun hinv => ?_⟩
  · exact ⟨_, toInt_negated ha, decode_negated ha, execNeg_next.2 (.inl ⟨a, ha, rfl⟩)⟩
  · exact execNeg_next.2 (.inr ⟨canonical_false_iff.1 hinv, (s.fail_eq_errored .operand).symm⟩)

end Sys2Proof.Machine
end

section
/-! PROOFS, 42_arith.md. DIV (42_arith.md R192, R193): the shift and the 16-digit quotient of two magnitudes, and
the division of two nonzero pairs as the settling of that quotient. -/

namespace Sys2Proof.Machine

open Sys2Proof

/-! ### The quotient of two magnitudes -/

section
variable {A B : Nat}

/-- The search finds its shift: 31 digits are enough for any two magnitudes (42_arith.md R192). -/
theorem divShift_spec (hA : 1 ≤ A) (hB : B < 10 ^ 16) :
    divShift A B ≤ 31 ∧ 10 ^ 15 * B ≤ A * 10 ^ divShift A B ∧
      ∀ t < divShift A B, A * 10 ^ t < 10 ^ 15 * B := by
  obtain ⟨-, hle, hmin, hend⟩ := divShiftFrom_spec 31 0 A B
  refine ⟨hle, ?_, fun t => hmin t (Nat.zero_le t)⟩
  rcases hend with hend | hend
  · rw [divShift, hend]
    omega
  · exact hend

/-- The quotient at the shift found is below the next decade: one digit less was not enough. -/
theorem mul_divShift_lt (hA : 1 ≤ A) (hA' : A < 10 ^ 16) (hB : 1 ≤ B) (hB' : B < 10 ^ 16) :
    A * 10 ^ divShift A B < 10 ^ 16 * B := by
  obtain ⟨-, -, hmin⟩ := divShift_spec hA hB'
  cases ht : divShift A B with
  | zero => omega
  | succ t =>
    have := hmin t (by omega)
    rw [pow_succ, ← mul_assoc]
    omega

/-- The quotient is not within half a unit of the next decade, so rounding it never carries
(42_arith.md R192): it is a fraction with the divisor `B`, which has too few digits for that. -/
theorem two_mul_mul_divShift_add_lt (hA : 1 ≤ A) (hA' : A < 10 ^ 16) (hB : 1 ≤ B) (hB' : B < 10 ^ 16) :
    2 * (A * 10 ^ divShift A B) + B < 2 * (10 ^ 16 * B) := by
  have hlt := mul_divShift_lt hA hA' hB hB'
  generalize divShift A B = t at hlt ⊢
  rcases Nat.le_or_ge t 16 with ht | ht
  · obtain ⟨j, hj⟩ := Nat.exists_eq_add_of_le ht
    have hpow : 10 ^ 16 * B = 10 ^ j * B * 10 ^ t := by
      rw [hj, pow_add]
      ring
    rw [hpow] at hlt ⊢
    have hstep : (A + 1) * 10 ^ t ≤ 10 ^ j * B * 10 ^ t := Nat.mul_le_mul_right _ (lt_of_mul_lt_mul_right' hlt)
    by_contra hge
    have hB2 : 2 * 10 ^ t ≤ B := by
      rw [Nat.add_mul] at hstep
      omega
    have hAlarge : (2 * 10 ^ 16 - 1) * (2 * 10 ^ t) ≤ 2 * (A * 10 ^ t) :=
      calc (2 * 10 ^ 16 - 1) * (2 * 10 ^ t) ≤ (2 * 10 ^ 16 - 1) * B := Nat.mul_le_mul_left _ hB2
        _ ≤ 2 * (A * 10 ^ t) := by rw [← hpow] at hge; omega
    have hpos : 0 < 10 ^ t := by positivity
    nlinarith
  · obtain ⟨j, rfl⟩ := Nat.exists_eq_add_of_le ht
    rw [pow_add] at hlt ⊢
    have hlt' : A * 10 ^ j < B := by nlinarith
    have hassoc : A * (10 ^ 16 * 10 ^ j) = 10 ^ 16 * (A * 10 ^ j) := by ring
    rw [hassoc]
    omega

/-- The rounded quotient, bracketed (42_arith.md R192). -/
theorem divQuotient_bounds (hB : 1 ≤ B) :
    2 * (divQuotient A B * B) ≤ 2 * (A * 10 ^ divShift A B) + B ∧
      2 * (A * 10 ^ divShift A B) < 2 * (divQuotient A B * B) + B :=
  have h := round_half_bounds (A * 10 ^ divShift A B) B
  ⟨h.1, h.2 hB⟩

theorem divQuotient_lt (hA : 1 ≤ A) (hA' : A < 10 ^ 16) (hB : 1 ≤ B) (hB' : B < 10 ^ 16) :
    divQuotient A B < 10 ^ 16 := by
  have hle := (divQuotient_bounds (A := A) hB).1
  have hlt := two_mul_mul_divShift_add_lt hA hA' hB hB'
  exact Nat.lt_of_mul_lt_mul_right (a := B) (by omega)

/-- Settles O44: rounding the 16-digit quotient does not carry. -/
theorem divQuotientHasSixteenDigits : Obligations.DivQuotientHasSixteenDigits := by
  intro A B hA hA' hB hB'
  obtain ⟨hle, hreach, hmin⟩ := divShift_spec hA hB'
  obtain ⟨hq1, hq2⟩ := divQuotient_bounds (A := A) hB
  exact ⟨hle, hreach, hmin, (Nat.le_div_iff_mul_le hB).2 hreach, divQuotient_lt hA hA' hB hB', hq2, hq1⟩

/-- The quotient is the exact one, shifted to 16 digits and rounded half up (42_arith.md R192). -/
theorem divQuotient_roundsHalfUp (hA : 1 ≤ A) (hA' : A < 10 ^ 16) (hB : 1 ≤ B) (hB' : B < 10 ^ 16) :
    RoundsHalfUp (A * 10 ^ divShift A B / B) (divQuotient A B) := by
  have hpos : (0 : ℚ) < B := by exact_mod_cast hB
  obtain ⟨hq1, hq2⟩ := divQuotient_bounds (A := A) hB
  refine ⟨?_, ?_, ?_, ?_⟩
  · rw [le_div_iff₀ hpos]
    exact_mod_cast (divShift_spec hA hB').2.1
  · rw [div_lt_iff₀ hpos]
    exact_mod_cast mul_divShift_lt hA hA' hB hB'
  · rw [← mul_div_assoc, div_add_one hpos.ne', le_div_iff₀ hpos, mul_assoc]
    exact_mod_cast hq1
  · rw [← mul_div_assoc, div_lt_iff₀ hpos, add_mul, one_mul, mul_assoc]
    exact_mod_cast hq2

end

/-! ### The quotient of two pairs -/

variable {a b : Decimal}

/-- The exact quotient, its magnitude shifted by `t` digits. -/
theorem value_div (a b : Decimal) (t : Nat) :
    a.value / b.value = (a.sig.sign * b.sig.sign : Int) *
      (a.sig.natAbs * 10 ^ t / b.sig.natAbs * 10 ^ (a.exp - b.exp - t)) := by
  have hinv : ((b.sig.sign : ℚ))⁻¹ = b.sig.sign := by
    rcases Int.sign_trichotomy b.sig with h | h | h <;> rw [h] <;> norm_num
  have ht : (10 : ℚ) ^ (a.exp - b.exp - t) * 10 ^ t = 10 ^ a.exp / 10 ^ b.exp := by
    rw [← zpow_natCast, ← zpow_add₀ (by norm_num), sub_add_cancel, zpow_sub₀ (by norm_num)]
  rw [← a.sign_mul_abs_value, ← b.sign_mul_abs_value, mul_div_mul_comm, div_eq_mul_inv (a.sig.sign : ℚ), hinv,
    Decimal.abs_value, Decimal.abs_value, mul_div_mul_comm, ← ht]
  push_cast
  ring

/-- Division of two nonzero pairs hands renorm a 16-digit significand that is the exact quotient rounded half
away from zero, at an exponent above EMAX_ARITH exactly when the quotient overflows (42_arith.md R192). -/
theorem exists_divCore_eq_renorm (ha0 : a.sig ≠ 0) (hb0 : b.sig ≠ 0) (ha : a.sig.natAbs < 10 ^ 16)
    (hb : b.sig.natAbs < 10 ^ 16) :
    ∃ q x : Int, sixteenDigits q ∧ divCore a b = renorm q x ∧
      roundsTo (a.value / b.value) (⟨q, x⟩ : Decimal).value ∧
      |a.value / b.value| < 10 ^ 16 * 10 ^ x ∧ (253 < x ↔ overflowBound ≤ |a.value / b.value|) := by
  have hA : 1 ≤ a.sig.natAbs := Int.natAbs_pos.2 ha0
  have hB : 1 ≤ b.sig.natAbs := Int.natAbs_pos.2 hb0
  have hround := divQuotient_roundsHalfUp hA ha hB hb
  have hlt := divQuotient_lt hA ha hB hb
  have hcore := divCore_of_ne_zero ha0 hb0
  have hvalue := value_div a b (divShift a.sig.natAbs b.sig.natAbs)
  have hg : (a.sig.sign * b.sig.sign).natAbs = 1 := by
    rw [Int.natAbs_mul, Int.natAbs_sign_of_ne_zero ha0, Int.natAbs_sign_of_ne_zero hb0]
  have hgQ : |((a.sig.sign * b.sig.sign : Int) : ℚ)| = 1 := by
    rw [← Int.cast_abs, Int.abs_eq_natAbs, hg]
    norm_num
  simp only [if_neg hlt.ne] at hcore
  generalize a.exp - b.exp - (divShift a.sig.natAbs b.sig.natAbs : Int) = x at *
  generalize (a.sig.natAbs * 10 ^ divShift a.sig.natAbs b.sig.natAbs / b.sig.natAbs : ℚ) = y at *
  generalize divQuotient a.sig.natAbs b.sig.natAbs = Q at *
  generalize a.sig.sign * b.sig.sign = g at *
  have hx := zpow_ten_pos x
  have hnat : (g * (Q : Int)).natAbs = Q := by rw [Int.natAbs_mul, hg, one_mul, Int.natAbs_natCast]
  have hq : sixteenDigits (g * Q) := by
    rw [sixteenDigits, hnat]
    exact ⟨by exact_mod_cast hround.low_le, hlt⟩
  have hy := hround.low
  have hnonneg : 0 ≤ y * 10 ^ x := by
    have : 0 ≤ y := by linarith
    positivity
  have habs : |a.value / b.value| = y * 10 ^ x := by
    rw [hvalue, abs_mul, hgQ, one_mul, abs_of_nonneg hnonneg]
  refine ⟨g * Q, x, hq, hcore, ?_, ?_, ?_⟩
  · have h := hround.roundsTo hgQ x
    rw [← hvalue, ← mul_assoc] at h
    rw [Decimal.value]
    exact_mod_cast h
  · rw [habs]
    exact mul_lt_mul_of_pos_right hround.high hx
  · rw [exp_gt_iff_of_sixteenDigits hq, Decimal.abs_value, hnat, hround.overflow_iff, habs]

/-- Settles O45: the 16-digit quotient is settled as renorm settles it. -/
theorem divResult : Obligations.DivResult := by
  intro s rd ra rb a b ha hb
  rw [exec_div_of_holds ha hb]
  refine ⟨fun hb0 => ?_, fun hb0 ha0 => ?_, fun hb0 ha0 hlt => ?_, fun hb0 hover => ?_⟩
  · rw [divCore_zero_divisor hb0, State.completeWord_error]
    rfl
  · rw [divCore_zero_dividend ha0 hb0, State.completeWord_ok]
  · obtain ⟨q, x, hq, hcore, hrounds, habs, hoverflow⟩ :=
      exists_divCore_eq_renorm ha0 hb0 (inRange_of_decode ha).1 (inRange_of_decode hb).1
    have hx : x ≤ 253 := not_lt.1 (hoverflow.not.2 (not_le.2 hlt))
    obtain ⟨-, w, hw⟩ := encode_truncatedAtEmin hq.2 hx
    refine ⟨w, q, x, ?_, hq, hrounds, hw, fun hlow => ?_⟩
    · rw [hcore, renorm_sixteenDigits hq, settle_of_le hx, hw, State.completeWord_ok]
    · rw [← zpow_ten_add_nat] at habs
      have hexp := zpow_ten_lt_iff.1 (hlow.trans_lt habs)
      rw [truncatedAtEmin_of_le (by omega)] at hw
      exact decode_of_encode (by rintro rfl; exact absurd hq.1 (by decide)) hw
  · have ha0 : a.sig ≠ 0 := by
      intro h0
      rw [a.value_eq_zero_iff.2 h0, zero_div, abs_zero, overflowBound] at hover
      norm_num at hover
    obtain ⟨q, x, hq, hcore, -, -, hoverflow⟩ :=
      exists_divCore_eq_renorm ha0 hb0 (inRange_of_decode ha).1 (inRange_of_decode hb).1
    rw [hcore, renorm_sixteenDigits hq, settle_of_gt (hoverflow.2 hover), State.completeWord_error]
    rfl

end Sys2Proof.Machine
end

section
/-! PROOFS, 42_arith.md. ADD and SUB (42_arith.md R184 to R188): which cases addCore has, and that it commutes. -/

namespace Sys2Proof.Machine

open Sys2Proof

variable {s : State} {rd ra rb : Fin 8} {a b c : Decimal}

/-! ### The cases of addCore -/

/-- A zero operand on the right leaves the other one, zero or not (42_arith.md R184). -/
theorem addCore_of_right_zero {w : Word} (ha : decodeDecimal w = some a) (hexp : b.inRange) (h : b.sig = 0) :
    addCore a b = .ok w := by
  by_cases ha0 : a.sig = 0
  · obtain ⟨rfl, -⟩ := eq_zero_of_decode_sig_zero ha ha0
    obtain ⟨hs, h1, h2⟩ := hexp
    have henc := encodeDecimal_of_inRange hs h1 h2
    rw [addCore_zero_left ha0, henc]
    rw [h] at henc
    rw [h, word_eq_zero_of_encode_zero henc]
  · rw [addCore_zero_right ha0 h, encode_of_decode ha]

/-- Addition commutes (42_arith.md R188): two words of zero are the same word. -/
theorem addCore_comm {v w : Word} (ha : decodeDecimal v = some a) (hb : decodeDecimal w = some b) :
    addCore a b = addCore b a := by
  by_cases hb0 : b.sig = 0
  · rw [addCore_of_right_zero ha (inRange_of_decode hb) hb0, addCore_zero_left hb0, encode_of_decode ha]
  by_cases ha0 : a.sig = 0
  · rw [addCore_of_right_zero hb (inRange_of_decode ha) ha0, addCore_zero_left ha0, encode_of_decode hb]
  rcases lt_trichotomy a.exp b.exp with h | h | h
  · rw [addCore_of_lt ha0 hb0 h, addCore_of_gt hb0 ha0 h]
  · rw [addCore_same_exp ha0 hb0 h, addCore_same_exp hb0 ha0 h.symm, Int.add_comm, h]
  · rw [addCore_of_gt ha0 hb0 h, addCore_of_lt hb0 ha0 h]

/-- A pair and its negation add up to zero (42_arith.md R188). -/
theorem addCore_negated_self {w : Word} (ha : decodeDecimal w = some a) : addCore a a.negated = .ok 0 := by
  by_cases ha0 : a.sig = 0
  · obtain ⟨rfl, rfl⟩ := eq_zero_of_decode_sig_zero ha ha0
    rfl
  · have hneg0 : a.negated.sig ≠ 0 := neg_ne_zero.2 ha0
    rw [addCore_same_exp ha0 hneg0 rfl, Decimal.negated_sig, Int.add_right_neg, renorm_zero]

/-- Settles O41. -/
theorem addAndSubLaws : Obligations.AddAndSubLaws := by
  intro s rd ra rb hca hcb
  obtain ⟨a, ha⟩ := Option.isSome_iff_exists.1 hca
  obtain ⟨b, hb⟩ := Option.isSome_iff_exists.1 hcb
  rw [exec_add_of_holds ha hb, exec_add_of_holds hb ha, exec_sub_of_holds ha ha]
  refine ⟨by rw [addCore_comm ha hb], by rw [addCore_negated_self ha, State.completeWord_ok], fun h0 => ?_⟩
  obtain rfl : (⟨0, 0⟩ : Decimal) = b := by
    rw [h0] at hb
    exact Option.some.inj hb
  rw [addCore_of_right_zero ha (by decide) rfl, State.completeWord_ok]

/-- An operand that moves down by the whole gap is aligned without loss (42_arith.md R185 item 1). -/
theorem alignShift_eq_gap {hi lo : Decimal} (h0 : hi.sig ≠ 0)
    (hfit : hi.sig.natAbs * 10 ^ (hi.exp - lo.exp).toNat < 10 ^ 17) :
    alignShift hi lo = (hi.exp - lo.exp).toNat := by
  have hm : hi.sig.natAbs ≠ 0 := Int.natAbs_ne_zero.2 h0
  have hdigits := (ndigits_le_iff (m := hi.sig.natAbs * 10 ^ (hi.exp - lo.exp).toNat) (by positivity)).2 hfit
  rw [ndigits_mul_pow hm] at hdigits
  rw [alignShift]
  omega

/-- Settles O40: nothing is dropped, so the aligned sum is the exact one. -/
theorem addIsExactWhenAligned : Obligations.AddIsExactWhenAligned := by
  intro a b _ _ ha0 hb0 hexp hfit
  have halign := alignShift_eq_gap ha0 hfit
  have hgap : (a.exp - b.exp).toNat ≤ 17 := by
    rw [← Nat.pow_le_pow_iff_right (a := 10) (by norm_num)]
    exact (Nat.le_mul_of_pos_left _ (Int.natAbs_pos.2 ha0)).trans hfit.le
  have hnear : ¬negligible a b := by
    rw [negligible, halign]
    omega
  have hsum : alignedSum a b = ⟨a.sig * 10 ^ (a.exp - b.exp).toNat + b.sig, b.exp⟩ := by
    rw [alignedSum, halign, Nat.sub_self, pow_zero, Int.tdiv_one, Decimal.mk.injEq]
    exact ⟨rfl, by omega⟩
  have hcore := addCore_aligned ha0 hb0 hexp hnear
  rwa [hsum] at hcore

/-! ### The commands, case by case -/

/-- The second operand of addCore: that of ADD, or that of SUB negated (42_arith.md R186, R187). -/
theorem exec_addSub_of_holds {i : Instr} (ha : s.holds ra a) (hb : s.holds rb b)
    (hi : (i = .add rd ra rb ∧ c = b) ∨ (i = .sub rd ra rb ∧ c = ⟨-b.sig, b.exp⟩)) :
    exec i s = s.completeWord rd (addCore a c) ∧ ∃ w, decodeDecimal w = some c := by
  rcases hi with ⟨rfl, rfl⟩ | ⟨rfl, rfl⟩
  · exact ⟨exec_add_of_holds ha hb, _, hb⟩
  · exact ⟨exec_sub_of_holds ha hb, _, decode_negated hb⟩

theorem addSub_sig_eq_zero_iff {i : Instr}
    (hi : (i = .add rd ra rb ∧ c = b) ∨ (i = .sub rd ra rb ∧ c = ⟨-b.sig, b.exp⟩)) :
    c.sig = 0 ↔ b.sig = 0 := by
  rcases hi with ⟨-, rfl⟩ | ⟨-, rfl⟩
  · rfl
  · exact neg_eq_zero

/-- Settles O60: both orders of the operands answer the same. -/
theorem addAndSubByCases : Obligations.AddAndSubByCases := by
  intro s rd ra rb a b c i ha hb hi
  obtain ⟨hexec, wc, hc⟩ := exec_addSub_of_holds ha hb hi
  rw [hexec]
  refine ⟨fun ha0 => ⟨wc, encode_of_decode hc, ?_⟩, fun hb0 => ?_, fun ha0 hb0 hi' lo hor hle => ?_⟩
  · rw [addCore_zero_left ha0, encode_of_decode hc, State.completeWord_ok]
  · rw [addCore_of_right_zero ha (inRange_of_decode hc) ((addSub_sig_eq_zero_iff hi).2 hb0),
      State.completeWord_ok]
  · have hc0 : c.sig ≠ 0 := (addSub_sig_eq_zero_iff hi).not.2 hb0
    obtain ⟨hcore, hh0, hl0, whi, hhi⟩ : addCore a c = addCore hi' lo ∧ hi'.sig ≠ 0 ∧ lo.sig ≠ 0 ∧
        ∃ w, decodeDecimal w = some hi' := by
      rcases hor with ⟨rfl, rfl⟩ | ⟨rfl, rfl⟩
      · exact ⟨rfl, ha0, hc0, _, ha⟩
      · exact ⟨addCore_comm ha hc, hc0, ha0, _, hc⟩
    rw [hcore]
    refine ⟨fun hneg => ⟨whi, encode_of_decode hhi, ?_⟩, fun hnear hlt => ?_, fun hnear hover => ?_⟩
    · rw [(addCore_negligible hh0 hl0 hneg).1, encode_of_decode hhi, State.completeWord_ok]
    · obtain ⟨w, hw⟩ := exists_renorm_ok hlt
      exact ⟨w, hw, by rw [(addCore_aligned hh0 hl0 hle hnear).1, hw, State.completeWord_ok]⟩
    · rw [(addCore_aligned hh0 hl0 hle hnear).1, renorm_error_of_bound_le hover, State.completeWord_error]
      rfl

end Sys2Proof.Machine
end

section
/-! PROOFS, 42_arith.md. How far ADD and SUB are from the exact result (42_arith.md R184 to R187): by the digits
that alignment drops, and by the rounding of the aligned sum. -/

namespace Sys2Proof.Machine

open Sys2Proof

/-! ### Numbers within one unit -/

theorem withinOneUnit_self (v : ℚ) : withinOneUnit v v :=
  ⟨id, fun x _ => by rw [sub_self, abs_zero]; exact (zpow_ten_pos x).le⟩

/-- A rounded number is even within half a unit. -/
theorem withinOneUnit_of_roundsTo {v c : ℚ} (h : roundsTo v c) : withinOneUnit v c :=
  ⟨h.1, fun x hx => (h.2 x hx).2.1.trans (half_le_self (zpow_ten_pos x).le)⟩

/-- A number is within one unit of another that has 16 digits before the place where they differ. -/
theorem withinOneUnit_of_near {v c : ℚ} {x : Int} (hlow : 10 ^ 15 * 10 ^ x ≤ |v|) (h : |c - v| < 10 ^ x) :
    withinOneUnit v c := by
  refine ⟨?_, fun y hy => h.le.trans (zpow_ten_le_iff.2 (le_unit_of_le_abs hy hlow))⟩
  rintro rfl
  have := zpow_ten_pos x
  rw [abs_zero] at hlow
  exact absurd hlow (not_le.2 (by positivity))

/-- The rounding of a number is within half of any unit that is not below its own. -/
theorem abs_sub_le_of_roundsTo {v c : ℚ} {x : Int} (h : roundsTo v c) (hv : |v| < 10 ^ 16 * 10 ^ x) :
    |c - v| ≤ 10 ^ x / 2 := by
  by_cases h0 : v = 0
  · rw [h.1 h0, h0, sub_zero, abs_zero]
    exact (half_pos (zpow_ten_pos x)).le
  · obtain ⟨y, hy⟩ := exists_unitInLastDigit h0
    have hle : (10 : ℚ) ^ y ≤ 10 ^ x := zpow_ten_le_iff.2 (unit_le_of_abs_lt hy hv)
    have := (h.2 y hy).2.1
    linarith

/-- A number that is its own rounding has no other: two multiples of a unit differ by a whole unit. -/
theorem eq_of_roundsTo_self {v c : ℚ} (h : roundsTo v c) (hself : roundsTo v v) : c = v := by
  by_cases h0 : v = 0
  · rw [h.1 h0, h0]
  · obtain ⟨x, hx⟩ := exists_unitInLastDigit h0
    obtain ⟨⟨m, hm⟩, hle, -⟩ := h.2 x hx
    obtain ⟨⟨n, hn⟩, -, -⟩ := hself.2 x hx
    have hpos := zpow_ten_pos x
    rw [hm, hn, ← sub_mul, abs_mul, abs_of_pos hpos, div_eq_mul_one_div, mul_comm, mul_le_mul_iff_right₀ hpos,
      ← Int.cast_sub, ← Int.cast_abs] at hle
    have hlt : |m - n| < 1 := by
      have : ((|m - n| : Int) : ℚ) < 1 := by linarith
      exact_mod_cast this
    rw [hm, hn, sub_eq_zero.1 (Int.abs_lt_one_iff.1 hlt)]

/-- A power of ten is its own rounding. -/
theorem roundsTo_self_of_abs_eq_zpow {v : ℚ} {y : Int} (h : |v| = 10 ^ y) : roundsTo v v := by
  refine roundsTo_self_of_multiple fun x hx => ?_
  have hle : x + 15 ≤ y := zpow_ten_le_iff.1 (h ▸ hx.1)
  obtain ⟨k, rfl⟩ := Int.exists_add_of_le hle
  rw [show x + 15 + k = x + (k + 15 : Nat) by push_cast; ring, zpow_ten_add_nat] at h
  rcases (abs_eq (by have := zpow_ten_pos x; positivity)).1 h with hv | hv
  · exact ⟨10 ^ (k + 15), by rw [hv]; push_cast; rfl⟩
  · exact ⟨-10 ^ (k + 15), by rw [hv]; push_cast; ring⟩

/-- A whole number of units that is close to a number in some decade, and not its own rounding, lies in a decade
above the 16 digits of that unit and not above that of the number. -/
theorem unit_lt_of_not_roundsTo_self {v : ℚ} {n x y : Int}
    (hself : ¬roundsTo (⟨n, x⟩ : Decimal).value (⟨n, x⟩ : Decimal).value)
    (hdiff : |(⟨n, x⟩ : Decimal).value - v| < 10 ^ x) (hxy : x ≤ y) (hv : |v| < 10 ^ 16 * 10 ^ y) :
    x < y ∧ |(⟨n, x⟩ : Decimal).value| < 10 ^ 16 * 10 ^ y := by
  obtain ⟨z, rfl⟩ := Int.exists_add_of_le hxy
  have hx := zpow_ten_pos x
  have hpow : (10 : ℚ) ^ 16 * 10 ^ (x + z) = (10 ^ (16 + z) : Nat) * 10 ^ x := by
    rw [zpow_ten_add_nat]
    push_cast
    ring
  have habs : |(⟨n, x⟩ : Decimal).value| = n.natAbs * 10 ^ x := Decimal.abs_value _
  have hle : n.natAbs < 10 ^ (16 + z) + 1 := by
    have htri : (n.natAbs : ℚ) * 10 ^ x < ((10 ^ (16 + z) : Nat) + 1) * 10 ^ x := by
      have := abs_sub_abs_le_abs_sub (⟨n, x⟩ : Decimal).value v
      rw [add_mul, one_mul, ← hpow, ← habs]
      linarith
    exact_mod_cast lt_of_mul_lt_mul_right htri hx.le
  have hne : n.natAbs ≠ 10 ^ (16 + z) := fun heq =>
    hself (roundsTo_self_of_abs_eq_zpow (y := x + (16 + z : Nat)) (by
      rw [habs, heq, zpow_ten_add_nat]
      push_cast
      rfl))
  have hlt : n.natAbs < 10 ^ (16 + z) := by omega
  refine ⟨?_, ?_⟩
  · by_contra hz
    obtain rfl : z = 0 := by omega
    exact hself (roundsTo_self_of_short x hlt)
  · rw [hpow, habs]
    exact mul_lt_mul_of_pos_right (by exact_mod_cast hlt) hx

/-- Rounding a sum of which less than one was truncated off stays within one unit of the exact sum: where the
sum has more than 16 digits, by half a unit and a tenth of one; else it is not rounded at all. -/
theorem withinOneUnit_of_truncated {v c : ℚ} {n x : Int} (hlow : 10 ^ 15 * 10 ^ x ≤ |v|)
    (hdiff : |(⟨n, x⟩ : Decimal).value - v| < 10 ^ x) (hc : roundsTo (⟨n, x⟩ : Decimal).value c) :
    withinOneUnit v c := by
  have hnear := withinOneUnit_of_near hlow hdiff
  by_cases hself : roundsTo (⟨n, x⟩ : Decimal).value (⟨n, x⟩ : Decimal).value
  · rwa [eq_of_roundsTo_self hc hself]
  · refine ⟨fun h0 => hc.1 (hnear.1 h0), fun y hy => ?_⟩
    obtain ⟨hlt, habs⟩ := unit_lt_of_not_roundsTo_self hself hdiff (le_unit_of_le_abs hy hlow)
      (unitInLastDigit_iff.1 hy).2
    have hhalf := abs_sub_le_of_roundsTo hc habs
    have htenth := ten_mul_zpow_le hlt
    have htri := abs_sub_le c (⟨n, x⟩ : Decimal).value v
    have hpos := zpow_ten_pos y
    linarith

/-! ### The aligned sum -/

theorem value_add_of_exp_eq (m n x : Int) :
    (⟨m + n, x⟩ : Decimal).value = (⟨m, x⟩ : Decimal).value + (⟨n, x⟩ : Decimal).value := by
  simp only [Decimal.value]
  push_cast
  ring

/-- Dropping `r` digits of a significand takes off less than one unit of its new exponent. -/
theorem abs_tdiv_value_sub_lt (n x : Int) (r : Nat) :
    |(⟨n.tdiv (10 ^ r), x⟩ : Decimal).value - (⟨n, x - r⟩ : Decimal).value| < 10 ^ x := by
  have hmod : (n.tmod (10 ^ r)).natAbs < 10 ^ r := by
    rw [Int.natAbs_tmod, Int.natAbs_pow]
    exact Nat.mod_lt _ (by positivity)
  have hsub : (⟨n.tdiv (10 ^ r), x⟩ : Decimal).value - (⟨n, x - r⟩ : Decimal).value =
      -(⟨n.tmod (10 ^ r), x - r⟩ : Decimal).value := by
    rw [← value_mul_pow_ten ⟨n.tdiv (10 ^ r), x⟩ r, sub_eq_iff_eq_add, neg_add_eq_sub, eq_sub_iff_add_eq,
      ← value_add_of_exp_eq, Int.tdiv_mul_add_tmod]
  have hpow : (10 : ℚ) ^ x = (10 ^ r : Nat) * 10 ^ (x - r) := by
    rw [Nat.cast_pow, Nat.cast_ofNat, ← zpow_ten_add_nat, sub_add_cancel]
  rw [hsub, abs_neg, Decimal.abs_value, hpow]
  exact mul_lt_mul_of_pos_right (by exact_mod_cast hmod) (zpow_ten_pos _)

theorem abs_tdiv_value_le (n x : Int) (r : Nat) :
    |(⟨n.tdiv (10 ^ r), x⟩ : Decimal).value| ≤ |(⟨n, x - r⟩ : Decimal).value| := by
  have h : (n.tdiv (10 ^ r) * 10 ^ r).natAbs ≤ n.natAbs := by
    rw [Int.natAbs_mul, Int.natAbs_pow]
    exact (tdiv_pow_ten_spec n r).1
  rw [← value_mul_pow_ten ⟨n.tdiv (10 ^ r), x⟩ r, Decimal.abs_value, Decimal.abs_value]
  exact mul_le_mul_of_nonneg_right (by exact_mod_cast h) (zpow_ten_pos _).le

/-- The digits that alignment drops from the operand with the smaller exponent (42_arith.md R184). -/
def droppedDigits (hi lo : Decimal) : Nat := (hi.exp - lo.exp).toNat - alignShift hi lo

section
variable {hi lo : Decimal}

/-- Alignment covers the whole gap, from above by shifting and from below by dropping digits. -/
theorem exp_eq_alignedSum_exp_sub (h : lo.exp ≤ hi.exp) :
    lo.exp = (alignedSum hi lo).exp - droppedDigits hi lo := by
  rw [alignedSum, droppedDigits]
  have : alignShift hi lo ≤ (hi.exp - lo.exp).toNat := Nat.min_le_right _ _
  simp only
  omega

/-- The aligned sum is the exact one but for the digits dropped. -/
theorem alignedSum_value (hi lo : Decimal) :
    (alignedSum hi lo).value = hi.value +
      (⟨lo.sig.tdiv (10 ^ droppedDigits hi lo), (alignedSum hi lo).exp⟩ : Decimal).value := by
  rw [← value_mul_pow_ten hi (alignShift hi lo)]
  exact value_add_of_exp_eq _ _ _

/-- The value of the smaller operand, at the exponent of the aligned sum. -/
theorem lo_value_eq (h : lo.exp ≤ hi.exp) :
    lo.value = (⟨lo.sig, (alignedSum hi lo).exp - droppedDigits hi lo⟩ : Decimal).value := by
  rw [← exp_eq_alignedSum_exp_sub h]

theorem abs_alignedSum_value_sub_lt (h : lo.exp ≤ hi.exp) :
    |(alignedSum hi lo).value - (hi.value + lo.value)| < 10 ^ (alignedSum hi lo).exp := by
  rw [alignedSum_value, add_sub_add_left_eq_sub, lo_value_eq h]
  exact abs_tdiv_value_sub_lt _ _ _

theorem abs_alignedSum_value_le (h : lo.exp ≤ hi.exp) :
    |(alignedSum hi lo).value| ≤ |hi.value| + |lo.value| := by
  rw [alignedSum_value, lo_value_eq h]
  exact (abs_add_le _ _).trans (add_le_add_right (abs_tdiv_value_le _ _ _) _)

/-- With no digit dropped the aligned sum is the exact one (42_arith.md R185 item 1). -/
theorem alignedSum_value_of_exact (h : lo.exp ≤ hi.exp) (h0 : droppedDigits hi lo = 0) :
    (alignedSum hi lo).value = hi.value + lo.value := by
  rw [alignedSum_value, lo_value_eq h, h0, pow_zero, Int.tdiv_one, Nat.cast_zero, sub_zero]

/-- Digits are dropped only when the other operand has all 17 digits. -/
theorem le_abs_hi_value (hh : hi.sig ≠ 0) (h16 : hi.sig.natAbs < 10 ^ 16) (hr : droppedDigits hi lo ≠ 0) :
    10 ^ 16 * 10 ^ (alignedSum hi lo).exp ≤ |hi.value| := by
  have hdigits : ndigits hi.sig.natAbs ≤ 16 := (ndigits_le_iff (Int.natAbs_ne_zero.2 hh)).2 h16
  have halign : ndigits (hi.sig * 10 ^ alignShift hi lo).natAbs = 17 := by
    rw [ndigits_natAbs_mul_pow hh]
    rw [droppedDigits, alignShift] at hr
    rw [alignShift]
    omega
  have hle : 10 ^ 16 ≤ (hi.sig * 10 ^ alignShift hi lo).natAbs :=
    (lt_ndigits_iff (Int.natAbs_ne_zero.2 (mul_pow_ten_ne_zero hh _))).1 (by omega)
  rw [← value_mul_pow_ten hi (alignShift hi lo), Decimal.abs_value]
  exact mul_le_mul_of_nonneg_right (by exact_mod_cast hle) (zpow_ten_pos _).le

theorem abs_lo_value_lt (h : lo.exp ≤ hi.exp) (h16 : lo.sig.natAbs < 10 ^ 16) :
    |lo.value| * 10 ^ droppedDigits hi lo < 10 ^ 16 * 10 ^ (alignedSum hi lo).exp := by
  have hsig : (lo.sig.natAbs : ℚ) < 10 ^ 16 := by exact_mod_cast h16
  rw [Decimal.abs_value, exp_eq_alignedSum_exp_sub h, mul_assoc, mul_comm (10 ^ (_ : Int)), ← zpow_ten_add_nat,
    sub_add_cancel]
  exact mul_lt_mul_of_pos_right hsig (zpow_ten_pos _)

/-- The exact sum then still has 16 digits at the exponent of the aligned sum: the smaller operand is at least
a digit shorter. -/
theorem le_abs_sum (h : lo.exp ≤ hi.exp) (hh : hi.sig ≠ 0) (hhi : hi.sig.natAbs < 10 ^ 16)
    (hlo : lo.sig.natAbs < 10 ^ 16) (hr : droppedDigits hi lo ≠ 0) :
    10 ^ 15 * 10 ^ (alignedSum hi lo).exp ≤ |hi.value + lo.value| := by
  have hbig := le_abs_hi_value hh hhi hr
  have hsmall := abs_lo_value_lt h hlo
  have hten : (10 : ℚ) ^ 1 ≤ 10 ^ droppedDigits hi lo := pow_le_pow_right₀ (by norm_num) (by omega)
  have hmul := mul_le_mul_of_nonneg_left hten (abs_nonneg lo.value)
  have htri := abs_sub_abs_le_abs_add hi.value lo.value
  have hpos := zpow_ten_pos (alignedSum hi lo).exp
  linarith

/-- A negligible operand drops more than its 16 digits (42_arith.md R185 item 3). -/
theorem droppedDigits_of_negligible (hh : hi.sig ≠ 0) (h : negligible hi lo) : 17 ≤ droppedDigits hi lo := by
  have hdigits := (ndigits_bounds (Int.natAbs_ne_zero.2 hh)).2.2
  have halign : alignShift hi lo ≤ 17 - ndigits hi.sig.natAbs := Nat.min_le_left _ _
  rw [negligible] at h
  rw [droppedDigits]
  omega

/-- The operand that a negligible one leaves is within one unit of the sum (42_arith.md R185 item 3). -/
theorem withinOneUnit_of_negligible (hh : hi.sig ≠ 0) (hhi : hi.sig.natAbs < 10 ^ 16)
    (hlo : lo.sig.natAbs < 10 ^ 16) (h : negligible hi lo) : withinOneUnit (hi.value + lo.value) hi.value := by
  have hle : lo.exp ≤ hi.exp := by
    rw [negligible] at h
    omega
  have hr := droppedDigits_of_negligible hh h
  have hsmall := abs_lo_value_lt hle hlo
  have hpow : (10 : ℚ) ^ 16 ≤ 10 ^ droppedDigits hi lo := pow_le_pow_right₀ (by norm_num) (by omega)
  refine withinOneUnit_of_near (le_abs_sum hle hh hhi hlo (by omega)) ?_
  rw [sub_add_cancel_left, abs_neg]
  refine lt_of_mul_lt_mul_left (a := (10 : ℚ) ^ 16) (lt_of_le_of_lt ?_ hsmall) (by positivity)
  rw [mul_comm]
  exact mul_le_mul_of_nonneg_left hpow (abs_nonneg _)

/-- The rounded aligned sum is within one unit of the exact sum (42_arith.md R185 items 1 and 2). -/
theorem withinOneUnit_of_alignedSum {c : ℚ} (h : lo.exp ≤ hi.exp) (hh : hi.sig ≠ 0)
    (hhi : hi.sig.natAbs < 10 ^ 16) (hlo : lo.sig.natAbs < 10 ^ 16) (hc : roundsTo (alignedSum hi lo).value c) :
    withinOneUnit (hi.value + lo.value) c := by
  by_cases hr : droppedDigits hi lo = 0
  · rw [← alignedSum_value_of_exact h hr]
    exact withinOneUnit_of_roundsTo hc
  · exact withinOneUnit_of_truncated (le_abs_sum h hh hhi hlo hr) (abs_alignedSum_value_sub_lt h) hc

/-- A sum of two pairs with exponents up to 252 is far below the overflow bound (42_arith.md R182 item 4). -/
theorem abs_alignedSum_value_lt_bound (h : lo.exp ≤ hi.exp) (hhi : hi.sig.natAbs < 10 ^ 16)
    (hlo : lo.sig.natAbs < 10 ^ 16) (hexp : hi.exp ≤ 252) : |(alignedSum hi lo).value| < overflowBound := by
  have hterm {a : Decimal} (ha : a.sig.natAbs < 10 ^ 16) (he : a.exp ≤ 252) :
      |a.value| ≤ 10 ^ 16 * 10 ^ (252 : Int) := by
    have hs : (a.sig.natAbs : ℚ) ≤ 10 ^ 16 := by exact_mod_cast ha.le
    rw [Decimal.abs_value]
    exact mul_le_mul hs (zpow_ten_le_iff.2 he) (zpow_ten_pos _).le (by positivity)
  have hle := abs_alignedSum_value_le h
  have h1 := hterm hhi hexp
  have h2 := hterm hlo (h.trans hexp)
  have hten := ten_mul_zpow_le (show (252 : Int) < 253 by decide)
  have hpos := zpow_ten_pos 252
  rw [overflowBound_eq]
  linarith

end

/-! ### The commands -/

/-- What ADD and SUB answer when it is no error: a canonical word within one unit of `v`. -/
def AnswersWithin (v : ℚ) (r : Except ErrorCode Word) : Prop :=
  ∃ (w : Word) (d : Decimal), r = .ok w ∧ decodeDecimal w = some d ∧ withinOneUnit v d.value

/-- Addition of two nonzero pairs: E_OVERFLOW, and that only with an exponent above 252, or a word within one
unit of the exact sum. -/
theorem addCore_within_of_ne_zero {w : Word} {hi lo : Decimal} (hhi : decodeDecimal w = some hi)
    (hlo : lo.inRange) (hh0 : hi.sig ≠ 0) (hl0 : lo.sig ≠ 0) (h : lo.exp ≤ hi.exp) :
    (addCore hi lo = .error .overflow ∧ 252 < hi.exp) ∨ AnswersWithin (hi.value + lo.value) (addCore hi lo) := by
  have hh16 := (inRange_of_decode hhi).1
  by_cases hneg : negligible hi lo
  · rw [(addCore_negligible hh0 hl0 hneg).1, encode_of_decode hhi]
    exact .inr ⟨w, hi, rfl, hhi, withinOneUnit_of_negligible hh0 hh16 hlo.1 hneg⟩
  · rw [(addCore_aligned hh0 hl0 h hneg).1]
    rcases le_or_gt overflowBound |(alignedSum hi lo).value| with hover | hlt
    · refine .inl ⟨renorm_error_of_bound_le hover, ?_⟩
      by_contra hexp
      exact absurd hover (not_le.2 (abs_alignedSum_value_lt_bound h hh16 hlo.1 (not_lt.1 hexp)))
    · have hmin : -256 ≤ (alignedSum hi lo).exp := by
        have := exp_eq_alignedSum_exp_sub h
        have := hlo.2.1
        omega
      obtain ⟨w', d, hw', hd, hrounds, -⟩ := exists_renorm_rounds hmin hlt
      exact .inr ⟨w', d, hw', hd, withinOneUnit_of_alignedSum h hh0 hh16 hlo.1 hrounds⟩

/-- Addition of any two canonical words, in the same terms. -/
theorem addCore_within {v w : Word} {a b : Decimal} (ha : decodeDecimal v = some a)
    (hb : decodeDecimal w = some b) :
    (addCore a b = .error .overflow ∧ (252 < a.exp ∨ 252 < b.exp)) ∨
      AnswersWithin (a.value + b.value) (addCore a b) := by
  by_cases hb0 : b.sig = 0
  · rw [addCore_of_right_zero ha (inRange_of_decode hb) hb0, b.value_eq_zero_iff.2 hb0, add_zero]
    exact .inr ⟨v, a, rfl, ha, withinOneUnit_self _⟩
  by_cases ha0 : a.sig = 0
  · rw [addCore_comm ha hb, addCore_of_right_zero hb (inRange_of_decode ha) ha0, a.value_eq_zero_iff.2 ha0,
      zero_add]
    exact .inr ⟨w, b, rfl, hb, withinOneUnit_self _⟩
  rcases le_total b.exp a.exp with hle | hle
  · exact (addCore_within_of_ne_zero ha (inRange_of_decode hb) ha0 hb0 hle).imp_left (.imp_right .inl)
  · rw [addCore_comm ha hb, add_comm]
    exact (addCore_within_of_ne_zero hb (inRange_of_decode ha) hb0 ha0 hle).imp_left (.imp_right .inr)

/-- Settles O39: for SUB the second operand is the negated one. -/
theorem addAndSubWithinOneUnit : Obligations.AddAndSubWithinOneUnit := by
  intro s rd ra rb a b i v ha hb hi
  obtain ⟨c, hc, rfl, hexp⟩ : ∃ c : Decimal, ((i = .add rd ra rb ∧ c = b) ∨
      (i = .sub rd ra rb ∧ c = ⟨-b.sig, b.exp⟩)) ∧ v = a.value + c.value ∧ c.exp = b.exp := by
    rcases hi with ⟨rfl, rfl⟩ | ⟨rfl, rfl⟩
    · exact ⟨b, .inl ⟨rfl, rfl⟩, rfl, rfl⟩
    · exact ⟨b.negated, .inr ⟨rfl, rfl⟩, by rw [b.negated_value, sub_eq_add_neg], rfl⟩
  obtain ⟨hexec, _, hdec⟩ := exec_addSub_of_holds ha hb hc
  rw [hexec]
  rcases addCore_within ha hdec with ⟨herr, hover⟩ | ⟨w, d, hw, hd, hwithin⟩
  · rw [herr, State.completeWord_error]
    exact ⟨fun hne => absurd rfl hne, fun h1 h2 => by omega⟩
  · rw [hw, State.completeWord_ok]
    exact ⟨fun _ => ⟨w, d, rfl, hd, hwithin⟩, fun _ _ => ⟨w, d, rfl, hd, hwithin⟩⟩

end Sys2Proof.Machine
end

section
/-! PROOFS, 43_round.md. Rounding to a scale (43_round.md R230 to R234): the mathematical rounding that each rule
names, and the digits that roundCore drops. -/

namespace Sys2Proof.Machine

open Sys2Proof

/-- Settles O49: the scale is refused only after the operand was decoded (43_round.md R233). -/
theorem rndNegativeScaleIsUnimplemented : Obligations.RndNegativeScaleIsUnimplemented := by
  intro s rd ra rule scale hneg
  cases hc : canonical (s.readD ra) with
  | false =>
    exact execRnd_next.2 (.inr ⟨canonical_false_iff.1 hc, (s.fail_eq_errored .operand).symm⟩)
  | true =>
    obtain ⟨a, ha⟩ := Option.isSome_iff_exists.1 hc
    exact execRnd_next.2 (.inl ⟨a, ha, .inl ⟨hneg, (s.fail_eq_errored .unimpl).symm⟩⟩)

/-! ### The rounding that a rule names -/

/-- `m` is the integer to which a rule rounds `v` (43_round.md R234 items 1 and 2). -/
def RoundsBy (rule : RoundingRule) (v : ℚ) (m : Int) : Prop :=
  match rule with
  | .towardZero => m = if 0 ≤ v then ⌊v⌋ else ⌈v⌉
  | .awayFromZero => m = if 0 ≤ v then ⌈v⌉ else ⌊v⌋
  | .nearestAway => m = if 0 ≤ v then ⌊v + 1 / 2⌋ else ⌈v - 1 / 2⌉
  | .nearestEven => |(m : ℚ) - v| ≤ 1 / 2 ∧ (|(m : ℚ) - v| = 1 / 2 → Even m)
  | .down => m = ⌊v⌋
  | .up => m = ⌈v⌉

/-- Every rule keeps an integer (43_round.md R234 item 1). -/
theorem roundsBy_intCast (rule : RoundingRule) (m : Int) : RoundsBy rule m m := by
  cases rule with
  | nearestAway =>
    have hhalf : ⌊(2⁻¹ : ℚ)⌋ = 0 := by norm_num
    have hhalf' : ⌈(-2⁻¹ : ℚ)⌉ = 0 := by norm_num
    simp [RoundsBy, sub_eq_add_neg, hhalf, hhalf']
  | _ => simp [RoundsBy]

/-- The rule that rounds a negated number to the negated result: only DN and UP change places. -/
def mirror : RoundingRule → RoundingRule
  | .down => .up
  | .up => .down
  | rule => rule

theorem RoundsBy.neg {rule : RoundingRule} {v : ℚ} {m : Int} (hv : v < 0)
    (h : RoundsBy (mirror rule) (-v) m) : RoundsBy rule v (-m) := by
  have h0 : ¬0 ≤ v := not_le.2 hv
  have h0' : 0 ≤ -v := by linarith
  cases rule with
  | towardZero =>
    obtain rfl := h
    rw [RoundsBy, if_neg h0, if_pos h0', Int.floor_neg, neg_neg]
  | awayFromZero =>
    obtain rfl := h
    rw [RoundsBy, if_neg h0, if_pos h0', Int.ceil_neg, neg_neg]
  | nearestAway =>
    obtain rfl := h
    rw [RoundsBy, if_neg h0, if_pos h0', ← Int.ceil_neg, neg_add, neg_neg, sub_eq_add_neg]
  | nearestEven =>
    have hdist : |((-m : Int) : ℚ) - v| = |(m : ℚ) - -v| := by
      rw [← abs_neg]
      push_cast
      ring_nf
    rw [RoundsBy, hdist, even_neg]
    exact h
  | down =>
    obtain rfl := h
    rw [RoundsBy, Int.ceil_neg, neg_neg]
  | up =>
    obtain rfl := h
    rw [RoundsBy, Int.floor_neg, neg_neg]

/-! ### The magnitude that is kept -/

/-- The roundings of a quotient with a fraction from 0 on and below 1 (43_round.md R234). -/
theorem roundsBy_add_fraction (q : Nat) {y : ℚ} (h0 : 0 ≤ y) (h1 : y < 1) :
    ⌊(q : ℚ) + y⌋ = q ∧ ⌈(q : ℚ) + y⌉ = (if 0 < y then q + 1 else q : Nat) ∧
      RoundsBy .nearestAway (q + y) (if 1 / 2 ≤ y then q + 1 else q : Nat) ∧
      RoundsBy .nearestEven (q + y) (if 1 / 2 < y ∨ y = 1 / 2 ∧ q % 2 = 1 then q + 1 else q : Nat) := by
  have hv : (0 : ℚ) ≤ q + y := by positivity
  refine ⟨?_, ?_, ?_, ?_⟩
  · rw [Int.floor_natCast_add, Int.floor_eq_zero_iff.2 ⟨h0, h1⟩, add_zero]
  · rw [Int.ceil_eq_iff]
    split
    all_goals
      push_cast
      constructor <;> linarith
  · rw [RoundsBy, if_pos hv, eq_comm, Int.floor_eq_iff]
    split
    all_goals
      push_cast
      constructor <;> linarith
  · rw [RoundsBy]
    split
    · next h =>
      have hhalf : 1 / 2 ≤ y := h.elim le_of_lt fun h => h.1.ge
      have hdist : |(((q + 1 : Nat) : Int) : ℚ) - (q + y)| = 1 - y := by
        push_cast
        rw [add_sub_add_left_eq_sub, abs_of_pos (by linarith)]
      rw [hdist]
      refine ⟨by linarith, fun htie => ?_⟩
      have hodd := (h.resolve_left (by linarith)).2
      exact_mod_cast Nat.even_iff.2 (by omega)
    · next h =>
      obtain ⟨hle, htie⟩ := not_or.1 h
      have hdist : |((q : Int) : ℚ) - (q + y)| = y := by
        rw [Int.cast_natCast, sub_add_cancel_left, abs_neg, abs_of_nonneg h0]
      rw [hdist]
      refine ⟨not_lt.1 hle, fun heq => ?_⟩
      have heven := mt (And.intro heq) htie
      exact_mod_cast Nat.even_iff.2 (by omega)

/-- The table of 43_round.md R231 for an operand that is not negative: with a remainder `r` of the divisor `d` it
rounds `q + r / d` by the rule. -/
theorem increment_roundsBy (rule : RoundingRule) {s : Int} (hs : 0 ≤ s) (q : Nat) {r d : Nat} (hd : 2 ∣ d)
    (hr : r < d) :
    RoundsBy rule (q + r / d) (if increment rule s q r (d / 2) then q + 1 else q : Nat) := by
  obtain ⟨half, rfl⟩ := hd
  rw [Nat.mul_div_cancel_left _ two_pos, Nat.cast_mul, Nat.cast_ofNat]
  have hpos : (0 : ℚ) < 2 * half := by exact_mod_cast (by omega : 0 < 2 * half)
  have hfrac0 : (0 : ℚ) ≤ r / (2 * half) := by positivity
  have hfrac1 : (r : ℚ) / (2 * half) < 1 := (div_lt_one hpos).2 (by exact_mod_cast hr)
  have hhalf : (1 / 2 : ℚ) ≤ r / (2 * half) ↔ half ≤ r := by
    rw [le_div_iff₀ hpos, one_div_mul_eq_div, mul_div_cancel_left₀ _ two_ne_zero, Nat.cast_le]
  have habove : (1 / 2 : ℚ) < r / (2 * half) ↔ half < r := by
    rw [lt_div_iff₀ hpos, one_div_mul_eq_div, mul_div_cancel_left₀ _ two_ne_zero, Nat.cast_lt]
  have htie : (r : ℚ) / (2 * half) = 1 / 2 ↔ r = half := by
    rw [div_eq_iff hpos.ne', one_div_mul_eq_div, mul_div_cancel_left₀ _ two_ne_zero, Nat.cast_inj]
  have hzero : (0 : ℚ) < r / (2 * half) ↔ r ≠ 0 := by
    rw [div_pos_iff_of_pos_right hpos, Nat.cast_pos, Nat.pos_iff_ne_zero]
  obtain ⟨hfloor, hceil, haway, heven⟩ := roundsBy_add_fraction q hfrac0 hfrac1
  simp only [hzero] at hceil
  simp only [hhalf] at haway
  simp only [habove, htie] at heven
  have hv : (0 : ℚ) ≤ q + r / (2 * half) := by positivity
  cases rule with
  | towardZero => simp only [RoundsBy, if_pos hv, hfloor, increment, Bool.false_eq_true, if_false]
  | awayFromZero => simp only [RoundsBy, if_pos hv, hceil, increment, decide_eq_true_eq]
  | nearestAway => simpa only [increment, decide_eq_true_eq] using haway
  | nearestEven =>
    simpa only [increment, Bool.or_eq_true, Bool.and_eq_true, decide_eq_true_eq] using heven
  | down =>
    simp only [RoundsBy, hfloor, increment, hs.not_gt, decide_false, Bool.false_and, Bool.false_eq_true, if_false]
  | up => simp only [RoundsBy, hceil, increment, ge_iff_le, hs, decide_true, Bool.true_and, decide_eq_true_eq]

/-- The kept magnitude of a negative operand is that of its negation, with DN and UP exchanged
(43_round.md R231). -/
theorem roundMagnitude_mirror (rule : RoundingRule) {s : Int} (hs : s < 0) (k : Nat) :
    roundMagnitude rule s k = roundMagnitude (mirror rule) (-s) k := by
  have hinc (q r half : Nat) : increment rule s q r half = increment (mirror rule) (-s) q r half := by
    cases rule with
    | down => simp [increment, mirror, hs, hs.le]
    | up => simp [increment, mirror, hs.not_ge, hs.le]
    | _ => rfl
  rw [roundMagnitude_cases, roundMagnitude_cases, Int.natAbs_neg, hinc]

/-- Dropping `k ≥ 1` digits of a magnitude rounds it by the rule (43_round.md R230, R234). -/
theorem roundMagnitude_roundsBy (rule : RoundingRule) (n : Nat) {k : Nat} (hk : k ≠ 0) :
    RoundsBy rule ((n : ℚ) / 10 ^ k) (roundMagnitude rule n k) := by
  have hpos : 0 < 10 ^ k := by positivity
  have hvalue : (n : ℚ) / (10 ^ k : Nat) = (n / 10 ^ k : Nat) + (n % 10 ^ k : Nat) / (10 ^ k : Nat) := by
    have hdiv : (n : ℚ) = (10 ^ k : Nat) * (n / 10 ^ k : Nat) + (n % 10 ^ k : Nat) := by
      exact_mod_cast (Nat.div_add_mod n (10 ^ k)).symm
    conv_lhs => rw [hdiv]
    rw [add_div, mul_div_cancel_left₀ _ (by positivity)]
  rw [← Nat.cast_ofNat, ← Nat.cast_pow, hvalue]
  exact increment_roundsBy rule (Int.natCast_nonneg n) _ (dvd_pow (by decide) hk) (Nat.mod_lt _ hpos)

/-- The signed result of dropping `k ≥ 1` digits is the rounding of the quotient (43_round.md R230, R234). -/
theorem sign_mul_roundMagnitude_roundsBy (rule : RoundingRule) (s : Int) {k : Nat} (hk : k ≠ 0) :
    RoundsBy rule (s / 10 ^ k) (s.sign * roundMagnitude rule s k) := by
  rcases lt_trichotomy s 0 with hs | rfl | hs
  · obtain ⟨n, hn⟩ := Int.eq_ofNat_of_zero_le (neg_nonneg.2 hs.le)
    have hround := roundMagnitude_roundsBy (mirror rule) n hk
    rw [Int.sign_eq_neg_one_of_neg hs, neg_one_mul, roundMagnitude_mirror rule hs, hn]
    refine .neg (div_neg_of_neg_of_pos (by exact_mod_cast hs) (by positivity)) ?_
    rwa [← neg_div, ← Int.cast_neg, hn]
  · simpa using roundsBy_intCast rule 0
  · obtain ⟨n, rfl⟩ := Int.eq_ofNat_of_zero_le hs.le
    rw [Int.sign_eq_one_of_pos hs, one_mul]
    exact roundMagnitude_roundsBy rule n hk

/-! ### RND -/

/-- Rounding never has to leave the range of a word: dropping a digit makes room for the increment
(43_round.md R230). -/
theorem roundCore_drop_ok {a : Decimal} (rule : RoundingRule) {n : Int} (ha : a.inRange) (hn : 0 ≤ n)
    (h : a.exp + n < 0) :
    ∃ w, roundCore a rule n = .ok w ∧
      encodeDecimal (a.sig.sign * roundMagnitude rule a.sig (-(a.exp + n)).toNat) (-n) = .ok w := by
  obtain ⟨hs, hexp, -⟩ := ha
  obtain ⟨k, hk⟩ : ∃ k, (-(a.exp + n)).toNat = k + 1 := ⟨_, (Nat.succ_pred_eq_of_pos (by omega)).symm⟩
  rw [roundCore_drop h, hk]
  have hmag : roundMagnitude rule a.sig (k + 1) < 10 ^ 16 := by
    have hten : a.sig.natAbs / 10 ^ (k + 1) ≤ a.sig.natAbs / 10 :=
      Nat.div_le_div_left (Nat.le_self_pow (by omega) 10) (by decide)
    rw [roundMagnitude_cases]
    split <;> omega
  have hsig : (a.sig.sign * roundMagnitude rule a.sig (k + 1)).natAbs < 10 ^ 16 := by
    rw [Int.natAbs_mul, Int.natAbs_natCast, Int.natAbs_sign]
    split <;> omega
  have henc := encodeDecimal_of_inRange hsig (show -256 ≤ -n by omega) (by omega)
  split
  · next h0 =>
    rw [h0, Nat.cast_zero, mul_zero] at henc ⊢
    exact ⟨0, rfl, word_eq_zero_of_encode_zero henc ▸ henc⟩
  · exact ⟨_, henc, henc⟩

/-- What roundCore answers on a canonical word: the rounding of the value at the scale, as the operand's own word
or with the exponent of the scale (43_round.md R230, R234). -/
theorem roundCore_roundsBy {v : Word} {a : Decimal} (ha : decodeDecimal v = some a) (rule : RoundingRule)
    {n : Int} (hn : 0 ≤ n) :
    ∃ (w : Word) (c : Decimal) (m : Int), roundCore a rule n = .ok w ∧ decodeDecimal w = some c ∧
      c.value * 10 ^ n = m ∧ (0 ≤ a.exp + n → w = v) ∧
      (a.exp + n < 0 → c.sig = 0 ∨ c.exp = -n) ∧ RoundsBy rule (a.value * 10 ^ n) m := by
  have hscale : a.value * 10 ^ n = a.sig * 10 ^ (a.exp + n) := by
    rw [Decimal.value, mul_assoc, ← zpow_add₀ (by norm_num)]
  rcases le_or_gt 0 (a.exp + n) with h | h
  · obtain ⟨k, hk⟩ := Int.eq_ofNat_of_zero_le h
    have hint : a.value * 10 ^ n = (a.sig * 10 ^ k : Int) := by
      rw [hscale, hk, zpow_natCast]
      push_cast
      rfl
    refine ⟨v, a, _, by rw [roundCore_exact h, encode_of_decode ha], ha, hint, fun _ => rfl,
      fun hneg => absurd h hneg.not_ge, ?_⟩
    rw [hint]
    exact roundsBy_intCast rule _
  · obtain ⟨w, hw, henc⟩ := roundCore_drop_ok rule (inRange_of_decode ha) hn h
    obtain ⟨c, hc, hvalue, hor⟩ := exists_decode_of_encode henc
    have hround : RoundsBy rule (a.value * 10 ^ n)
        (a.sig.sign * roundMagnitude rule a.sig (-(a.exp + n)).toNat) := by
      have hk : ((-(a.exp + n)).toNat : Int) = -(a.exp + n) := Int.toNat_of_nonneg (by omega)
      have hquot : a.value * 10 ^ n = a.sig / 10 ^ (-(a.exp + n)).toNat := by
        rw [hscale, ← zpow_natCast, hk, zpow_neg, div_inv_eq_mul]
      rw [hquot]
      exact sign_mul_roundMagnitude_roundsBy rule a.sig (by omega)
    refine ⟨w, c, _, hw, hc, ?_, fun hpos => absurd h hpos.not_gt,
      fun _ => hor.imp (by rintro rfl; rfl) (by rintro rfl; rfl), hround⟩
    rw [hvalue, Decimal.value, mul_assoc, ← zpow_add₀ (by norm_num), neg_add_cancel, zpow_zero, mul_one]

/-- Settles O48: the sign of the value is that of the value at the scale. -/
theorem rndRoundsByTheRule : Obligations.RndRoundsByTheRule := by
  intro s rd ra rule scale a ha hscale
  obtain ⟨w, c, m, hw, hc, hm, hkeep, hexp, hround⟩ := roundCore_roundsBy ha rule hscale
  refine ⟨w, c, m, ?_, hc, hm, hkeep, hexp, ?_⟩
  · exact execRnd_next.2 (.inl ⟨a, ha, .inr ⟨not_lt.2 hscale, .inl ⟨w, hw, rfl⟩⟩⟩)
  · have hsign : 0 ≤ a.value * 10 ^ scale ↔ 0 ≤ a.value := mul_nonneg_iff_of_pos_right (zpow_ten_pos scale)
    cases rule <;> simpa only [RoundsBy, hsign] using hround

end Sys2Proof.Machine
end

section
/-! PROOFS, 43_round.md. DECOMP (43_round.md R236, R237): the integral part is the value truncated, and the
subtraction that leaves the fraction is exact. -/

namespace Sys2Proof.Machine

open Sys2Proof

/-! ### The integral part -/

/-- Truncation keeps the sign and takes the floor of the magnitude (43_round.md R234 item 2). -/
theorem RoundsBy.towardZero_eq {v : ℚ} {m : Int} (h : RoundsBy .towardZero v m) :
    m = SignType.sign v * ⌊|v|⌋ := by
  rw [RoundsBy] at h
  rcases lt_trichotomy v 0 with hv | rfl | hv
  · rw [h, if_neg hv.not_ge, sign_neg hv, abs_of_neg hv, Int.floor_neg]
    simp
  · simpa using h
  · rw [h, if_pos hv.le, sign_pos hv, abs_of_pos hv]
    simp

/-- The sign of a nonzero number, as a number. -/
theorem sign_cast_of_ne_zero {v : ℚ} (hv : v ≠ 0) :
    |(SignType.sign v : ℚ)| = 1 ∧ SignType.sign (SignType.sign v : ℚ) = SignType.sign v := by
  rcases hv.lt_or_gt with h | h
  · simp [sign_neg h]
  · simp [sign_pos h]

/-- What truncation takes off: less than one, and the part of the magnitude that the integral part leaves
(43_round.md R237). -/
theorem RoundsBy.towardZero_spec {v : ℚ} {m : Int} (h : RoundsBy .towardZero v m) :
    ((m : ℚ) = 0 ∨ SignType.sign (m : ℚ) = SignType.sign v) ∧ |(m : ℚ)| ≤ |v| ∧ |v - m| ≤ |v| ∧ |v - m| < 1 ∧
      m + (SignType.sign v : ℚ) * |v - m| = v := by
  have hm : (m : ℚ) = SignType.sign v * ⌊|v|⌋ := by
    rw [h.towardZero_eq, Int.cast_mul, SignType.intCast_cast]
  have hle := Int.floor_le |v|
  have hlt := Int.lt_floor_add_one |v|
  have hnn : (0 : ℚ) ≤ ⌊|v|⌋ := by exact_mod_cast Int.floor_nonneg.2 (abs_nonneg v)
  rcases eq_or_ne v 0 with rfl | hv
  · obtain rfl : m = 0 := by simpa using hm
    simp
  · obtain ⟨hunit, hsign⟩ := sign_cast_of_ne_zero hv
    have hrest : v - m = SignType.sign v * (|v| - ⌊|v|⌋) := by
      rw [mul_sub, sign_mul_abs, hm]
    have habs : |v - m| = |v| - ⌊|v|⌋ := by
      rw [hrest, abs_mul, hunit, one_mul, abs_of_nonneg (sub_nonneg.2 hle)]
    refine ⟨?_, by rwa [hm, abs_mul, hunit, one_mul, abs_of_nonneg hnn], by linarith, by linarith, ?_⟩
    · rcases hnn.eq_or_lt with h0 | hpos
      · exact .inl (by rw [hm, ← h0, mul_zero])
      · exact .inr (by rw [hm, sign_mul, sign_pos hpos, mul_one, hsign])
    · rw [habs, ← hrest]
      ring

/-! ### The exact subtraction -/

/-- At one exponent the magnitudes of values are those of the significands. -/
theorem abs_value_le_iff {m n x : Int} :
    |(⟨m, x⟩ : Decimal).value| ≤ |(⟨n, x⟩ : Decimal).value| ↔ m.natAbs ≤ n.natAbs := by
  rw [Decimal.abs_value, Decimal.abs_value, mul_le_mul_iff_left₀ (zpow_ten_pos x), Nat.cast_le]

/-- Addition is exact when the operand with the larger exponent is not the larger one, and neither is the sum:
then both have at most 16 digits at the smaller exponent (42_arith.md R185 item 1, 43_round.md R237). -/
theorem addCore_exact {lo hi : Decimal} (hlo : lo.inRange) (hhi : hi.inRange) (hl0 : lo.sig ≠ 0)
    (hh0 : hi.sig ≠ 0) (hexp : lo.exp ≤ hi.exp) (h253 : lo.exp ≤ 253) (hle : |hi.value| ≤ |lo.value|)
    (hsum : |hi.value + lo.value| ≤ |lo.value|) :
    ∃ w c, addCore lo hi = .ok w ∧ decodeDecimal w = some c ∧ c.value = hi.value + lo.value := by
  have hgap : hi.exp - (hi.exp - lo.exp).toNat = lo.exp := by omega
  have hmove := value_mul_pow_ten hi (hi.exp - lo.exp).toNat
  rw [hgap] at hmove
  have hadd := value_add_of_exp_eq (hi.sig * 10 ^ (hi.exp - lo.exp).toNat) lo.sig lo.exp
  rw [hmove] at hadd
  have hfit := abs_value_le_iff.1 (hmove ▸ hle)
  have hfit' := abs_value_le_iff.1 (hadd ▸ hsum)
  rw [Int.natAbs_mul, Int.natAbs_pow, show (10 : Int).natAbs = 10 from rfl] at hfit
  obtain ⟨h16, hmin, hmax⟩ := hlo
  have henc := encodeDecimal_of_inRange (hfit'.trans_lt h16) hmin hmax
  obtain ⟨c, hc, hvalue, -⟩ := exists_decode_of_encode henc
  refine ⟨_, c, ?_, hc, hvalue.trans hadd⟩
  rw [(addIsExactWhenAligned hi lo hhi ⟨h16, hmin, hmax⟩ hh0 hl0 hexp (by omega)).2,
    renorm_inRange (hfit'.trans_lt h16) hmin h253, henc]

/-- DECOMP's subtraction of the integral part is exact (43_round.md R237): it is zero, the operand itself, or has
the exponent 0 above the operand's. -/
theorem addCore_sub_integral {v w : Word} {x i : Decimal} (hx : decodeDecimal v = some x)
    (hi : decodeDecimal w = some i) (hkeep : 0 ≤ x.exp → w = v) (hexp : x.exp < 0 → i.sig = 0 ∨ i.exp = 0)
    (hle : |i.value| ≤ |x.value|) (hsub : |x.value - i.value| ≤ |x.value|) :
    ∃ dw d, addCore x i.negated = .ok dw ∧ decodeDecimal dw = some d ∧ d.value = x.value - i.value := by
  have hneg := inRange_of_decode (decode_negated hi)
  rcases le_or_gt 0 x.exp with h | h
  · obtain rfl := hkeep h
    obtain rfl := Option.some.inj (hx.symm.trans hi)
    exact ⟨0, ⟨0, 0⟩, addCore_negated_self hx, rfl, by simp [Decimal.value]⟩
  by_cases h0 : i.sig = 0
  · refine ⟨v, x, addCore_of_right_zero hx hneg (neg_eq_zero.2 h0), hx, ?_⟩
    rw [i.value_eq_zero_iff.2 h0, sub_zero]
  · have hx0 : x.sig ≠ 0 := fun hx0 => h0 <| by
      rw [x.value_eq_zero_iff.2 hx0, abs_zero, abs_nonpos_iff] at hle
      exact i.value_eq_zero_iff.1 hle
    have hi0 := (hexp h).resolve_left h0
    have hexact := addCore_exact (inRange_of_decode hx) hneg hx0 (neg_ne_zero.2 h0) (by simp only; omega)
      (by omega) (by rwa [← Decimal.negated, i.negated_value, abs_neg])
    rw [← Decimal.negated, i.negated_value, neg_add_eq_sub] at hexact
    exact hexact hsub

/-! ### DECOMP -/

/-- Taking the magnitude of a canonical word gives one (42_arith.md R197). -/
theorem absCore_ok {w : Word} {a : Decimal} (ha : decodeDecimal w = some a) :
    ∃ v c, absCore a = .ok v ∧ decodeDecimal v = some c ∧ c.value = |a.value| := by
  obtain ⟨hs, h1, h2⟩ := inRange_of_decode ha
  have henc := encodeDecimal_of_inRange (s := a.sig.natAbs) (by rwa [Int.natAbs_natCast]) h1 h2
  obtain ⟨c, hc, hvalue, -⟩ := exists_decode_of_encode henc
  exact ⟨_, c, henc, hc, by rw [hvalue, Decimal.abs_value, Decimal.value, Int.cast_natCast]⟩

/-- Settles O50: the fraction is what truncation takes off, and the subtraction gives it exactly. -/
theorem decomposeLaw : Obligations.DecomposeLaw := by
  intro s rd ra rb x hx hne
  obtain ⟨wi, i, m, hwi, hi, hm, hkeep, hexp, hround⟩ := roundCore_roundsBy hx .towardZero le_rfl
  rw [zpow_zero, mul_one] at hm hround
  obtain ⟨hsign, hle, hsub, hlt, hlaw⟩ := hround.towardZero_spec
  rw [← hm] at hsign hle hsub hlt hlaw
  rw [add_zero] at hkeep hexp
  obtain ⟨dw, d, hdw, hd, hdvalue⟩ := addCore_sub_integral hx hi hkeep hexp hle hsub
  obtain ⟨wf, f, hwf, hf, hfvalue⟩ := absCore_ok hd
  rw [hdvalue] at hfvalue
  have hcore : decompCore x = .ok (wi, wf) := decompCore_ok_iff.2 ⟨i, dw, d, hwi, hi, hdw, hd, hwf⟩
  refine ⟨wi, wf, i, f, ?_, hi, hf, ⟨m, hm⟩, ?_, ?_, ?_, ?_⟩
  · exact execDecomp_next.2 (.inr ⟨hne, .inl ⟨x, hx, .inl ⟨_, hcore, rfl⟩⟩⟩)
  · rw [i.value_eq_zero_iff, i.sign_value, x.sign_value] at hsign
    exact hsign.imp_right fun h => by rw [Int.sign_eq_sign, Int.sign_eq_sign, h]
  · rw [hfvalue]
    exact abs_nonneg _
  · rwa [hfvalue]
  · rw [hfvalue, Int.sign_eq_sign, SignType.intCast_cast, ← x.sign_value, hlaw]

end Sys2Proof.Machine
end

section
/-! PROOFS, 44_compare.md. CMPEQ and CMP (44_compare.md R261 to R267): equality by alignment is equality of the
values, and the three answers of CMP are the three ways in which two values can stand to each other. -/

namespace Sys2Proof.Machine

open Sys2Proof

variable {a b : Decimal}

/-! ### CMPEQ -/

/-- Values are equal when the significand at the larger exponent, moved down by the gap, is the other one
(44_compare.md R263). -/
theorem value_eq_iff_of_exp_le (h : b.exp ≤ a.exp) :
    a.value = b.value ↔ a.sig * 10 ^ (a.exp - b.exp).toNat = b.sig := by
  have hgap : a.exp - (a.exp - b.exp).toNat = b.exp := by omega
  have hmove := value_mul_pow_ten a (a.exp - b.exp).toNat
  rw [hgap] at hmove
  rw [← hmove, Decimal.value, Decimal.value, mul_left_inj' (zpow_ten_pos b.exp).ne', Int.cast_inj]

/-- A significand that meets the other one when moved down has at most 16 digits together with the gap, so neither
limit of the alignment refuses it (44_compare.md R263). -/
theorem eqAligned_iff_value_eq (ha : a.sig ≠ 0) (hb : b.sig.natAbs < 10 ^ 16) (h : b.exp ≤ a.exp) :
    eqAligned a b = true ↔ a.value = b.value := by
  rw [eqAligned_iff ha, value_eq_iff_of_exp_le h]
  refine ⟨fun ⟨_, _, hsig⟩ => hsig, fun hsig => ?_⟩
  have hdigits : ndigits a.sig.natAbs + (a.exp - b.exp).toNat ≤ 16 := by
    rw [← ndigits_natAbs_mul_pow ha, hsig]
    exact (ndigits_le_iff (Int.natAbs_ne_zero.2 (hsig ▸ mul_pow_ten_ne_zero ha _))).2 hb
  exact ⟨by omega, by omega, hsig⟩

/-- `eqCore` is equality of the values (44_compare.md R262, R263). -/
theorem eqCore_iff_value_eq {wa wb : Word} (ha : decodeDecimal wa = some a) (hb : decodeDecimal wb = some b) :
    eqCore wa a wb b = true ↔ a.value = b.value := by
  by_cases hw : wa = wb
  · subst hw
    obtain rfl := Option.some.inj (ha.symm.trans hb)
    exact iff_of_true (eqCore_same wa) rfl
  by_cases h0 : a.sig = 0 ∨ b.sig = 0
  · rw [eqCore_zero hw h0]
    rcases h0 with h | h
    · rw [and_iff_right h, a.value_eq_zero_iff.2 h, ← b.value_eq_zero_iff, eq_comm]
    · rw [and_iff_left h, b.value_eq_zero_iff.2 h, a.value_eq_zero_iff]
  · obtain ⟨ha0, hb0⟩ := not_or.1 h0
    rw [eqCore_nonzero hw ha0 hb0]
    split
    · next hlt => rw [eqAligned_iff_value_eq hb0 (inRange_of_decode ha).1 hlt.le, eq_comm]
    · next hge => exact eqAligned_iff_value_eq ha0 (inRange_of_decode hb).1 (not_lt.1 hge)

/-- Settles O51: what CMPEQ leaves in RESULT is `eqCore`. -/
theorem cmpeqIsValueEquality : Obligations.CmpeqIsValueEquality := by
  intro s ra rb a b ha hb
  simp only [← eqCore_iff_value_eq ha hb]
  exact execCmpeq_next.2 (.inl ⟨a, ha, .inl ⟨b, hb, rfl⟩⟩)

/-! ### CMP -/

/-- The word of the sign of a difference, by the order of the two numbers (44_compare.md R264, R267). -/
theorem word64_sign_sub (x y : ℚ) :
    word64 (SignType.sign (x - y) : SignType) =
      if x < y then 0xFFFFFFFFFFFFFFFF else if x = y then 0 else 1 := by
  rcases lt_trichotomy x y with hlt | rfl | hgt
  · rw [if_pos hlt, sign_neg (sub_neg.2 hlt)]
    rfl
  · rw [if_neg (lt_irrefl x), if_pos rfl, sub_self, sign_zero]
    rfl
  · rw [if_neg hgt.not_gt, if_neg hgt.ne', sign_pos (sub_pos.2 hgt)]
    rfl

/-- Settles O52: CMP leaves the sign of the difference of the values. -/
theorem cmpIsValueOrder : Obligations.CmpIsValueOrder := by
  intro s ra rb a b ha hb
  rw [exec_cmp_of_holds ha hb, word64_sign_sub]
  rfl

end Sys2Proof.Machine
end

section
/-! PROOFS, 45_string.md. The scanner's digits (45_string.md R283, R284): after any run of mantissa digits its
registers hold the first 18 significant ones, each at its own place. -/

namespace Sys2Proof.Machine

open Sys2Proof

/-! ### Significant digits -/

theorem Literal.significant_eq (l : Literal) : l.significant = dropLeadingZeros (l.int ++ l.fracDigits) := by
  have h (ds : List Byte) : (ds.dropWhile fun b => b == 0x30) = dropLeadingZeros ds := by
    induction ds with
    | nil => rfl
    | cons d ds ih => simp only [List.dropWhile_cons, dropLeadingZeros, beq_iff_eq, ih]
  exact h _

theorem dropLeadingZeros_length_le (ds : List Byte) : (dropLeadingZeros ds).length ≤ ds.length := by
  induction ds with
  | nil => exact le_rfl
  | cons d ds ih =>
    rw [dropLeadingZeros]
    split
    · exact ih.trans (Nat.le_succ _)
    · exact le_rfl

/-- A further digit is significant unless it is one more leading zero. -/
theorem dropLeadingZeros_concat (ds : List Byte) (b : Byte) :
    dropLeadingZeros (ds ++ [b]) =
      if dropLeadingZeros ds = [] ∧ b = 0x30 then [] else dropLeadingZeros ds ++ [b] := by
  induction ds with
  | nil => by_cases hb : b = 0x30 <;> simp [dropLeadingZeros, hb]
  | cons d ds ih =>
    rw [List.cons_append, dropLeadingZeros, dropLeadingZeros]
    split
    · exact ih
    · simp

theorem digitValue_eq_zero_iff {b : Byte} (h : isDigit b = true) : digitValue b = 0 ↔ b = 0x30 :=
  ⟨digitValue_inj (c := 0x30) h rfl, fun hb => hb ▸ rfl⟩

/-- A digit string spells 0 only when it is empty. -/
theorem digitsValue_pos {ds : List Byte} {n : Nat} (h : spellsNumber ds n) (hne : ds ≠ []) : n ≠ 0 :=
  fun h0 => hne (spellsNumber_zero (h0 ▸ h))

/-- The beginning of a digit string is one. -/
theorem spellsNumber_take {ds : List Byte} {n : Nat} (h : spellsNumber ds n) {k : Nat} (hk : k ≠ 0) :
    spellsNumber (ds.take k) (digitsValue (ds.take k)) := by
  obtain ⟨hd, -, hz⟩ := h
  refine ⟨List.all_eq_true.2 fun b hb => List.all_eq_true.1 hd b (List.mem_of_mem_take hb), rfl, ?_⟩
  rwa [List.head?_take, if_neg hk]

/-! ### The registers -/

/-- The scanner's registers after the mantissa digits `ds`, `p` of them before the point (45_string.md R283). -/
def Scan.after (p : Nat) (ds : List Byte) : Scan where
  sig := digitsValue ((dropLeadingZeros ds).take 18)
  cnt := ((dropLeadingZeros ds).take 18).length
  exp := p - (ds.length - (dropLeadingZeros ds).length : Nat) - ((dropLeadingZeros ds).take 18).length
  ndig := ds.length

theorem Scan.after_nil : Scan.after 0 [] = ⟨0, 0, 0, 0⟩ := rfl

theorem Scan.after_sig_eq_zero_iff (p : Nat) {ds : List Byte} (h : ds.all isDigit = true) :
    (Scan.after p ds).sig = 0 ↔ dropLeadingZeros ds = [] := by
  have hspell := spellsNumber_take (dropLeadingZeros_spells h) (k := 18) (by decide)
  refine ⟨fun h0 => ?_, fun h0 => by rw [Scan.after, h0]; rfl⟩
  by_contra hne
  exact digitsValue_pos hspell (by simpa using hne) h0

/-- One digit of the integer part: a leading zero, one of the first 18 significant digits, or a later one
(45_string.md R283). -/
theorem Scan.integerDigit_after (p : Nat) {ds : List Byte} {b : Byte} (h : ds.all isDigit = true)
    (hb : isDigit b = true) :
    (Scan.after p ds).integerDigit (digitValue b) = Scan.after (p + 1) (ds ++ [b]) := by
  have hle := dropLeadingZeros_length_le ds
  have hzero := Scan.after_sig_eq_zero_iff p h
  have hcnt : (Scan.after p ds).cnt = min 18 (dropLeadingZeros ds).length := List.length_take
  unfold Scan.integerDigit
  split
  · next hz =>
    rw [hzero, digitValue_eq_zero_iff hb] at hz
    simp [Scan.after, dropLeadingZeros_concat, hz]
  · next hz =>
    rw [hzero, digitValue_eq_zero_iff hb] at hz
    split
    · next hlt =>
      have hall : dropLeadingZeros ds ++ [b] = (dropLeadingZeros ds ++ [b]).take 18 :=
        (List.take_of_length_le (by simp; omega)).symm
      rw [Scan.after, Scan.after, dropLeadingZeros_concat, if_neg hz, ← hall,
        List.take_of_length_le (by omega), digitsValue_concat]
      simp only [List.length_append, List.length_singleton, Scan.mk.injEq, true_and, and_true]
      omega
    · next hge =>
      rw [Scan.after, Scan.after, dropLeadingZeros_concat, if_neg hz, List.take_append_of_le_length (by omega)]
      simp only [List.length_append, List.length_singleton, List.length_take, Scan.mk.injEq, true_and, and_true]
      omega

/-- A digit of the fraction does what one of the integer part does, and lowers the exponent by one. -/
theorem Scan.fractionDigit_eq (a : Scan) (v : Nat) :
    a.fractionDigit v = { a.integerDigit v with exp := (a.integerDigit v).exp - 1 } := by
  unfold Scan.fractionDigit Scan.integerDigit
  split
  · rfl
  · split <;> simp

theorem Scan.fractionDigit_after (p : Nat) {ds : List Byte} {b : Byte} (h : ds.all isDigit = true)
    (hb : isDigit b = true) :
    (Scan.after p ds).fractionDigit (digitValue b) = Scan.after p (ds ++ [b]) := by
  rw [Scan.fractionDigit_eq, Scan.integerDigit_after p h hb]
  simp only [Scan.after, Scan.mk.injEq, true_and, and_true]
  omega

/-- The integer part of the mantissa (45_string.md R283). -/
theorem foldl_integerDigit (p : Nat) {pre ds : List Byte} (hpre : pre.all isDigit = true)
    (h : ds.all isDigit = true) :
    ds.foldl (fun a b => a.integerDigit (digitValue b)) (Scan.after p pre) =
      Scan.after (p + ds.length) (pre ++ ds) := by
  induction ds generalizing p pre with
  | nil => simp
  | cons d ds ih =>
    obtain ⟨hd, hds⟩ := Bool.and_eq_true_iff.1 h
    rw [List.foldl_cons, Scan.integerDigit_after p hpre hd, ih (p + 1) (by simp [hpre, hd]) hds]
    rw [List.append_assoc, List.singleton_append, List.length_cons, Nat.add_assoc, Nat.add_comm 1]

/-- The fraction of the mantissa (45_string.md R283). -/
theorem foldl_fractionDigit (p : Nat) {pre ds : List Byte} (hpre : pre.all isDigit = true)
    (h : ds.all isDigit = true) :
    ds.foldl (fun a b => a.fractionDigit (digitValue b)) (Scan.after p pre) = Scan.after p (pre ++ ds) := by
  induction ds generalizing pre with
  | nil => simp
  | cons d ds ih =>
    obtain ⟨hd, hds⟩ := Bool.and_eq_true_iff.1 h
    rw [List.foldl_cons, Scan.fractionDigit_after p hpre hd, ih (by simp [hpre, hd]) hds]
    simp

end Sys2Proof.Machine
end

section
/-! PROOFS, 45_string.md. PARSE (45_string.md R281 to R285): the scanner accepts exactly the literals of the
grammar, and collects from each the decimal of its first 18 significant digits. -/

namespace Sys2Proof.Machine

open Sys2Proof

/-! ### Where each part of the scanner stops -/

/-- The byte after a part, if there is one, is not of the part's class `p`. -/
def StopsAt (p : Byte → Bool) (rest : List Byte) : Prop := ∀ c cs, rest = c :: cs → p c = false

theorem stopsAt_nil (p : Byte → Bool) : StopsAt p [] := nofun

theorem stopsAt_cons {p : Byte → Bool} {c : Byte} (h : p c = false) (cs : List Byte) : StopsAt p (c :: cs) := by
  rintro _ _ ⟨⟩
  exact h

theorem takeWhile_of_stopsAt {p : Byte → Bool} {xs rest : List Byte} (hx : xs.all p = true)
    (h : StopsAt p rest) : (xs ++ rest).takeWhile p = xs := by
  rw [List.takeWhile_append_of_pos (List.all_eq_true.1 hx)]
  cases rest with
  | nil => simp
  | cons c cs => simp [h c cs rfl]

/-- A string is cut in one way into bytes of a class and a rest that does not start with one. -/
theorem append_inj_of_stopsAt {p : Byte → Bool} {xs ys r t : List Byte} (heq : xs ++ r = ys ++ t)
    (hx : xs.all p = true) (hy : ys.all p = true) (hr : StopsAt p r) (ht : StopsAt p t) : xs = ys ∧ r = t := by
  have hxy : xs = ys := by rw [← takeWhile_of_stopsAt hx hr, heq, takeWhile_of_stopsAt hy ht]
  exact ⟨hxy, List.append_cancel_left (hxy ▸ heq)⟩

theorem skipWhitespace_append {ws rest : List Byte} (hws : ws.all isWhitespace = true)
    (h : StopsAt isWhitespace rest) : skipWhitespace (ws ++ rest) = rest := by
  obtain ⟨ws', heq, hws', hstop⟩ := skipWhitespace_spec (ws ++ rest)
  exact (append_inj_of_stopsAt heq hws hws' h hstop).2.symm

theorem takeSign_append {sg rest : List Byte} (hsg : optionalSign sg) (h : StopsAt isSign rest) :
    takeSign (sg ++ rest) = (decide (sg = [0x2D]), rest) := by
  rcases hsg with rfl | ⟨c, rfl, hc⟩
  · cases rest with
    | nil => rfl
    | cons c cs => simp [takeSign, h c cs rfl]
  · simp only [List.singleton_append, takeSign, if_pos hc, List.singleton_inj, beq_eq_decide]

theorem scanInteger_append {ds rest : List Byte} (hds : ds.all isDigit = true) (h : StopsAt isDigit rest) :
    scanInteger (ds ++ rest) ⟨0, 0, 0, 0⟩ = (Scan.after ds.length ds, rest) := by
  obtain ⟨ds', heq, hds', hscan, hstop⟩ := scanInteger_spec (ds ++ rest) ⟨0, 0, 0, 0⟩
  obtain ⟨rfl, hrest⟩ := append_inj_of_stopsAt heq hds hds' h hstop
  rw [← Scan.after_nil, foldl_integerDigit 0 rfl hds, Nat.zero_add, List.nil_append] at hscan
  exact Prod.ext hscan hrest.symm

theorem scanFraction_append {pre ds rest : List Byte} (p : Nat) (hpre : pre.all isDigit = true)
    (hds : ds.all isDigit = true) (h : StopsAt isDigit rest) :
    scanFraction (ds ++ rest) (Scan.after p pre) = (Scan.after p (pre ++ ds), rest) := by
  obtain ⟨ds', heq, hds', hscan, hstop⟩ := scanFraction_spec (ds ++ rest) (Scan.after p pre)
  obtain ⟨rfl, hrest⟩ := append_inj_of_stopsAt heq hds hds' h hstop
  rw [foldl_fractionDigit p hpre hds] at hscan
  exact Prod.ext hscan hrest.symm

/-! ### The mantissa -/

/-- No exponent starts with a digit or a point. -/
theorem optionalExponent_stopsAt {expo sg ds : List Byte} (h : optionalExponent expo sg ds) :
    StopsAt isDigit expo ∧ StopsAt (· == 0x2E) expo := by
  rcases h with ⟨rfl, -, -⟩ | ⟨m, rfl, hm, -⟩
  · exact ⟨stopsAt_nil _, stopsAt_nil _⟩
  · obtain ⟨-, hd, -, hp⟩ := isExponentMark_not_others m hm
    exact ⟨stopsAt_cons hd _, stopsAt_cons (p := (· == 0x2E)) (beq_eq_false_iff_ne.2 hp) _⟩

/-- What the scanner makes of a mantissa and leaves of its input (45_string.md R283). -/
theorem scanMantissa_append {int frac f rest : List Byte} (hint : int.all isDigit = true)
    (hfrac : optionalFraction frac f) (hdigit : StopsAt isDigit rest) (hpoint : frac = [] → StopsAt (· == 0x2E) rest) :
    scanMantissa (int ++ frac ++ rest) = (Scan.after int.length (int ++ f), rest) := by
  rw [List.append_assoc]
  unfold scanMantissa
  rcases hfrac with ⟨rfl, rfl⟩ | ⟨rfl, hf⟩
  · rw [List.nil_append, List.append_nil, scanInteger_append hint hdigit]
    cases rest with
    | nil => rfl
    | cons c cs => exact if_neg (beq_eq_false_iff_ne.1 (hpoint rfl c cs rfl))
  · rw [List.cons_append, scanInteger_append hint (stopsAt_cons (by decide) _)]
    exact scanFraction_append _ hint hf hdigit

/-- Every string starts with a mantissa, which may be empty, and the scanner takes it. -/
theorem exists_mantissa (bs : List Byte) :
    ∃ int frac f rest, bs = int ++ frac ++ rest ∧ int.all isDigit = true ∧ optionalFraction frac f ∧
      scanMantissa bs = (Scan.after int.length (int ++ f), rest) := by
  obtain ⟨int, heq, hint, -, hstop⟩ := scanInteger_spec bs ⟨0, 0, 0, 0⟩
  generalize (scanInteger bs ⟨0, 0, 0, 0⟩).2 = tail at heq hstop
  by_cases hpoint : StopsAt (· == 0x2E) tail
  · have hbs : bs = int ++ [] ++ tail := by rw [heq, List.append_nil]
    exact ⟨int, [], [], tail, hbs, hint, .inl ⟨rfl, rfl⟩,
      hbs ▸ scanMantissa_append hint (.inl ⟨rfl, rfl⟩) hstop fun _ => hpoint⟩
  · obtain ⟨c, cs, rfl, hc⟩ : ∃ c cs, tail = c :: cs ∧ c = 0x2E := by
      simpa [StopsAt] using hpoint
    obtain ⟨f, hcs, hf, -, hstop'⟩ := scanFraction_spec cs (Scan.after int.length int)
    generalize (scanFraction cs (Scan.after int.length int)).2 = rest at hcs hstop'
    have hbs : bs = int ++ c :: f ++ rest := by rw [heq, hcs, List.append_assoc, List.cons_append]
    have hfrac : optionalFraction (c :: f) f := .inr ⟨by rw [hc], hf⟩
    exact ⟨int, c :: f, f, rest, hbs, hint, hfrac, hbs ▸ scanMantissa_append hint hfrac hstop' nofun⟩

/-! ### The exponent -/

theorem scanExponent_of_optionalExponent {expo sg ds : List Byte} (h : optionalExponent expo sg ds) :
    scanExponent expo = .ok (if sg = [0x2D] then -(digitsValue ds : Int) else digitsValue ds, []) := by
  rcases h with ⟨rfl, rfl, rfl⟩ | ⟨m, rfl, hm, hsg, hds, h1, h3⟩
  · rfl
  · have hstop : StopsAt isSign ds := by
      rintro c cs rfl
      exact (isDigit_not_others c (Bool.and_eq_true_iff.1 hds).1).2.1
    have hdigits : scanExponentDigits ds 0 0 = .ok (digitsValue ds, []) :=
      (scanExponentDigits_ok_iff (by decide)).2
        ⟨ds, (List.append_nil ds).symm, hds, by omega, by omega, rfl, nofun⟩
    rw [scanExponent, if_pos hm, takeSign_append hsg hstop, hdigits]
    simp

theorem optionalExponent_of_scanExponent {bs : List Byte} {e : Int} (h : scanExponent bs = .ok (e, [])) :
    ∃ sg ds, optionalExponent bs sg ds := by
  cases bs with
  | nil => exact ⟨[], [], .inl ⟨rfl, rfl, rfl⟩⟩
  | cons m bs =>
    rw [scanExponent] at h
    split at h
    · next hm =>
      obtain ⟨⟨v, rest⟩, hr, hret⟩ := except_bind_ok_iff.1 h
      obtain rfl : rest = [] := (Prod.mk.inj (Except.ok.inj hret)).2
      obtain ⟨ds, hds, hall, h1, h3, -, -⟩ := (scanExponentDigits_ok_iff (by decide)).1 hr
      obtain ⟨sg, hsg, hopt, -, -⟩ := takeSign_spec bs
      rw [hds, List.append_nil] at hsg
      exact ⟨sg, ds, .inr ⟨m, by rw [← hsg], hm, hopt, hall, by omega, by omega⟩⟩
    · cases h

/-! ### The whole literal -/

/-- What `parseLiteral` answers on success (45_string.md R283), with `rest` what follows the sign. -/
theorem parseLiteral_ok_iff {bs rest : List Byte} {neg : Bool} {a : Decimal}
    (h : takeSign (skipWhitespace bs) = (neg, rest)) :
    parseLiteral bs = .ok a ↔
      (scanMantissa rest).1.ndig ≠ 0 ∧ ∃ e, scanExponent (scanMantissa rest).2 = .ok (e, []) ∧
        a = ⟨if neg then -((scanMantissa rest).1.sig : Int) else (scanMantissa rest).1.sig,
          (scanMantissa rest).1.exp + e⟩ := by
  unfold parseLiteral
  simp only [h]
  split
  · next h0 => simp [h0]
  · next h0 =>
    simp only [except_bind_ok_iff]
    refine ⟨fun ⟨⟨e, left⟩, he, hret⟩ => ?_, fun ⟨_, e, he, ha⟩ => ⟨(e, []), he, by rw [ha]; rfl⟩⟩
    by_cases hleft : left = []
    · subst hleft
      exact ⟨h0, e, he, (Except.ok.inj hret).symm⟩
    · rw [if_pos hleft] at hret
      cases hret

/-- A mantissa starts with a digit or the point, so neither with whitespace nor with a sign. -/
theorem mantissa_stopsAt {int frac f : List Byte} (hint : int.all isDigit = true)
    (hfrac : optionalFraction frac f) (h1 : 1 ≤ int.length + f.length) (rest : List Byte) :
    StopsAt isWhitespace (int ++ frac ++ rest) ∧ StopsAt isSign (int ++ frac ++ rest) := by
  cases int with
  | nil =>
    rcases hfrac with ⟨-, rfl⟩ | ⟨rfl, -⟩
    · exact absurd h1 (by decide)
    · exact ⟨stopsAt_cons (by decide) _, stopsAt_cons (by decide) _⟩
  | cons d ds =>
    obtain ⟨hw, hs, -⟩ := isDigit_not_others d (Bool.and_eq_true_iff.1 hint).1
    exact ⟨stopsAt_cons hw _, stopsAt_cons hs _⟩

theorem optionalSign_stopsAt {sg rest : List Byte} (hsg : optionalSign sg) (h : StopsAt isWhitespace rest) :
    StopsAt isWhitespace (sg ++ rest) := by
  rcases hsg with rfl | ⟨c, rfl, hc⟩
  · exact h
  · exact stopsAt_cons (isSign_not_others c hc).1 _

/-- The scanner accepts every literal of the grammar and collects its first 18 significant digits
(45_string.md R281, R283). -/
theorem parseLiteral_bytes {l : Literal} (h : l.Legal) : parseLiteral l.bytes = .ok l.kept := by
  obtain ⟨hws, hsg, hint, hfrac, hexpo, h1⟩ := h
  obtain ⟨hdigit, hpoint⟩ := optionalExponent_stopsAt hexpo
  obtain ⟨hstopW, hstopS⟩ := mantissa_stopsAt hint hfrac h1 l.expo
  have hbytes : l.bytes = l.ws ++ (l.sg ++ (l.int ++ l.frac ++ l.expo)) := by
    simp only [Literal.bytes, List.append_assoc]
  have hsign : takeSign (skipWhitespace l.bytes) = (decide (l.sg = [0x2D]), l.int ++ l.frac ++ l.expo) := by
    rw [hbytes, skipWhitespace_append hws (optionalSign_stopsAt hsg hstopW), takeSign_append hsg hstopS]
  rw [parseLiteral_ok_iff hsign, scanMantissa_append hint hfrac hdigit fun _ => hpoint]
  refine ⟨?_, _, scanExponent_of_optionalExponent hexpo, ?_⟩
  · simp only [Scan.after, List.length_append]
    omega
  · rw [Literal.kept, Literal.significant_eq, Literal.exponent]
    simp only [Scan.after, decide_eq_true_eq, List.length_append, Decimal.mk.injEq, true_and]
    omega

/-- The scanner accepts nothing but literals of the grammar (45_string.md R281, R283). -/
theorem exists_literal_of_parseLiteral {bs : List Byte} {a : Decimal} (h : parseLiteral bs = .ok a) :
    ∃ l : Literal, l.Legal ∧ l.bytes = bs := by
  obtain ⟨ws, hbs, hws, -⟩ := skipWhitespace_spec bs
  obtain ⟨sg, hsg, hopt, -, -⟩ := takeSign_spec (skipWhitespace bs)
  obtain ⟨hndig, e, hexpo, -⟩ := (parseLiteral_ok_iff (Prod.eta _).symm).1 h
  obtain ⟨int, frac, f, rest, hmant, hint, hfrac, hscan⟩ := exists_mantissa (takeSign (skipWhitespace bs)).2
  rw [hscan] at hndig hexpo
  obtain ⟨esg, eds, hoptE⟩ := optionalExponent_of_scanExponent hexpo
  simp only [Scan.after, List.length_append] at hndig
  have h1 : 1 ≤ int.length + f.length := by omega
  refine ⟨⟨ws, sg, int, frac, f, rest, esg, eds⟩, ⟨hws, hopt, hint, hfrac, hoptE, h1⟩, ?_⟩
  rw [hmant] at hsg
  rw [hbs, hsg]
  simp only [Literal.bytes, List.append_assoc]

/-- PARSE's core raises E_PARSE exactly outside the grammar: renorm raises E_OVERFLOW only
(45_string.md R281, R283, 42_arith.md R180). -/
theorem parseCore_parse_error_iff {bs : List Byte} :
    parseCore bs = .error .parse ↔ ¬∃ l : Literal, l.Legal ∧ l.bytes = bs := by
  rw [parseCore, except_bind_error_iff]
  constructor
  · rintro (h | ⟨a, -, h⟩) ⟨l, hl, rfl⟩
    · rw [parseLiteral_bytes hl] at h
      cases h
    · exact absurd ((renormStaysInRange a.sig a.exp).2.1 _ h) (by decide)
  · intro h
    cases hp : parseLiteral bs with
    | ok a => exact absurd (exists_literal_of_parseLiteral hp) h
    | error c => exact .inl (parseLiteral_error hp ▸ rfl)

theorem parseCore_bytes {l : Literal} (h : l.Legal) : parseCore l.bytes = renorm l.kept.sig l.kept.exp := by
  rw [parseCore, parseLiteral_bytes h, except_ok_bind]

/-! ### The command -/

theorem exec_parse_of_inputBytes {s : State} {bs : List Byte} (h : s.inputBytes = .ok bs) (rd : Fin 8) :
    exec (.parse rd) s = s.completeWord rd (parseCore bs) := by
  have hexec : exec (.parse rd) s = s.complete (s.inputBytes >>= fun bs => parseCore bs >>= fun w =>
    pure (s.writeD rd w)) := rfl
  rw [hexec, h, except_ok_bind, State.completeWord]

theorem exec_parse_of_bad_length {s : State} (h : s.strlen.toNat = 0 ∨ 64 < s.strlen.toNat) (rd : Fin 8) :
    exec (.parse rd) s = .next (s.errored 6) :=
  execParse_next.2 (.inr ⟨.parse, State.inputBytes_error_iff.2 ⟨h, rfl⟩, (State.fail_eq_errored s .parse).symm⟩)

theorem ErrorCode.code_eq_six_iff {c : ErrorCode} : c.code = 6 ↔ c = .parse := by
  cases c <;> decide

/-- A command that writes one word completes with E_PARSE exactly when its core raises it: no other error has
its code, and a success leaves ERR = 0. -/
theorem State.completeWord_eq_errored_iff {s : State} {rd : Fin 8} {r : Except ErrorCode Word} :
    s.completeWord rd r = .next (s.errored 6) ↔ r = .error .parse := by
  refine ⟨fun h => ?_, fun h => by rw [h]; exact State.completeWord_error s rd .parse⟩
  cases r with
  | ok w =>
    have herr := congrArg (fun t => t.status.err) (Host.Outcome.next.inj h)
    cases herr
  | error c =>
    rw [State.completeWord_error] at h
    have hcode : c.code = 6 := congrArg (fun t => t.status.ecode) (Host.Outcome.next.inj h)
    rw [ErrorCode.code_eq_six_iff.1 hcode]

/-- Settles O54: with a length of 1 to 64 the error is the core's. -/
theorem parseAcceptsExactlyTheGrammar : Obligations.ParseAcceptsExactlyTheGrammar := by
  intro s rd
  by_cases hlen : s.strlen.toNat = 0 ∨ 64 < s.strlen.toNat
  · exact iff_of_true (exec_parse_of_bad_length hlen rd) (or_assoc.1 (.inl hlen))
  · have hbs : s.inputBytes = .ok _ := State.inputBytes_ok_iff.2 ⟨by omega, by omega, rfl⟩
    rw [← or_assoc, or_iff_right hlen, exec_parse_of_inputBytes hbs, State.completeWord_eq_errored_iff,
      parseCore_parse_error_iff]

theorem Literal.one_le_length_bytes {l : Literal} (h : l.Legal) : 1 ≤ l.bytes.length := by
  obtain ⟨-, -, -, hfrac, -, h1⟩ := h
  have hle : l.fracDigits.length ≤ l.frac.length := by
    rcases hfrac with ⟨-, hf⟩ | ⟨hf, -⟩ <;> simp [hf]
  simp only [Literal.bytes, List.length_append]
  omega

/-- The significant digits of a literal spell its significand. -/
theorem Literal.significant_spells {l : Literal} (h : l.Legal) :
    spellsNumber l.significant (digitsValue (l.int ++ l.fracDigits)) := by
  obtain ⟨-, -, hint, hfrac, -, -⟩ := h
  rw [Literal.significant_eq]
  refine dropLeadingZeros_spells ?_
  rcases hfrac with ⟨-, hf⟩ | ⟨-, hf⟩ <;> simp [hint, hf]

theorem Literal.significant_length_le (l : Literal) :
    l.significant.length ≤ l.int.length + l.fracDigits.length := by
  rw [Literal.significant_eq, ← List.length_append]
  exact dropLeadingZeros_length_le _

/-- With at most 18 significant digits nothing is dropped (45_string.md R284). -/
theorem Literal.kept_eq_decimal {l : Literal} (h : l.Legal) (h18 : l.significant.length ≤ 18) :
    l.kept = l.decimal := by
  obtain ⟨-, hvalue, -⟩ := Literal.significant_spells h
  have hle := l.significant_length_le
  rw [Literal.kept, Literal.decimal, List.take_of_length_le h18, hvalue, Decimal.mk.injEq]
  exact ⟨rfl, by omega⟩

/-- Settles O55: PARSE's core on a literal is renorm of what the scanner kept. -/
theorem parseGivesTheDecimalSpelled : Obligations.ParseGivesTheDecimalSpelled := by
  intro s rd l hl hbytes h64
  have hlen : s.strlen.toNat = l.bytes.length := by rw [hbytes, Memory.readBytes_length]
  have hpos := Literal.one_le_length_bytes hl
  have hexec := exec_parse_of_inputBytes (State.inputBytes_ok_iff.2 ⟨by omega, h64, hbytes⟩) rd
  rw [parseCore_bytes hl] at hexec
  refine ⟨fun hlt => ?_, fun hle => ?_, fun h18 => ?_⟩
  · obtain ⟨w, hw⟩ := exists_renorm_ok hlt
    exact ⟨w, hw, by rw [hexec, hw, State.completeWord_ok]⟩
  · rw [hexec, renorm_error_of_bound_le hle, State.completeWord_error]
    rfl
  · rw [Literal.kept_eq_decimal hl (l.significant_length_le.trans h18)]
    exact ⟨rfl, rfl⟩

end Sys2Proof.Machine
end

section
/-! PROOFS, 45_string.md. The string that FMT's core builds has the form of 45_string.md R291 and R292. -/

namespace Sys2Proof.Machine

open Sys2Proof

/-! ### Trailing zeros -/

/-- `digits(m)` is the digit string of `m`, the empty one for 0 (45_string.md R290). -/
theorem spellsNumber_digits (m : Nat) : spellsNumber (digits m) m := by
  rcases eq_or_ne m 0 with rfl | hm
  · exact ⟨rfl, rfl, nofun⟩
  · exact digits_spells hm

theorem digitsValue_replicate_zero (k : Nat) : digitsValue (List.replicate k 0x30) = 0 := by
  induction k with
  | zero => rfl
  | succ k ih => rw [List.replicate_succ', digitsValue_concat, ih]; rfl

theorem digitsValue_append_zeros (ds : List Byte) (k : Nat) :
    digitsValue (ds ++ List.replicate k 0x30) = digitsValue ds * 10 ^ k := by
  rw [digitsValue_append, List.length_replicate, digitsValue_replicate_zero, Nat.add_zero]

theorem digitsValue_zeros_append (k : Nat) (ds : List Byte) :
    digitsValue (List.replicate k 0x30 ++ ds) = digitsValue ds := by
  rw [digitsValue_append, digitsValue_replicate_zero, Nat.zero_mul, Nat.zero_add]

/-- The digit string of a nonzero number without `k` trailing zeros is that of a nonzero number. -/
theorem spellsNumber_of_append_zeros {ds : List Byte} {k n : Nat} (hn : n ≠ 0)
    (h : spellsNumber (ds ++ List.replicate k 0x30) n) :
    ∃ p, n = p * 10 ^ k ∧ p ≠ 0 ∧ spellsNumber ds p := by
  obtain ⟨hd, hv, hz⟩ := h
  rw [digitsValue_append_zeros] at hv
  have hp : digitsValue ds ≠ 0 := left_ne_zero_of_mul (hv ▸ hn)
  refine ⟨digitsValue ds, hv.symm, hp, ?_, rfl, ?_⟩
  · rw [List.all_append, Bool.and_eq_true] at hd
    exact hd.1
  · cases ds with
    | nil => nofun
    | cons d ds => exact hz

/-- A digit string that does not end in `0` spells no multiple of ten. -/
theorem mod_ten_ne_zero_of_spells {ds : List Byte} {d : Byte} {n : Nat} (h : spellsNumber (ds ++ [d]) n)
    (hd : d ≠ 0x30) : n % 10 ≠ 0 := by
  obtain ⟨-, hdigit, hv⟩ := spellsNumber_concat h
  rw [← hv]
  exact fun h0 => hd ((digitValue_eq_zero_iff hdigit).1 h0)

/-- What is left of a digit string when `k` zeros are taken from its end: reading the string backwards, as both
loops of the formatter do (45_string.md R291, R292). -/
theorem spellsNumber_of_reverse {ds xs : List Byte} {k n : Nat} (hn : n ≠ 0) (h : spellsNumber ds n)
    (hrev : ds.reverse = List.replicate k 0x30 ++ xs) :
    ∃ p d ds', n = p * 10 ^ k ∧ p ≠ 0 ∧ xs.reverse = d :: ds' ∧ spellsNumber (d :: ds') p ∧
      ((∀ c cs, xs = c :: cs → c ≠ 0x30) → p % 10 ≠ 0) := by
  have hds : ds = xs.reverse ++ List.replicate k 0x30 := by
    rw [← List.reverse_reverse ds, hrev, List.reverse_append, List.reverse_replicate]
  obtain ⟨p, hp, hp0, hspell⟩ := spellsNumber_of_append_zeros hn (hds ▸ h)
  cases hxs : xs with
  | nil =>
    obtain ⟨-, rfl, -⟩ := hspell
    exact absurd (by rw [hxs]; rfl) hp0
  | cons c cs =>
    obtain ⟨d, ds', hd⟩ : ∃ d ds', xs.reverse = d :: ds' := List.exists_cons_of_ne_nil (by simp [hxs])
    refine ⟨p, d, ds', hp, hp0, hxs ▸ hd, hd ▸ hspell, fun hlast => ?_⟩
    rw [hxs, List.reverse_cons] at hspell
    exact mod_ten_ne_zero_of_spells hspell (hlast c cs rfl)

/-! ### The forms -/

/-- `sci` builds the scientific form (45_string.md R292). -/
theorem sci_sciForm {ds : List Byte} {n : Nat} (hn : n ≠ 0) (h : spellsNumber ds n) (e : Int) :
    sciForm n e (sci ds e) := by
  obtain ⟨z, hrev, hexp, hlast⟩ := stripZeros_spec ds.reverse e
  obtain ⟨p, d, ds', hp, -, hmant, hspell, hmod⟩ := spellsNumber_of_reverse hn h hrev
  have hadj : e + z + (d :: ds').length - 1 = e + z + ds'.length := by
    rw [List.length_cons]
    omega
  refine ⟨p, z, d, ds', digits (e + z + ds'.length).natAbs, hp, hmod hlast, hspell, spellsNumber_digits _, ?_⟩
  simp only [sci, hexp, hmant, hadj]
  cases ds' <;> rfl

/-- fmtCore's digits and exponent after its loop, in the words of `formatForm` (45_string.md R291). -/
theorem stripFraction_spells {a : Decimal} (h : a.sig ≠ 0) :
    ∃ n z : Nat, a.sig.natAbs = n * 10 ^ z ∧ n ≠ 0 ∧ (0 ≤ a.exp → z = 0) ∧
      (a.exp < 0 → a.exp + z = 0 ∨ (a.exp + z < 0 ∧ n % 10 ≠ 0)) ∧
      spellsNumber (stripFraction (digits a.sig.natAbs).reverse a.exp).1.reverse n ∧
      (stripFraction (digits a.sig.natAbs).reverse a.exp).2 = a.exp + z := by
  have hm := Int.natAbs_ne_zero.2 h
  obtain ⟨z, hrev, hexp, hpos, hneg, hlast⟩ := stripFraction_spec (digits a.sig.natAbs).reverse a.exp
  obtain ⟨n, d, ds, hn, hn0, hds, hspell, hmod⟩ := spellsNumber_of_reverse hm (digits_spells hm) hrev
  refine ⟨n, z, hn, hn0, hpos, fun he => ?_, hds ▸ hspell, hexp⟩
  rcases (hneg he).eq_or_lt with h0 | hlt
  · exact .inl h0
  · exact .inr ⟨hlt, hmod fun c cs hc => (hlast c cs hc).resolve_left (not_le.2 hlt)⟩

/-- fmtCore builds a sign and the form of R291. -/
theorem fmtCore_formatForm {a : Decimal} (h : a.sig ≠ 0) :
    ∃ body, formatForm a body ∧ fmtCore a = (if a.sig < 0 then [0x2D] else []) ++ body := by
  obtain ⟨n, z, hn, hn0, hpos, hneg, hspell, hexp⟩ := stripFraction_spells h
  refine ⟨_, ⟨n, z, _, hn, hpos, hneg, hspell, ?_⟩, by rw [fmtCore, if_neg h]⟩
  rw [hexp]
  generalize (stripFraction (digits a.sig.natAbs).reverse a.exp).1.reverse = ds at hspell
  have hsci := sci_sciForm hn0 hspell (a.exp + z)
  unfold fmtBody
  simp only
  split
  · split
    · split <;> rfl
    · exact hsci
  · split
    · next hle =>
      rw [if_neg (not_lt.2 hle)]
      rfl
    · next hgt => rwa [if_pos (not_le.1 hgt)]

end Sys2Proof.Machine
end

section
/-! PROOFS, 45_string.md. Every string in the form of 45_string.md R291 is a literal of the grammar of R281, and
spells the value it was made from: what R297 needs of FMT's output. -/

namespace Sys2Proof.Machine

open Sys2Proof

/-- `body` is a literal without whitespace or sign, and spells `m · 10^x`. -/
def SpellsMagnitude (body : List Byte) (m : Nat) (x : Int) : Prop :=
  ∃ l : Literal, l.Legal ∧ l.ws = [] ∧ l.sg = [] ∧ l.bytes = body ∧
    digitsValue (l.int ++ l.fracDigits) = m ∧ l.exponent - l.fracDigits.length = x

/-- The length of a digit string (45_string.md R290). -/
theorem spellsNumber_length {ds : List Byte} {n : Nat} (h : spellsNumber ds n) : ds.length = ndigits n := by
  rw [spellsNumber_unique h (spellsNumber_digits n), digits_length]

/-- A literal whose significand has at most 16 digits has as many significant ones, so all of them are kept
(45_string.md R284). -/
theorem Literal.kept_eq_decimal_of_lt {l : Literal} (h : l.Legal) (h16 : l.decimal.sig.natAbs < 10 ^ 16) :
    l.kept = l.decimal := by
  have habs : l.decimal.sig.natAbs = digitsValue (l.int ++ l.fracDigits) := by
    simp only [Literal.decimal]
    split <;> simp
  have hlen := spellsNumber_length (Literal.significant_spells h)
  rw [← digits_length] at hlen
  have hle := digits_length_le (habs ▸ h16)
  exact Literal.kept_eq_decimal h (by omega)

/-! ### The forms as literals -/

theorem all_isDigit_replicate_zero (k : Nat) : (List.replicate k 0x30).all isDigit = true := by
  rw [List.all_eq_true]
  intro b hb
  rw [List.eq_of_mem_replicate hb]
  rfl

/-- The plain form without a point: the digits and zeros of an integer (45_string.md R291). -/
theorem spellsMagnitude_integer {ds : List Byte} {n : Nat} (h : spellsNumber ds n) (hne : ds ≠ []) (k : Nat) :
    SpellsMagnitude (ds ++ List.replicate k 0x30) (n * 10 ^ k) 0 := by
  obtain ⟨hd, rfl, -⟩ := h
  have hdigits : (ds ++ List.replicate k 0x30).all isDigit = true := by
    rw [List.all_append, hd, all_isDigit_replicate_zero, Bool.and_self]
  have hpos := List.length_pos_iff.2 hne
  refine ⟨⟨[], [], ds ++ List.replicate k 0x30, [], [], [], [], []⟩,
    ⟨rfl, .inl rfl, hdigits, .inl ⟨rfl, rfl⟩, .inl ⟨rfl, rfl, rfl⟩, ?_⟩, rfl, rfl, ?_, ?_, rfl⟩
  · simp only [List.length_append]
    omega
  · simp [Literal.bytes]
  · rw [List.append_nil, digitsValue_append_zeros]

/-- The plain form with a point: any digits before it and after it (45_string.md R291). -/
theorem spellsMagnitude_point {int frac : List Byte} {n : Nat} {x : Int} (hint : int.all isDigit = true)
    (hfrac : frac.all isDigit = true) (hne : int ≠ []) (hn : digitsValue (int ++ frac) = n)
    (hx : x + frac.length = 0) : SpellsMagnitude (int ++ 0x2E :: frac) n x := by
  have hpos := List.length_pos_iff.2 hne
  refine ⟨⟨[], [], int, 0x2E :: frac, frac, [], [], []⟩,
    ⟨rfl, .inl rfl, hint, .inr ⟨rfl, hfrac⟩, .inl ⟨rfl, rfl, rfl⟩, ?_⟩, rfl, rfl, ?_, hn, ?_⟩
  · simp only
    omega
  · simp [Literal.bytes]
  · have h0 : digitsValue [] = 0 := rfl
    simp only [Literal.exponent, h0]
    omega

/-- The plain form with the point among the digits (45_string.md R291). -/
theorem spellsMagnitude_inside {ds : List Byte} {n : Nat} {e : Int} (h : spellsNumber ds n) (he : e < 0)
    (hin : 0 < ds.length + e) :
    SpellsMagnitude (ds.take (ds.length + e).toNat ++ 0x2E :: ds.drop (ds.length + e).toNat) n e := by
  obtain ⟨hdigits, hvalue, -⟩ := h
  rw [← List.take_append_drop (ds.length + e).toNat ds, List.all_append, Bool.and_eq_true] at hdigits
  refine spellsMagnitude_point hdigits.1 hdigits.2 ?_ (by rw [List.take_append_drop, hvalue]) ?_
  · exact List.ne_nil_of_length_pos (by rw [List.length_take]; omega)
  · rw [List.length_drop]
    omega

/-- The plain form with `k` zeros between the point and the first digit (45_string.md R291). -/
theorem spellsMagnitude_before {ds : List Byte} {n k : Nat} {e : Int} (h : spellsNumber ds n)
    (hk : e + k + ds.length = 0) :
    SpellsMagnitude (0x30 :: 0x2E :: (List.replicate k 0x30 ++ ds)) n e := by
  obtain ⟨hdigits, hvalue, -⟩ := h
  refine spellsMagnitude_point (int := [0x30]) rfl ?_ nofun ?_ ?_
  · rw [List.all_append, all_isDigit_replicate_zero, hdigits, Bool.and_self]
  · exact (digitsValue_zeros_append 1 _).trans ((digitsValue_zeros_append k ds).trans hvalue)
  · rw [List.length_append, List.length_replicate]
    omega

/-- The exponent of the scientific form: a sign and the digits of its magnitude (45_string.md R292). -/
theorem sciExponent_eq {xs : List Byte} {adj : Int} (h : digitsValue xs = adj.natAbs) :
    (if [if 0 ≤ adj then (0x2B : Byte) else 0x2D] = [0x2D] then -(digitsValue xs : Int) else digitsValue xs) =
      adj := by
  rw [h]
  split_ifs with h1 h2 h2
  · exact absurd h2 (by decide)
  · omega
  · omega
  · exact absurd rfl h2

/-- The scientific form, when the exponent of its first digit is not 0 and has at most three digits
(45_string.md R292). -/
theorem spellsMagnitude_sci {n : Nat} {e : Int} {body : List Byte} (h : sciForm n e body)
    (h0 : e + ndigits n - 1 ≠ 0) (h3 : (e + ndigits n - 1).natAbs < 10 ^ 3) :
    ∃ p z : Nat, n = p * 10 ^ z ∧ SpellsMagnitude body p (e + z) := by
  obtain ⟨p, z, d, ds, xs, hn, hp, hspell, hxs, rfl⟩ := h
  have hp0 : p ≠ 0 := fun h => hp (by rw [h])
  have hlen := spellsNumber_length hspell
  have hadj : e + z + ds.length = e + ndigits n - 1 := by
    rw [hn, ndigits_mul_pow hp0, ← hlen, List.length_cons]
    push_cast
    ring
  rw [← hadj] at h0 h3
  have habs := Int.natAbs_ne_zero.2 h0
  have hx1 := (ndigits_bounds habs).2.2
  have hx3 := (ndigits_le_iff habs).2 h3
  rw [← spellsNumber_length hxs] at hx1 hx3
  obtain ⟨hdigits, hvalue, -⟩ := hspell
  obtain ⟨hxdigits, hxvalue, -⟩ := hxs
  obtain ⟨hd, hds⟩ := Bool.and_eq_true_iff.1 hdigits
  have hfrac : optionalFraction (if ds = [] then [] else 0x2E :: ds) ds := by
    split
    · next hnil => exact .inl ⟨rfl, hnil⟩
    · exact .inr ⟨rfl, hds⟩
  have hsign : optionalSign [if 0 ≤ e + z + ds.length then (0x2B : Byte) else 0x2D] :=
    .inr ⟨_, rfl, by split <;> rfl⟩
  refine ⟨p, z, hn, ⟨[], [], [d], if ds = [] then [] else 0x2E :: ds, ds,
      0x45 :: ([if 0 ≤ e + z + ds.length then 0x2B else 0x2D] ++ xs),
      [if 0 ≤ e + z + ds.length then 0x2B else 0x2D], xs⟩,
    ⟨rfl, .inl rfl, by simp [hd], hfrac, .inr ⟨0x45, rfl, rfl, hsign, hxdigits, hx1, hx3⟩, by simp⟩,
    rfl, rfl, ?_, hvalue, ?_⟩
  · simp [Literal.bytes]
  · rw [Literal.exponent, sciExponent_eq hxvalue]
    ring

/-! ### FMT's output as a literal -/

theorem cast_mul_pow_mul_zpow (n z : Nat) (e : Int) :
    ((n * 10 ^ z : Nat) : ℚ) * 10 ^ e = n * 10 ^ (e + z) := by
  rw [zpow_ten_add_nat]
  push_cast
  ring

/-- The form of R291 is a literal, with at most 16 digits from the first that is not 0 on: the point inside the
digits, before them, none, or the scientific form. -/
theorem spellsMagnitude_of_formatForm {a : Decimal} {body : List Byte} (h : formatForm a body) (ha : a.inRange)
    (h0 : a.sig ≠ 0) :
    ∃ m x, SpellsMagnitude body m x ∧ m < 10 ^ 16 ∧ -256 ≤ x ∧ |a.value| = m * 10 ^ x := by
  obtain ⟨n, z, ds, hsig, hpos, hneg, hspell, hbody⟩ := h
  obtain ⟨h16, hmin, hmax⟩ := ha
  rw [hsig] at h16
  have hn0 : n ≠ 0 := left_ne_zero_of_mul (hsig ▸ Int.natAbs_ne_zero.2 h0)
  have hn16 : n < 10 ^ 16 := (Nat.le_mul_of_pos_right n (by positivity)).trans_lt h16
  have hlen := spellsNumber_length hspell
  have hdigits : ndigits n ≤ 16 := (ndigits_le_iff hn0).2 hn16
  have hdigits0 := (ndigits_bounds hn0).2.2
  have hvalue : |a.value| = n * 10 ^ (a.exp + z) := by
    rw [Decimal.abs_value, hsig, cast_mul_pow_mul_zpow]
  have hmin' : -256 ≤ a.exp + z := by omega
  have hmax' : a.exp + z ≤ 255 := by omega
  generalize a.exp + z = e at *
  have hsci : sciForm n e body → e + ndigits n - 1 ≠ 0 →
      ∃ m x, SpellsMagnitude body m x ∧ m < 10 ^ 16 ∧ -256 ≤ x ∧ |a.value| = m * 10 ^ x := by
    intro hform hadj
    obtain ⟨p, k, rfl, hp⟩ := spellsMagnitude_sci hform hadj (by omega)
    refine ⟨p, e + k, hp, ?_, by omega, by rw [hvalue, cast_mul_pow_mul_zpow]⟩
    exact (Nat.le_mul_of_pos_right p (by positivity)).trans_lt hn16
  split_ifs at hbody with hfrac hnear hinside hshort
  · exact ⟨n, e, hbody ▸ spellsMagnitude_inside hspell hfrac hinside, hn16, hmin', hvalue⟩
  · exact ⟨n, e, hbody ▸ spellsMagnitude_before hspell (by omega), hn16, hmin', hvalue⟩
  · exact hsci hbody (by omega)
  · obtain ⟨k, rfl⟩ := Int.eq_ofNat_of_zero_le (not_lt.1 hfrac)
    have hne := List.ne_nil_of_length_pos (hlen ▸ hdigits0)
    refine ⟨n * 10 ^ k, 0, hbody ▸ spellsMagnitude_integer hspell hne k, ?_, by decide, ?_⟩
    · rw [← ndigits_le_iff (by positivity), ndigits_mul_pow hn0]
      omega
    · rw [hvalue, cast_mul_pow_mul_zpow, zero_add]
  · exact hsci hbody (by omega)

/-- The literal with a sign in front: FMT's output of a nonzero number. -/
theorem exists_literal_of_formatForm {a : Decimal} {body : List Byte} (h : formatForm a body) (ha : a.inRange)
    (h0 : a.sig ≠ 0) :
    ∃ l : Literal, l.Legal ∧ l.bytes = (if a.sig < 0 then [0x2D] else []) ++ body ∧
      l.decimal.sig.natAbs < 10 ^ 16 ∧ -256 ≤ l.decimal.exp ∧ l.decimal.value = a.value := by
  obtain ⟨m, x, ⟨l, ⟨-, -, hrest⟩, hws, hsg, hbytes, rfl, hexp⟩, hm, hx, hvalue⟩ :=
    spellsMagnitude_of_formatForm h ha h0
  have hsign : optionalSign (if a.sig < 0 then [0x2D] else []) := by
    split
    · exact .inr ⟨_, rfl, rfl⟩
    · exact .inl rfl
  have hneg : (if a.sig < 0 then [(0x2D : Byte)] else []) = [0x2D] ↔ a.sig < 0 := by
    split <;> simp [*]
  refine ⟨{ l with sg := if a.sig < 0 then [0x2D] else [] }, ⟨by rw [hws]; rfl, hsign, hrest⟩, ?_, ?_, ?_, ?_⟩
  · rw [← hbytes]
    simp [Literal.bytes, hws, hsg]
  · simp only [Literal.decimal]
    split <;> simpa using hm
  · exact hx.trans hexp.ge
  · rw [← Decimal.sign_mul_abs_value a, hvalue, ← hexp]
    simp only [Literal.decimal, Literal.exponent, hneg, Decimal.value]
    split
    · next hlt => simp [Int.sign_eq_neg_one_of_neg hlt]
    · next hge => simp [Int.sign_eq_one_of_pos (show 0 < a.sig by omega)]

/-- FMT's output of any decimal is a literal of at most 16 significant digits and of the same value
(45_string.md R297). -/
theorem exists_literal_fmtCore {a : Decimal} (ha : a.inRange) :
    ∃ l : Literal, l.Legal ∧ l.bytes = fmtCore a ∧
      l.decimal.sig.natAbs < 10 ^ 16 ∧ -256 ≤ l.decimal.exp ∧ l.decimal.value = a.value := by
  by_cases h0 : a.sig = 0
  · refine ⟨⟨[], [], [0x30], [], [], [], [], []⟩,
      ⟨rfl, .inl rfl, rfl, .inl ⟨rfl, rfl⟩, .inl ⟨rfl, rfl, rfl⟩, by decide⟩, ?_, by decide, by decide, ?_⟩
    · rw [fmtCore, if_pos h0]
      rfl
    · rw [a.value_eq_zero_iff.2 h0, Decimal.value_eq_zero_iff]
      rfl
  · obtain ⟨body, hform, hfmt⟩ := fmtCore_formatForm h0
    rw [hfmt]
    exact exists_literal_of_formatForm hform ha h0

end Sys2Proof.Machine
end

section
/-! PROOFS, 45_string.md. FMT (45_string.md R291 to R295) and its round trip through PARSE (R297). -/

namespace Sys2Proof.Machine

open Sys2Proof

variable {s : State} {bs : List Byte}

/-! ### The string that FMT writes -/

theorem State.writeString_strlen_toNat (s : State) (h : bs.length ≤ 64) :
    (s.writeString bs).strlen.toNat = bs.length := by
  simp only [State.writeString_strlen, BitVec.toNat_setWidth, BitVec.toNat_ofNat]
  omega

/-- The buffer starts with the string written to it (45_string.md R295). -/
theorem readBytes_writeString (hwf : s.str.wf = true) (h : bs.length ≤ 64) :
    (s.writeString bs).str.readBytes 0 bs.length = bs := by
  apply List.ext_getElem (Memory.readBytes_length _ _ _)
  intro i _ hi
  rw [Memory.readBytes_getElem, State.writeString_str, Memory.read_fill hwf h, Nat.zero_add,
    List.getD_eq_getElem _ _ hi]

theorem read_writeString_of_le (hwf : s.str.wf = true) (h : bs.length ≤ 64) {j : Nat} (hj : bs.length ≤ j) :
    (s.writeString bs).str.read j = 0 := by
  rw [State.writeString_str, Memory.read_fill hwf h, List.getD_eq_default _ _ hj]
  rfl

theorem exec_fmt_of_holds {ra : Fin 8} {a : Decimal} (ha : s.holds ra a) :
    exec (.fmt ra) s = .next (s.writeString (fmtCore a)).completed :=
  complete_decimal_of_holds ha _

theorem one_le_length_fmtCore {a : Decimal} (ha : a.inRange) : 1 ≤ (fmtCore a).length := by
  obtain ⟨l, hl, hbytes, -⟩ := exists_literal_fmtCore ha
  exact hbytes ▸ Literal.one_le_length_bytes hl

/-- Settles O56: the string written is fmtCore's, which has the form of R291. -/
theorem fmtWritesTheString : Obligations.FmtWritesTheString := by
  intro s ra a ha hwf
  have hrange := inRange_of_decode ha
  have hmax := fmtCore_length_le hrange
  have hmin := one_le_length_fmtCore hrange
  have hlen := s.writeString_strlen_toNat (bs := fmtCore a) (by omega)
  have hread := readBytes_writeString hwf (bs := fmtCore a) (by omega)
  refine ⟨_, exec_fmt_of_holds ha, rfl, ?_⟩
  simp only [State.completed, hlen, hread]
  refine ⟨hmin, hmax, Memory.fill_wf hwf (by omega), trivial, trivial, fun h0 => ?_, fmtCore_formatForm,
    fun j => read_writeString_of_le hwf (by omega)⟩
  rw [fmtCore, if_pos h0]

/-! ### The round trip -/

/-- PARSE's core on FMT's output gives a word of the same value (45_string.md R297): no digit is dropped, and the
value stays below the overflow bound. -/
theorem parseCore_fmtCore {a : Decimal} (ha : a.inRange) (h253 : a.exp ≤ 253) :
    ∃ w c, parseCore (fmtCore a) = .ok w ∧ decodeDecimal w = some c ∧ c.value = a.value := by
  obtain ⟨l, hl, hbytes, h16, hmin, hvalue⟩ := exists_literal_fmtCore ha
  have hlt : |l.decimal.value| < overflowBound := hvalue ▸ abs_value_lt_bound_of_short ha.1 h253
  obtain ⟨w, c, hw, hc, -, hexact⟩ := exists_renorm_rounds (s := l.decimal.sig) hmin hlt
  refine ⟨w, c, ?_, hc, (hexact h16).trans hvalue⟩
  rw [← hbytes, parseCore_bytes hl, Literal.kept_eq_decimal_of_lt hl h16, hw]

/-- Settles O57: FMT leaves its string as PARSE's input. -/
theorem formatThenParseKeepsTheValue : Obligations.FormatThenParseKeepsTheValue := by
  intro s ra rd a ha h253 hwf
  have hrange := inRange_of_decode ha
  have hmax := fmtCore_length_le hrange
  have hmin := one_le_length_fmtCore hrange
  obtain ⟨w, c, hparse, hc, hvalue⟩ := parseCore_fmtCore hrange h253
  have hlen := s.writeString_strlen_toNat (bs := fmtCore a) (by omega)
  have hinput : (s.writeString (fmtCore a)).completed.inputBytes = .ok (fmtCore a) := by
    rw [State.inputBytes_ok_iff]
    simp only [State.completed, hlen, readBytes_writeString hwf (bs := fmtCore a) (by omega)]
    exact ⟨by omega, by omega, trivial⟩
  have hexec := exec_parse_of_inputBytes hinput rd
  rw [hparse, State.completeWord_ok] at hexec
  refine ⟨_, _, c, exec_fmt_of_holds ha, hexec, rfl, ?_, hvalue⟩
  have hword : (((s.writeString (fmtCore a)).completed.writeD rd w).completed).readD rd = w :=
    State.writeD_readD_same _ rd w
  rwa [State.holds, hword]

end Sys2Proof.Machine
end

section
/-! PROOFS, 60_exceptions.md. Every command completes, and an error is visible in STATUS alone
(60_exceptions.md R330, R333, 10_state.md R39). -/

namespace Sys2Proof.Machine

open Sys2Proof

variable {s t : State} {i : Instr}

theorem exists_exec_eq_next (i : Instr) (s : State) : ∃ t, exec i s = .next t := by
  obtain ⟨r, hr⟩ := exec_is_completion i s
  rw [hr]
  cases r with
  | ok s' => exact ⟨s'.succeed, rfl⟩
  | error c => exact ⟨s.fail c, rfl⟩

/-- The two ways a command completes (10_state.md R39): no effect of a command reaches STATUS. -/
theorem exec_status (h : exec i s = .next t) :
    t.inflight = none ∧ (t.status = s.okStatus ∨ ∃ c : ErrorCode, t = s.errored c.code) := by
  cases exec_effect h with
  | failed c => exact ⟨rfl, .inr ⟨c, s.fail_eq_errored c⟩⟩
  | _ => exact ⟨rfl, .inl rfl⟩

/-- Settles O14, by the two ways a command completes. -/
theorem everyCommandCompletesWithStatus : Obligations.EveryCommandCompletesWithStatus := by
  intro i s
  obtain ⟨t, ht⟩ := exists_exec_eq_next i s
  obtain ⟨hidle, hok | ⟨c, rfl⟩⟩ := exec_status ht
  · exact ⟨t, ht, hidle, .inl hok⟩
  · exact ⟨_, ht, hidle, .inr ⟨c, rfl⟩⟩

/-- Settles O15: a completion without error has ERR = 0. -/
theorem errorChangesStatusOnly : Obligations.ErrorChangesStatusOnly := by
  intro i s t h herr
  obtain ⟨-, hok | hfail⟩ := exec_status h
  · rw [hok] at herr
    exact absurd herr Bool.false_ne_true
  · exact hfail

end Sys2Proof.Machine
end

section
/-! PROOFS, 60_exceptions.md. The errors of each command (60_exceptions.md R332): each part of a rule raises only
errors of the command's row, since the words that it decodes keep its inner steps in range. -/

namespace Sys2Proof.Machine

open Sys2Proof

/-- Every error of the rule is one of `l`. -/
def RaisesOnly {α : Type} (l : List ErrorCode) (r : Except ErrorCode α) : Prop := ∀ c, r = .error c → c ∈ l

namespace RaisesOnly

variable {α β : Type} {l : List ErrorCode} {s : State} {ra rb : Fin 8} {v w : Word} {a b : Decimal}

/-! ### The parts every rule is made of -/

theorem ok (x : α) : RaisesOnly l (.ok x) := nofun

theorem of_eq_ok {r : Except ErrorCode α} {x : α} (h : r = .ok x) : RaisesOnly l r := h ▸ ok x

theorem error {c : ErrorCode} (h : c ∈ l := by simp [allowedErrors]) :
    RaisesOnly l (.error c : Except ErrorCode α) := by
  rintro _ ⟨⟩
  exact h

theorem ite {p : Prop} [Decidable p] {x y : Except ErrorCode α} (hx : p → RaisesOnly l x)
    (hy : ¬p → RaisesOnly l y) : RaisesOnly l (if p then x else y) := by
  split
  · next h => exact hx h
  · next h => exact hy h

theorem bind {x : Except ErrorCode α} {f : α → Except ErrorCode β} (hx : RaisesOnly l x)
    (hf : ∀ y, x = .ok y → RaisesOnly l (f y)) : RaisesOnly l (x >>= f) := fun c h =>
  (except_bind_error_iff.1 h).elim (hx c) fun ⟨y, hy, hc⟩ => hf y hy c hc

/-- A computed value that the rule then only writes. -/
theorem map {x : Except ErrorCode α} {f : α → β} (hx : RaisesOnly l x) :
    RaisesOnly l (x >>= fun y => pure (f y)) := bind hx fun _ _ => ok _

/-- A command with one decoded operand. -/
theorem unary {f : Decimal → Except ErrorCode State} (hf : ∀ a, s.holds ra a → RaisesOnly l (f a))
    (h : .operand ∈ l := by simp [allowedErrors]) : RaisesOnly l (s.decimal ra >>= f) :=
  bind (fun _ hc => (State.decimal_error_iff.1 hc).2 ▸ h) fun a ha => hf a (State.decimal_ok_iff.1 ha)

/-- A command with two decoded operands. -/
theorem binary {f : Decimal → Decimal → Except ErrorCode State}
    (hf : ∀ a b, s.holds ra a → s.holds rb b → RaisesOnly l (f a b))
    (h : .operand ∈ l := by simp [allowedErrors]) :
    RaisesOnly l (s.decimal ra >>= fun a => s.decimal rb >>= f a) :=
  unary (fun a ha => unary (fun b hb => hf a b ha hb) h) h

/-! ### The cores -/

theorem encode (s e : Int) (h : .range ∈ l := by simp [allowedErrors]) :
    RaisesOnly l (encodeDecimal s e) := fun _ hc => (encodeDecimal_error_iff.1 hc).2 ▸ h

theorem shiftUpEffect (k : Nat) (s : State) (h : .range ∈ l := by simp [allowedErrors]) :
    RaisesOnly l (shiftUpEffect k s) := ite (fun _ => error h) fun _ => ok _

/-- NORM stays within the range of a word (41_word_codec.md R163). -/
theorem normCore (ha : decodeDecimal w = some a) : RaisesOnly l (normCore a) := by
  by_cases h0 : a.sig = 0
  · exact of_eq_ok (if_pos h0)
  · obtain ⟨w', -, hcore, -⟩ := normCore_of_ne_zero (inRange_of_decode ha) h0
    exact of_eq_ok hcore

theorem renorm (s e : Int) (h : .overflow ∈ l := by simp [allowedErrors]) : RaisesOnly l (renorm s e) := by
  rcases renorm_cases s e with herr | ⟨w, -, hok, -⟩
  · exact herr ▸ error h
  · exact of_eq_ok hok

/-- A sum of canonical words fails only in renorm (42_arith.md R184). -/
theorem addCore (ha : decodeDecimal v = some a) (hb : decodeDecimal w = some b)
    (h : .overflow ∈ l := by simp [allowedErrors]) : RaisesOnly l (addCore a b) := by
  rcases addCore_within ha hb with ⟨herr, -⟩ | ⟨w', -, hok, -⟩
  · exact herr ▸ error h
  · exact of_eq_ok hok

theorem mulCore (a b : Decimal) (h : .overflow ∈ l := by simp [allowedErrors]) :
    RaisesOnly l (mulCore a b) := ite (fun _ => ok _) fun _ => renorm _ _ h

theorem divCore (a b : Decimal) (hz : .divZero ∈ l := by simp [allowedErrors])
    (h : .overflow ∈ l := by simp [allowedErrors]) : RaisesOnly l (divCore a b) :=
  ite (fun _ => error hz) fun _ => ite (fun _ => ok _) fun _ =>
    ite (fun _ => renorm _ _ h) fun _ => renorm _ _ h

theorem shiftCore (a : Decimal) (n : Int) (h : .overflow ∈ l := by simp [allowedErrors]) :
    RaisesOnly l (shiftCore a n) := ite (fun _ => ok _) fun _ => renorm _ _ h

/-- Rounding a canonical word gives one (43_round.md R230). -/
theorem roundCore (ha : decodeDecimal w = some a) (rule : RoundingRule) {n : Int} (hn : 0 ≤ n) :
    RaisesOnly l (roundCore a rule n) := by
  obtain ⟨w', -, -, hcore, -⟩ := roundCore_roundsBy ha rule hn
  exact of_eq_ok hcore

/-- DECOMP never fails on a canonical word (43_round.md R237): the decompose law gives its answer. -/
theorem decompCore (ha : s.holds ra a) : RaisesOnly l (decompCore a) := by
  obtain ⟨wi, wf, -, -, hexec, -⟩ := decomposeLaw s 0 ra 1 a ha (by decide)
  have hcomplete := (complete_decimal_of_holds ha _).symm.trans hexec
  cases hcore : Machine.decompCore a with
  | ok p => exact ok p
  | error c =>
    rw [hcore] at hcomplete
    exact absurd (congrArg (·.status.err) (Host.Outcome.next.inj hcomplete)) Bool.false_ne_true.symm

theorem inputBytes (s : State) (h : .parse ∈ l := by simp [allowedErrors]) : RaisesOnly l s.inputBytes :=
  fun _ hc => (State.inputBytes_error_iff.1 hc).2 ▸ h

theorem parseCore (bs : List Byte) (hp : .parse ∈ l := by simp [allowedErrors])
    (h : .overflow ∈ l := by simp [allowedErrors]) : RaisesOnly l (parseCore bs) :=
  bind (fun _ hc => parseLiteral_error hc ▸ hp) fun _ _ => renorm _ _ h

end RaisesOnly

/-! ### Every command -/

/-- The rule of each command raises only the errors of its row (60_exceptions.md R332). -/
theorem exec_raisesOnly (i : Instr) (s : State) :
    ∃ r, exec i s = s.complete r ∧ RaisesOnly (allowedErrors i) r := by
  cases i with
  | pow10 n =>
    refine ⟨_, rfl, ?_⟩
    split
    · exact .ok _
    · exact .error
  | scale sh => exact ⟨_, rfl, .ite (fun _ => .error) fun _ => .ok _⟩
  | shup16 => exact ⟨_, rfl, .shiftUpEffect 16 s⟩
  | shup17 => exact ⟨_, rfl, .shiftUpEffect 17 s⟩
  | shup18 => exact ⟨_, rfl, .shiftUpEffect 18 s⟩
  | shupc limit =>
    exact ⟨_, rfl, .ite (fun _ => .error) fun _ => .ite (fun _ => .error) fun _ => .ok _⟩
  | enc rd e => exact ⟨_, rfl, .map (.encode _ _)⟩
  | sig ra => exact ⟨_, rfl, .unary fun _ _ => .ok _⟩
  | exp ra => exact ⟨_, rfl, .unary fun _ _ => .ok _⟩
  | sgn ra => exact ⟨_, rfl, .ok _⟩
  | norm rd ra => exact ⟨_, rfl, .unary fun _ ha => .map (.normCore ha)⟩
  | add rd ra rb => exact ⟨_, rfl, .binary fun _ _ ha hb => .map (.addCore ha hb)⟩
  | sub rd ra rb => exact ⟨_, rfl, .binary fun _ _ ha hb => .map (.addCore ha (decode_negated hb))⟩
  | mul rd ra rb => exact ⟨_, rfl, .binary fun a b _ _ => .map (.mulCore a b)⟩
  | div rd ra rb => exact ⟨_, rfl, .binary fun a b _ _ => .map (.divCore a b)⟩
  | neg rd ra => exact ⟨_, rfl, .unary fun _ _ => .ok _⟩
  | shl rd ra n => exact ⟨_, rfl, .unary fun a _ => .map (.shiftCore a n)⟩
  | shr rd ra n => exact ⟨_, rfl, .unary fun a _ => .map (.shiftCore a (-n))⟩
  | rnd rd ra rule n =>
    exact ⟨_, rfl, .unary fun _ ha =>
      .ite (fun _ => .error) fun hn => .map (.roundCore ha rule (not_lt.1 hn))⟩
  | decomp rd ra rb =>
    exact ⟨_, rfl, .ite (fun _ => .error) fun _ => .unary fun _ ha => .map (.decompCore ha)⟩
  | cmpeq ra rb => exact ⟨_, rfl, .binary fun _ _ _ _ => .ok _⟩
  | cmp ra rb => exact ⟨_, rfl, .binary fun _ _ _ _ => .ok _⟩
  | parse rd => exact ⟨_, rfl, .bind (.inputBytes s) fun bs _ => .map (.parseCore bs)⟩
  | fmt ra => exact ⟨_, rfl, .unary fun _ _ => .ok _⟩

/-- Settles O16: ECODE is the code of the error that the rule raised. -/
theorem errorsOfEachCommand : Obligations.ErrorsOfEachCommand := by
  intro i s t h herr
  obtain ⟨r, hr, hraises⟩ := exec_raisesOnly i s
  rw [hr] at h
  obtain ⟨s', -, rfl⟩ | ⟨c, hc, rfl⟩ := State.complete_eq_next.1 h
  · exact absurd herr Bool.false_ne_true
  · exact ⟨c, hraises c hc, rfl⟩

end Sys2Proof.Machine
end

section
/-! PROOFS, 70_reset_and_hazards.md. Reset, issue and the busy window (70_reset_and_hazards.md R360, R364, R365,
R370): one step each. -/

namespace Sys2Proof.Machine

open Sys2Proof

/-- Settles O6: of the state before it a reset keeps the later events alone. -/
theorem resetDiscardsTheCommand : Obligations.ResetDiscardsTheCommand :=
  fun _ _ h => step_reset h

/-- The table word of a command is decoded as the value that the host writes to CMD (30_encoding.md R91). -/
theorem decodeTableWord_some_iff {nbits w : Nat} {i : Instr} :
    decodeTableWord nbits w = some i ↔ decodeCmd (cmdValue nbits w) = .ok i := by
  unfold decodeTableWord
  cases decodeCmd (cmdValue nbits w) <;> simp

/-- A command value just issued stands in the latch, and the unit has its turn on it (log entry 6). -/
theorem step_afterIssue (s : State) (v : Word) : step (s.afterIssue v) = runMove (unitMove (s.issue v)) :=
  step_unitTurn rfl

/-- Settles O7: the unit's turn runs what the value in the latch decodes to. -/
theorem stepRunsTheDecodedCommand : Obligations.StepRunsTheDecodedCommand := by
  refine ⟨fun s v i hv hi => ⟨fun h => ?_, fun rest h => ?_⟩, fun s nbits w i hi => ?_⟩
  · exact (step_nil h).trans (unitMove_legal hv hi)
  · exact (step_unitTurn h).trans (unitMove_legal (s := s.withAgenda rest) hv hi)
  · exact (step_afterIssue s _).trans
      (unitMove_legal (s.issue_inflight _) (decodeTableWord_some_iff.1 hi))

/-- Settles O8: an idle block accepts a CMD write and issues the command; a busy one rejects it. -/
theorem cmdWriteIssuesWhenIdle : Obligations.CmdWriteIssuesWhenIdle := by
  intro s v rest h
  have hstep := step_hostWr (r := .cmd) h
  constructor <;> intro hb
  · rw [hstep, busWrite_accepted (s := s.withAgenda rest) (r := .cmd) v hb nofun nofun]
    rfl
  · rw [hstep, busWrite_rejected (s := s.withAgenda rest) v (.inl hb)]
    rfl

/-- STATUS as it reads while a command is in flight (10_state.md R37). -/
theorem Status.toWord_of_busy {st : Status} (h : st.busy = true) :
    st.toWord = BitVec.ofNat 64 (1 + 2 * st.err.toNat + 4 * st.serr.toNat + 16 * st.ecode.toNat) := by
  rw [Status.toWord, h, Bool.toNat_true]

/-- Settles O13: a STATUS read is accepted while busy too, and answers the STATUS that is held. -/
theorem statusReadWhileBusyShowsHeldFields : Obligations.StatusReadWhileBusyShowsHeldFields := by
  intro s hb
  rw [← Status.toWord_of_busy hb]
  exact readsAs_offset (r := .status) (.inr rfl)

end Sys2Proof.Machine
end

section
/-! PROOFS, 70_reset_and_hazards.md. The end of a run (70_reset_and_hazards.md R365, R366, R371): every step takes
one event off the agenda, and until the unit has its turn a busy block keeps the state that the command was issued
on. -/

namespace Sys2Proof.Machine

open Sys2Proof

variable {s t : State} {v : Word} {rest : List Event}

/-! ### The unit's turn -/

/-- The unit's turn on a command in flight runs the decoded command, or completes with E_ILLEGAL
(70_reset_and_hazards.md R365, 30_encoding.md R98). -/
theorem unitMove_completes (h : s.inflight = some v) :
    ∃ t, runMove (unitMove s) = .next t ∧
      ((∃ i, decodeCmd v = .ok i ∧ exec i s = .next t) ∨
        ((∀ i, decodeCmd v ≠ .ok i) ∧ t = s.errored 1)) := by
  cases hv : decodeCmd v with
  | ok i =>
    obtain ⟨t, ht⟩ := exists_exec_eq_next i s
    exact ⟨t, (unitMove_legal h hv).trans ht, .inl ⟨i, rfl, ht⟩⟩
  | error e => exact ⟨_, unitMove_illegal h hv, .inr ⟨nofun, State.fail_eq_errored s .illegal⟩⟩

/-- After the unit's turn nothing is in flight, and the events to come are the same
(70_reset_and_hazards.md R365). -/
theorem unitMove_idle_after (h : runMove (unitMove s) = .next t) :
    t.inflight = none ∧ t.agenda = s.agenda := by
  obtain ⟨hidle, hu⟩ | ⟨v, i, -, -, hu⟩ | ⟨v, e, -, -, hu⟩ := unitMove_cases s <;> rw [hu] at h
  · exact Host.Outcome.next.inj h ▸ ⟨hidle, rfl⟩
  · obtain ⟨-, -, hagenda, -⟩ := commandsKeepDataAndCmd i s t h
    exact ⟨(exec_status h).1, hagenda⟩
  · exact Host.Outcome.next.inj h ▸ ⟨rfl, rfl⟩

/-! ### Steps along the agenda -/

/-- An agenda inside the window never stops the model (20_memory.md R62; log entry 2). -/
theorem exists_step_eq_next (h : s.agendaInWindow = true) : ∃ t, step s = .next t := by
  cases hstep : step s with
  | next t => exact ⟨t, rfl⟩
  | fault f =>
    obtain ⟨e, rest, ha, he⟩ := step_fault hstep
    rw [State.agendaInWindow, ha, List.all_cons, he] at h
    exact absurd h Bool.false_ne_true
  | refused f => exact absurd hstep (step_ne_refused f)

/-- Every step takes the first event off the agenda, if there is one, and adds none (log entry 3). -/
theorem step_agenda (h : step s = .next t) : t.agenda = s.agenda.tail := by
  obtain ⟨ha, hu⟩ | ⟨rest, ha, hu⟩ | ⟨rest, ha, rfl⟩ | ⟨rest, off, size, ha, -, rfl⟩ |
    ⟨rest, off, size, v, ha, -, rfl⟩ := step_cases h <;> rw [ha]
  case inl => exact (unitMove_idle_after hu).2.trans ha
  case inr.inl => exact (unitMove_idle_after hu).2
  case inr.inr.inl => rfl
  case inr.inr.inr.inl =>
    obtain ⟨r, -, -, -, hr⟩ | hr := busRead_cases (s.withAgenda rest) off size <;> rw [hr] <;> rfl
  case inr.inr.inr.inr =>
    obtain ⟨r, -, -, -, hr⟩ | hr := busWrite_cases (s.withAgenda rest) off size v <;> rw [hr]
    · exact writeReg_agenda _ v r
    · rfl

theorem State.agendaInWindow_of_agenda_eq_cons {e : Event} (ha : s.agenda = e :: rest)
    (h : s.agendaInWindow = true) : e.inWindow = true ∧ rest.all Event.inWindow = true := by
  rwa [State.agendaInWindow, ha, List.all_cons, Bool.and_eq_true] at h

/-- One step more at the end of a run. -/
theorem run_succ_of_step {k : Nat} {m : State} (hrun : Host.Core.run Sys2Proof.core k s = .next m)
    (hstep : step m = .next t) : Host.Core.run Sys2Proof.core (k + 1) s = .next t := by
  induction k generalizing s with
  | zero =>
    obtain rfl := Host.Outcome.next.inj hrun
    exact run_next 0 hstep
  | succ k ih =>
    cases hs : step s with
    | next s' =>
      rw [run_next k hs] at hrun
      rw [run_next (k + 1) hs]
      exact ih hrun
    | fault f =>
      have hs' : Sys2Proof.core.step s = .fault f := hs
      simp only [Host.Core.run, hs', reduceCtorEq] at hrun
    | refused f => exact absurd hs (step_ne_refused f)

/-! ### The end of a run -/

/-- With the agenda used up and one step more, the unit has had the last turn. -/
theorem run_ends_idle (h : s.agendaInWindow = true) :
    ∃ t, Host.Core.run Sys2Proof.core (s.agenda.length + 1) s = .next t ∧ t.inflight = none ∧
      t.agenda = [] := by
  induction ha : s.agenda generalizing s with
  | nil =>
    obtain ⟨t, ht⟩ := exists_step_eq_next h
    obtain ⟨hidle, hagenda⟩ := unitMove_idle_after ((step_nil ha).symm.trans ht)
    exact ⟨t, run_next 0 ht, hidle, hagenda.trans ha⟩
  | cons e rest ih =>
    obtain ⟨s', hs'⟩ := exists_step_eq_next h
    have ha' : s'.agenda = rest := by rw [step_agenda hs', ha, List.tail_cons]
    have hw : s'.agendaInWindow = true := by
      rw [State.agendaInWindow, ha']
      exact (State.agendaInWindow_of_agenda_eq_cons ha h).2
    obtain ⟨t, ht, hend⟩ := ih hw ha'
    exact ⟨t, (run_next _ hs').trans ht, hend⟩

/-- Without a reset a busy block comes to the unit's turn, and the host has changed nothing of it meanwhile
(70_reset_and_hazards.md R365, 10_state.md R44). -/
theorem run_reaches_unitTurn (h : s.agendaInWindow = true) (hb : s.status.busy = true)
    (hreset : Event.reset ∉ s.agenda) :
    ∃ (k : Nat) (m u : State), k ≤ s.agenda.length ∧
      Host.Core.run Sys2Proof.core k s = .next m ∧ m.unitTurnNext u ∧
      u = { s with agenda := u.agenda, response := u.response } := by
  induction ha : s.agenda generalizing s with
  | nil => exact ⟨0, s, s, le_rfl, rfl, .inl ⟨ha, rfl⟩, rfl⟩
  | cons e rest ih =>
    by_cases hu : e = .unitTurn
    · subst hu
      exact ⟨0, s, s.withAgenda rest, Nat.zero_le _, rfl, .inr ⟨rest, ha, rfl⟩, rfl⟩
    · obtain ⟨he, hw⟩ := State.agendaInWindow_of_agenda_eq_cons ha h
      rw [ha, List.mem_cons, not_or] at hreset
      obtain ⟨hne, hreset'⟩ := hreset
      obtain ⟨r, hr⟩ := step_access_busy hb ha he (Ne.symm hne) hu
      obtain ⟨k, m, u, hk, hrun, hturn, hsame⟩ :=
        ih (s := (s.withAgenda rest).respond r) hw hb hreset' rfl
      exact ⟨k + 1, m, u, Nat.succ_le_succ hk, (run_next k hr).trans hrun, hturn, hsame⟩

/-- Settles O19: the agenda runs out, and without a reset its steps up to the unit's turn are accesses that a
busy block does not take up. -/
theorem runEndsIdle : Obligations.RunEndsIdle := by
  intro s h
  refine ⟨run_ends_idle h, fun v hv hb hreset => ?_⟩
  obtain ⟨k, m, u, hk, hrun, hturn, hsame⟩ := run_reaches_unitTurn h hb hreset
  have hu : u.inflight = some v := (congrArg State.inflight hsame).trans hv
  obtain ⟨t, ht, hcompletes⟩ := unitMove_completes hu
  have hstep : step m = .next t := (step_unitTurnNext hturn).trans ht
  exact ⟨k, m, u, t, hk, hrun, hturn, hsame, run_succ_of_step hrun hstep, hcompletes⟩

end Sys2Proof.Machine
end
